-- ==== Sys2Proof/Word.lean ====
section
/-! DEFINITION. The machine word and the range of a stored integer (spec/00_scope.md R5, R7). -/

namespace Sys2Proof

/-- A 32-bit word: a command word, a word of OMEM, a CSR (R5 `CW`, R6). -/
abbrev Word := BitVec 32

/-- A coefficient vector: index = power of `x`; its length is part of the value (R9, R15). -/
abbrev Vec := List Int

/-- `INT_MIN` of R5. -/
def intMin : Int := -2147483648

/-- `INT_MAX` of R5. -/
def intMax : Int := 2147483647

/-- A value that a stored coefficient or scalar may have (R7). -/
abbrev InRange (k : Int) : Prop := intMin ≤ k ∧ k ≤ intMax

end Sys2Proof
end

