-- ==== Sys2Proof/Syntax.lean ====
section
/-! DEFINITION. The thirty commands of GFP-1 (spec/30_encoding.md R75), one constructor per row of
spec/opcode_table.json. Operands stand in the order of the assembler syntax (R79): destinations first. -/

namespace Sys2Proof

/-- The index of a polynomial register P0..P15 (R74). -/
abbrev PIdx := Fin 16
/-- The index of a scalar register X0..X15 (R74). -/
abbrev XIdx := Fin 16
/-- The index of a field slot F0..F3 (R74). -/
abbrev FIdx := Fin 4
/-- The 16-bit `imm` field of the M format (R72). -/
abbrev Imm := BitVec 16

/-- A command. -/
inductive Instr where
  /-- `NOP` (R190). -/
  | nop
  /-- `PLD Pd, [addr]` (R91). -/
  | pld (d : PIdx) (addr : Imm)
  /-- `PST Ps, [addr]` (R92). -/
  | pst (d : PIdx) (addr : Imm)
  /-- `XLD Xd, [addr]` (R93). -/
  | xld (d : XIdx) (addr : Imm)
  /-- `XST Xs, [addr]` (R94). -/
  | xst (d : XIdx) (addr : Imm)
  /-- `XLI Xd, imm` (R95). -/
  | xli (d : XIdx) (imm : Imm)
  /-- `ELDB Pd, Ff, [addr]` (R96). -/
  | eldb (d : PIdx) (f : FIdx) (addr : Imm)
  /-- `ESTB Ps, [addr]` (R97). -/
  | estb (d : PIdx) (addr : Imm)
  /-- `COPY Pd, Pa` (R98). -/
  | copy (d a : PIdx)
  /-- `PDEG Xd, Pa` (R111). -/
  | pdeg (d : XIdx) (a : PIdx)
  /-- `PLEAD Xd, Pa` (R112). -/
  | plead (d : XIdx) (a : PIdx)
  /-- `PISZ Xd, Pa` (R113). -/
  | pisz (d : XIdx) (a : PIdx)
  /-- `PISO Xd, Pa` (R114). -/
  | piso (d : XIdx) (a : PIdx)
  /-- `PNORM Pd, Pa` (R115). -/
  | pnorm (d a : PIdx)
  /-- `PADD Pd, Pa, Pb` (R121). -/
  | padd (d a b : PIdx)
  /-- `PSUB Pd, Pa, Pb` (R122). -/
  | psub (d a b : PIdx)
  /-- `PMUL Pd, Pa, Pb` (R124). -/
  | pmul (d a b : PIdx)
  /-- `FNEW Fd, Xa, Xb, Pc` (R133). -/
  | fnew (d : FIdx) (a b : XIdx) (c : PIdx)
  /-- `EZERO Pd, Fa` (R136). -/
  | ezero (d : PIdx) (a : FIdx)
  /-- `EONE Pd, Fa` (R137). -/
  | eone (d : PIdx) (a : FIdx)
  /-- `ENEW Pd, Pa, Fb` (R138). -/
  | enew (d a : PIdx) (b : FIdx)
  /-- `ENORM Pd, Pa` (R140). -/
  | enorm (d a : PIdx)
  /-- `EADD Pd, Pa, Pb` (R147). -/
  | eadd (d a b : PIdx)
  /-- `ESUB Pd, Pa, Pb` (R148). -/
  | esub (d a b : PIdx)
  /-- `EMUL Pd, Pa, Pb` (R150). -/
  | emul (d a b : PIdx)
  /-- `EDIVMOD Pd, Pc, Pa, Pb`: quotient to `d`, remainder to `c` (R160). -/
  | edivmod (d c a b : PIdx)
  /-- `EMOD Pd, Pa, Pb` (R161). -/
  | emod (d a b : PIdx)
  /-- `EINV Pd, Pa` (R172). -/
  | einv (d a : PIdx)
  /-- `EPOW Pd, Pa, Xb` (R181). -/
  | epow (d a : PIdx) (b : XIdx)
  /-- `EORD Xd, Pa` (R183). -/
  | eord (d : XIdx) (a : PIdx)
  deriving DecidableEq, Repr

namespace Instr

/-- The pseudo-instruction `MOV Pd, Pa` (R80). -/
abbrev mov (d a : PIdx) : Instr := .copy d a
/-- The pseudo-instruction `ESQR Pd, Pa` (R80). -/
abbrev esqr (d a : PIdx) : Instr := .emul d a a
/-- The pseudo-instruction `PSQR Pd, Pa` (R80). -/
abbrev psqr (d a : PIdx) : Instr := .pmul d a a

end Instr

end Sys2Proof
end

