-- ==== Sys2Proof/WellFormed.lean ====
section
/-! DEFINITION. Which commands have an encoding. The operand types already keep every index in range (R74);
the one check left is EDIVMOD's: its two destinations differ (spec/30_encoding.md R76, R77). -/

namespace Sys2Proof

/-- The check of R76 that the operand types do not make. -/
def Instr.wellFormed : Instr → Bool
  | .nop => true
  | .pld _ _ => true
  | .pst _ _ => true
  | .xld _ _ => true
  | .xst _ _ => true
  | .xli _ _ => true
  | .eldb _ _ _ => true
  | .estb _ _ => true
  | .copy _ _ => true
  | .pdeg _ _ => true
  | .plead _ _ => true
  | .pisz _ _ => true
  | .piso _ _ => true
  | .pnorm _ _ => true
  | .padd _ _ _ => true
  | .psub _ _ _ => true
  | .pmul _ _ _ => true
  | .fnew _ _ _ _ => true
  | .ezero _ _ => true
  | .eone _ _ => true
  | .enew _ _ _ => true
  | .enorm _ _ => true
  | .eadd _ _ _ => true
  | .esub _ _ _ => true
  | .emul _ _ _ => true
  | .edivmod d c _ _ => decide (d ≠ c)
  | .emod _ _ _ => true
  | .einv _ _ => true
  | .epow _ _ _ => true
  | .eord _ _ => true

end Sys2Proof
end

