-- ==== Sys2Proof/Decode.lean ====
section
/-! DEFINITION. Decoding a command word, total on every word and rejecting by name (spec/30_encoding.md R76,
R77), and after it the encoder (the last sentence of R75) and the machine-readable opcode map. -/

namespace Sys2Proof

/-- Why a word is no command (R76, in the order of its tests). Every one of them makes the engine raise
`IllegalCommand` (R77): safe, since that is the whole effect the spec gives such a word. -/
inductive Reject where
  /-- `op` is none of the thirty values of R75. -/
  | unassignedOpcode
  /-- A field that R75 marks 0, or `z`, is not 0. -/
  | nonzeroField
  /-- A field-slot index is 4 or more. -/
  | fieldSlotRange
  /-- EDIVMOD with `d = c`. -/
  | sameDestinations
  deriving DecidableEq, Repr

/-! ### The fields of a word (R71, R72) -/

/-- `op`, bits 31:24. -/
def opField (w : Word) : BitVec 8 := w.extractLsb' 24 8
/-- `d`, bits 23:20. -/
def dField (w : Word) : BitVec 4 := w.extractLsb' 20 4
/-- `a` of the R format and `f` of the M format, bits 19:16. -/
def aField (w : Word) : BitVec 4 := w.extractLsb' 16 4
/-- `b`, bits 15:12. -/
def bField (w : Word) : BitVec 4 := w.extractLsb' 12 4
/-- `c`, bits 11:8. -/
def cField (w : Word) : BitVec 4 := w.extractLsb' 8 4
/-- `z`, bits 7:0. -/
def zField (w : Word) : BitVec 8 := w.extractLsb' 0 8
/-- `imm`, bits 15:0. -/
def immField (w : Word) : Imm := w.extractLsb' 0 16

/-- A field that indexes P or X (R74). -/
def regIdx (x : BitVec 4) : Fin 16 := x.toFin

/-- The must-be-zero test of R76: `must` says the fields R75 marks 0 are 0. -/
def whenZero (must : Bool) (next : Except Reject Instr) : Except Reject Instr :=
  if must then next else .error .nonzeroField

/-- The field-slot test of R76: continue with the slot, or reject an index of 4 or more. -/
def withSlot (x : BitVec 4) (next : FIdx → Instr) : Except Reject Instr :=
  if h : x.toNat < 4 then .ok (next ⟨x.toNat, h⟩) else .error .fieldSlotRange

/-- The fields `b`, `c` and `z` are all 0. -/
def bczZero (w : Word) : Bool := bField w == 0 && cField w == 0 && zField w == 0
/-- The fields `c` and `z` are both 0. -/
def czZero (w : Word) : Bool := cField w == 0 && zField w == 0
/-- The field `z` is 0. -/
def zZero (w : Word) : Bool := zField w == 0
/-- The field `f` of an M-format word is 0. -/
def fZero (w : Word) : Bool := aField w == 0

/-- Decode a command word (R76). -/
def decode (w : Word) : Except Reject Instr :=
  let d := regIdx (dField w)
  let a := regIdx (aField w)
  let b := regIdx (bField w)
  let c := regIdx (cField w)
  let imm := immField w
  match (opField w).toNat with
  | 0x01 => whenZero (dField w == 0 && aField w == 0 && bczZero w) (.ok .nop)
  | 0x10 => whenZero (fZero w) (.ok (.pld d imm))
  | 0x11 => whenZero (fZero w) (.ok (.pst d imm))
  | 0x12 => whenZero (fZero w) (.ok (.xld d imm))
  | 0x13 => whenZero (fZero w) (.ok (.xst d imm))
  | 0x14 => whenZero (fZero w) (.ok (.xli d imm))
  | 0x15 => withSlot (aField w) fun f => .eldb d f imm
  | 0x16 => whenZero (fZero w) (.ok (.estb d imm))
  | 0x17 => whenZero (bczZero w) (.ok (.copy d a))
  | 0x20 => whenZero (bczZero w) (.ok (.pdeg d a))
  | 0x21 => whenZero (bczZero w) (.ok (.plead d a))
  | 0x22 => whenZero (bczZero w) (.ok (.pisz d a))
  | 0x23 => whenZero (bczZero w) (.ok (.piso d a))
  | 0x24 => whenZero (bczZero w) (.ok (.pnorm d a))
  | 0x30 => whenZero (czZero w) (.ok (.padd d a b))
  | 0x31 => whenZero (czZero w) (.ok (.psub d a b))
  | 0x32 => whenZero (czZero w) (.ok (.pmul d a b))
  | 0x40 => whenZero (zZero w) (withSlot (dField w) fun f => .fnew f a b c)
  | 0x41 => whenZero (bczZero w) (withSlot (aField w) fun f => .ezero d f)
  | 0x42 => whenZero (bczZero w) (withSlot (aField w) fun f => .eone d f)
  | 0x43 => whenZero (czZero w) (withSlot (bField w) fun f => .enew d a f)
  | 0x44 => whenZero (bczZero w) (.ok (.enorm d a))
  | 0x50 => whenZero (czZero w) (.ok (.eadd d a b))
  | 0x51 => whenZero (czZero w) (.ok (.esub d a b))
  | 0x52 => whenZero (czZero w) (.ok (.emul d a b))
  | 0x53 => whenZero (zZero w) (if d = c then .error .sameDestinations else .ok (.edivmod d c a b))
  | 0x54 => whenZero (czZero w) (.ok (.emod d a b))
  | 0x55 => whenZero (bczZero w) (.ok (.einv d a))
  | 0x56 => whenZero (czZero w) (.ok (.epow d a b))
  | 0x57 => whenZero (bczZero w) (.ok (.eord d a))
  | _ => .error .unassignedOpcode

/-! ### The encoder -/

/-- The word of an R-format command, `z = 0` (last sentence of R75). -/
def rWord (op d a b c : Nat) : Word :=
  BitVec.ofNat 32 (op * 2 ^ 24 + d * 2 ^ 20 + a * 2 ^ 16 + b * 2 ^ 12 + c * 2 ^ 8)

/-- The word of an M-format command (last sentence of R75). -/
def mWord (op d f : Nat) (imm : Imm) : Word :=
  BitVec.ofNat 32 (op * 2 ^ 24 + d * 2 ^ 20 + f * 2 ^ 16 + imm.toNat)

/-- The command word of a command, from the operand columns of R75. -/
def encode : Instr → Word
  | .nop => rWord 0x01 0 0 0 0
  | .pld d addr => mWord 0x10 d 0 addr
  | .pst d addr => mWord 0x11 d 0 addr
  | .xld d addr => mWord 0x12 d 0 addr
  | .xst d addr => mWord 0x13 d 0 addr
  | .xli d imm => mWord 0x14 d 0 imm
  | .eldb d f addr => mWord 0x15 d f addr
  | .estb d addr => mWord 0x16 d 0 addr
  | .copy d a => rWord 0x17 d a 0 0
  | .pdeg d a => rWord 0x20 d a 0 0
  | .plead d a => rWord 0x21 d a 0 0
  | .pisz d a => rWord 0x22 d a 0 0
  | .piso d a => rWord 0x23 d a 0 0
  | .pnorm d a => rWord 0x24 d a 0 0
  | .padd d a b => rWord 0x30 d a b 0
  | .psub d a b => rWord 0x31 d a b 0
  | .pmul d a b => rWord 0x32 d a b 0
  | .fnew d a b c => rWord 0x40 d a b c
  | .ezero d a => rWord 0x41 d a 0 0
  | .eone d a => rWord 0x42 d a 0 0
  | .enew d a b => rWord 0x43 d a b 0
  | .enorm d a => rWord 0x44 d a 0 0
  | .eadd d a b => rWord 0x50 d a b 0
  | .esub d a b => rWord 0x51 d a b 0
  | .emul d a b => rWord 0x52 d a b 0
  | .edivmod d c a b => rWord 0x53 d a b c
  | .emod d a b => rWord 0x54 d a b 0
  | .einv d a => rWord 0x55 d a 0 0
  | .epow d a b => rWord 0x56 d a b 0
  | .eord d a => rWord 0x57 d a 0 0

/-- The instruction the decoder reads from a word numbered as spec/opcode_table.json numbers it: one 32-bit word,
bit 0 least significant (R6, R70); the bits at and above `nbits` are 0. -/
def decodeTableWord (nbits w : Nat) : Option Instr :=
  (decode (BitVec.ofNat 32 (w % 2 ^ nbits))).toOption

/-! ### The opcode map -/

/-- A row of spec/opcode_table.json: a word belongs to the row when `word &&& mask = pattern`. -/
def opcodeTable : List (String × Word × Word) :=
  [("NOP", 0x01000000#32, 0xFFFFFFFF#32),
   ("PLD", 0x10000000#32, 0xFF0F0000#32),
   ("PST", 0x11000000#32, 0xFF0F0000#32),
   ("XLD", 0x12000000#32, 0xFF0F0000#32),
   ("XST", 0x13000000#32, 0xFF0F0000#32),
   ("XLI", 0x14000000#32, 0xFF0F0000#32),
   ("ELDB", 0x15000000#32, 0xFF0C0000#32),
   ("ESTB", 0x16000000#32, 0xFF0F0000#32),
   ("COPY", 0x17000000#32, 0xFF00FFFF#32),
   ("PDEG", 0x20000000#32, 0xFF00FFFF#32),
   ("PLEAD", 0x21000000#32, 0xFF00FFFF#32),
   ("PISZ", 0x22000000#32, 0xFF00FFFF#32),
   ("PISO", 0x23000000#32, 0xFF00FFFF#32),
   ("PNORM", 0x24000000#32, 0xFF00FFFF#32),
   ("PADD", 0x30000000#32, 0xFF000FFF#32)] ++
  [("PSUB", 0x31000000#32, 0xFF000FFF#32),
   ("PMUL", 0x32000000#32, 0xFF000FFF#32),
   ("FNEW", 0x40000000#32, 0xFFC000FF#32),
   ("EZERO", 0x41000000#32, 0xFF0CFFFF#32),
   ("EONE", 0x42000000#32, 0xFF0CFFFF#32),
   ("ENEW", 0x43000000#32, 0xFF00CFFF#32),
   ("ENORM", 0x44000000#32, 0xFF00FFFF#32),
   ("EADD", 0x50000000#32, 0xFF000FFF#32),
   ("ESUB", 0x51000000#32, 0xFF000FFF#32),
   ("EMUL", 0x52000000#32, 0xFF000FFF#32),
   ("EDIVMOD", 0x53000000#32, 0xFF0000FF#32),
   ("EMOD", 0x54000000#32, 0xFF000FFF#32),
   ("EINV", 0x55000000#32, 0xFF00FFFF#32),
   ("EPOW", 0x56000000#32, 0xFF000FFF#32),
   ("EORD", 0x57000000#32, 0xFF00FFFF#32)]

/-- The mnemonic of a command, as spec/opcode_table.json and the assembler (R79) spell it. -/
def Instr.mnemonic : Instr → String
  | .nop => "NOP"
  | .pld _ _ => "PLD"
  | .pst _ _ => "PST"
  | .xld _ _ => "XLD"
  | .xst _ _ => "XST"
  | .xli _ _ => "XLI"
  | .eldb _ _ _ => "ELDB"
  | .estb _ _ => "ESTB"
  | .copy _ _ => "COPY"
  | .pdeg _ _ => "PDEG"
  | .plead _ _ => "PLEAD"
  | .pisz _ _ => "PISZ"
  | .piso _ _ => "PISO"
  | .pnorm _ _ => "PNORM"
  | .padd _ _ _ => "PADD"
  | .psub _ _ _ => "PSUB"
  | .pmul _ _ _ => "PMUL"
  | .fnew _ _ _ _ => "FNEW"
  | .ezero _ _ => "EZERO"
  | .eone _ _ => "EONE"
  | .enew _ _ _ => "ENEW"
  | .enorm _ _ => "ENORM"
  | .eadd _ _ _ => "EADD"
  | .esub _ _ _ => "ESUB"
  | .emul _ _ _ => "EMUL"
  | .edivmod _ _ _ _ => "EDIVMOD"
  | .emod _ _ _ => "EMOD"
  | .einv _ _ => "EINV"
  | .epow _ _ _ => "EPOW"
  | .eord _ _ => "EORD"

end Sys2Proof
end

