-- ==== Sys2Proof/Config.lean ====
section
/-! DEFINITION. The block's parameters (spec/00_scope.md R5): "arguments of the model with the default shown".
They are held in `State.cfg`, so that a statement about every state holds for every admissible value (log 3). -/

namespace Sys2Proof

/-- The three sizes R5 leaves to the model. `CSR_BASE`, `OMEM_BASE` and `HOST_ENDIAN` are left out: no rule
depends on them (R5, log 19). -/
structure Config where
  /-- `MAXLEN`: the greatest number of coefficients a polynomial register holds. -/
  maxLen : Nat
  /-- `MEMWORDS`: the number of 32-bit words of OMEM. -/
  memWords : Nat
  /-- `QDEPTH`: the depth of the command queue. -/
  qDepth : Nat
  deriving DecidableEq, Repr

namespace Config

/-- The defaults of R5. -/
def standard : Config := { maxLen := 32, memWords := 65536, qDepth := 16 }

/-- The ranges of R5. -/
abbrev Admissible (c : Config) : Prop :=
  9 ≤ c.maxLen ∧ c.maxLen ≤ 2 ^ 15 ∧ 1 ≤ c.memWords ∧ c.memWords ≤ 65536 ∧ 1 ≤ c.qDepth

/-- `NR`: polynomial registers (R5). -/
def numP : Nat := 16
/-- `NX`: scalar registers (R5). -/
def numX : Nat := 16
/-- `NF`: field slots (R5). -/
def numF : Nat := 4

end Config

end Sys2Proof
end

