-- ==== Sys2Proof/Machine/State.lean ====
section
/-! DEFINITION. The architectural state of the block as plain data (spec/10_state.md R20 to R45), the fault causes
(spec/60_exceptions.md R201), the reasons a step can stop, and the state after reset (R43). -/

namespace Sys2Proof.Machine

/-- The fault causes of R201. A command that meets one TAKES the fault of R205: the step answers a next state. -/
inductive Cause where
  /-- Code 1: the stored vector is malformed. -/
  | invalidPolynomial
  /-- Code 2: reserved, never raised by the block. -/
  | invalidMonomial
  /-- Code 3: reserved, never raised by the block. -/
  | duplicatePower
  /-- Code 4: FNEW. -/
  | invalidModulus
  /-- Code 5: ENEW, ESTB. -/
  | degreeTooLarge
  /-- Code 6: the two source elements carry different slot tags. -/
  | fieldMismatch
  /-- Code 7: division or inversion by zero. -/
  | divisionByZero
  /-- Code 8: EINV, the gcd is not a constant. -/
  | notInvertible
  /-- Code 9: the word is no command. -/
  | illegalCommand
  /-- Code 10: a source register has not been written since reset. -/
  | unwrittenRegister
  /-- Code 11: a source that must be an element has tag NONE. -/
  | notElement
  /-- Code 12: a field slot that does not fit the command. -/
  | invalidField
  /-- Code 13: a raw coefficient, or the order of a field, outside 32 bits. -/
  | overflow
  /-- Code 14: PMUL, more than MAXLEN coefficients. -/
  | capacity
  /-- Code 15: a word address at or above MEMWORDS. -/
  | badAddress
  /-- Code 16: a leading coefficient with no inverse modulo p. -/
  | leadNotUnit
  deriving DecidableEq, Repr

/-- A polynomial register (R21). `unwritten` is the spec's own state of a register (R22), not a missing reset value:
R43 gives it as the reset value and R22 gives reading it an effect (log 9). -/
inductive PReg where
  /-- No command has written the register since reset. -/
  | unwritten
  /-- A coefficient vector: tag `none` is a raw polynomial (NONE), tag `some f` an element of slot `f`. -/
  | held (tag : Option FIdx) (v : Vec)
  deriving DecidableEq, Repr

/-- A scalar register (R23, R24). -/
inductive XReg where
  /-- No command has written the register since reset. -/
  | unwritten
  /-- An integer in `[INT_MIN, INT_MAX]`. -/
  | held (k : Int)
  deriving DecidableEq, Repr

/-- The record a valid field slot holds (R25). The spec's pair `ordok`, `ord` ("absent otherwise") is the one
optional number `ord` (log 18). -/
structure FieldRec where
  /-- The characteristic. -/
  p : Int
  /-- The extension degree. -/
  n : Nat
  /-- The modulus polynomial, reduced modulo `p`, of length `n + 1`. -/
  mod : Vec
  /-- `p^n - 1` when `p^n ≤ INT_MAX` (`ordok`), absent otherwise. -/
  ord : Option Int
  deriving DecidableEq, Repr

/-- `ordok` of R25. -/
def FieldRec.ordok (r : FieldRec) : Bool := r.ord.isSome

/-- A field slot (R25, R26). -/
inductive FSlot where
  /-- Not constructed. -/
  | invalid
  /-- Constructed, and immutable from then on. -/
  | valid (r : FieldRec)
  deriving DecidableEq, Repr

/-- Operand memory (R40): its words by word address, in one canonical form, addresses strictly rising and no entry
equal to `Memory.unlisted`. The block's smallest addressable unit is the 32-bit word (R51, R52; log 2). -/
abbrev Memory := List (Nat × Word)

/-- What an unlisted word reads as. DESIGN CHOICE 0 (log 1): R67 leaves OMEM after a hard reset unspecified. A list can
hold any content, so a statement about every state rests on no value; only one about `State.reset` does. -/
def Memory.unlisted : Word := 0#32

/-- The canonical form of `Memory`. -/
def Memory.wf : Memory → Bool
  | [] => true
  | (a, w) :: m => w != unlisted && m.all (fun e => decide (a < e.1)) && wf m

/-- One access of the host to the block's bus window: CSR offsets and OMEM word indexes (R31, 20_memory.md R60). -/
inductive HostAccess where
  /-- Read the CSR at a word offset. -/
  | readCsr (offset : Nat)
  /-- Write the CSR at a word offset. -/
  | writeCsr (offset : Nat) (w : Word)
  /-- Read a word of OMEM. -/
  | readOmem (index : Nat)
  /-- Write a word of OMEM. -/
  | writeOmem (index : Nat) (w : Word)
  deriving DecidableEq, Repr

/-- Who moves next in the run's one total order of steps (20_memory.md R61; log 4). -/
inductive Turn where
  /-- The engine, if it has a step. -/
  | engine
  /-- The host starts this access. -/
  | host (access : HostAccess)
  deriving DecidableEq, Repr

/-- The reasons a step has no next state. No command raises one: a command's faults are `Cause`s, which it takes. -/
inductive Fault where
  /-- Raised by the engine's step when `Q` is empty and the host has nothing to do: the engine has no step (R41).
  Safe: the spec gives no next state either (log 7). -/
  | idle
  /-- Raised by the engine's step while `FAULT = 1`: the engine has no step until a reset (R207). Safe (log 7). -/
  | stopped
  deriving DecidableEq, Repr

/-- The reasons the model gives no meaning. -/
inductive Refusal where
  /-- Raised by `exec` for an instruction that has no meaning yet; none at present. Safe. -/
  | notModelled (mnemonic : String)
  /-- Raised by a host access to a CSR offset of 8 or more, which is "not part of the block" (R31). Safe (log 8). -/
  | csrOutside
  /-- Raised by a host access to an OMEM index at or above MEMWORDS, of which "this spec says nothing"
  (20_memory.md R60). Safe (log 8). -/
  | omemOutside
  deriving DecidableEq, Repr

/-- The state of the block (R20), its parameters, and the two fields that stand for the host. -/
structure State where
  /-- The parameters of 00_scope.md R5: constant in every run (log 3). -/
  cfg : Config
  /-- P0..P15 (R21). -/
  p : Vector PReg 16
  /-- X0..X15 (R23). -/
  x : Vector XReg 16
  /-- F0..F3 (R25). -/
  f : Vector FSlot 4
  /-- CSEQ, the count of completed commands (R29). -/
  cseq : Word
  /-- STATUS bit 1 (R33). -/
  fault : Bool
  /-- STATUS bit 2 (R33). -/
  done : Bool
  /-- CTRL bit 0 (R34). -/
  fie : Bool
  /-- CTRL bit 1 (R34). -/
  die : Bool
  /-- ECODE bits 4:0 (R35). -/
  ecode : BitVec 5
  /-- ECMD (R36). -/
  ecmd : Word
  /-- ESEQ (R37). -/
  eseq : Word
  /-- The command queue, oldest word first (R41). While a command executes its word is the head (log 15). -/
  q : List Word
  /-- OMEM (R40). -/
  omem : Memory
  /-- The model's own: the turns to come (log 4). -/
  turns : List Turn
  /-- The model's own: the word the host's last completed read returned (log 5). -/
  busRead : Option Word
  deriving DecidableEq, Repr

/-- The AES field, present in F0 after every reset (R27). -/
def aesField : FieldRec := { p := 2, n := 8, mod := [1, 1, 0, 1, 1, 0, 0, 0, 1], ord := some 255 }

/-- The state right after a reset (R43, 70_reset_and_hazards.md R230) for given parameters and a given content of OMEM,
which R67 leaves unspecified: "a model takes the initial OMEM as an arbitrary input". -/
def State.resetWith (cfg : Config) (omem : Memory) : State where
  cfg := cfg
  p := Vector.replicate 16 .unwritten
  x := Vector.replicate 16 .unwritten
  f := (Vector.replicate 4 FSlot.invalid).set 0 (.valid aesField)
  cseq := 0#32
  fault := false
  done := false
  fie := false
  die := false
  ecode := 0#5
  ecmd := 0#32
  eseq := 0#32
  q := []
  omem := omem
  turns := []
  busRead := none

/-- The machine right after reset, with the default parameters and nothing listed in OMEM (logs 1, 3, 6). -/
def State.reset : State := State.resetWith Config.standard []

end Sys2Proof.Machine
end

