-- ==== Sys2Proof/Machine/Ops.lean ====
section
/-! DEFINITION. The named operations over words, memory, registers and the command queue, the completion of a command
(spec/10_state.md R29, R33, R41) and the taking of a fault (spec/60_exceptions.md R205, R206). There is no return from a
fault (R208); the way out is a reset, here too (spec/70_reset_and_hazards.md R230, R231). -/

namespace Sys2Proof.Machine

/-- What a meaning, a step of the engine or a host access answers. -/
abbrev Answer := Host.Outcome State Fault Refusal

/-! ### Words (spec/00_scope.md R7) -/

/-- `s32(w)`: the signed value of a word. -/
def s32 (w : Word) : Int := w.toInt

/-- `word(k)`: the 32-bit two's complement word of an integer. -/
def wordOf (k : Int) : Word := BitVec.ofInt 32 k

/-- The immediate of XLI: `s32(sext_32(imm))` (30_encoding.md R73). -/
def immValue (imm : Imm) : Int := s32 (imm.signExtend 32)

/-- The address of a memory command: `imm`, zero-extended, absolute (30_encoding.md R73). -/
def addrOf (imm : Imm) : Nat := imm.toNat

/-! ### Memory (spec/20_memory.md) -/

/-- `MemRead(a, 4)`. -/
def Memory.read : Memory → Nat → Word
  | [], _ => Memory.unlisted
  | (b, w) :: m, a => if b = a then w else Memory.read m a

/-- `MemWrite(a, 4, w)`, keeping the canonical form. -/
def Memory.write : Memory → Nat → Word → Memory
  | [], a, w => if w = Memory.unlisted then [] else [(a, w)]
  | (b, v) :: m, a, w =>
    if a < b then (if w = Memory.unlisted then (b, v) :: m else (a, w) :: (b, v) :: m)
    else if a = b then (if w = Memory.unlisted then m else (a, w) :: m)
    else (b, v) :: Memory.write m a w

/-- Consecutive words written from address `a` up. -/
def Memory.writeList : Memory → Nat → List Word → Memory
  | m, _, [] => m
  | m, a, w :: ws => Memory.writeList (Memory.write m a w) (a + 1) ws

/-- `len` consecutive words read from address `a` up. -/
def Memory.readList (m : Memory) (a len : Nat) : List Word :=
  (List.range len).map fun i => Memory.read m (a + i)

/-! ### Faults -/

/-- The fault codes of R201. -/
def Cause.code : Cause → BitVec 5
  | .invalidPolynomial => 1
  | .invalidMonomial => 2
  | .duplicatePower => 3
  | .invalidModulus => 4
  | .degreeTooLarge => 5
  | .fieldMismatch => 6
  | .divisionByZero => 7
  | .notInvertible => 8
  | .illegalCommand => 9
  | .unwrittenRegister => 10
  | .notElement => 11
  | .invalidField => 12
  | .overflow => 13
  | .capacity => 14
  | .badAddress => 15
  | .leadNotUnit => 16

/-- The source's classes of error, kept as classes of fault (R210). -/
inductive CauseClass where
  /-- Malformed input. -/
  | parseTime
  /-- Field or element validity. -/
  | constructionTime
  /-- A precondition violation. -/
  | programmerError
  /-- Arithmetic. -/
  | arithmetic
  /-- Address. -/
  | address
  deriving DecidableEq, Repr

/-- The class of a cause (R210): it "only tells the host what kind of mistake was made". -/
def Cause.errorClass : Cause → CauseClass
  | .invalidPolynomial => .parseTime
  | .invalidMonomial => .parseTime
  | .duplicatePower => .parseTime
  | .invalidModulus => .constructionTime
  | .degreeTooLarge => .constructionTime
  | .invalidField => .constructionTime
  | .fieldMismatch => .programmerError
  | .illegalCommand => .programmerError
  | .unwrittenRegister => .programmerError
  | .notElement => .programmerError
  | .divisionByZero => .arithmetic
  | .notInvertible => .arithmetic
  | .overflow => .arithmetic
  | .capacity => .arithmetic
  | .leadNotUnit => .arithmetic
  | .badAddress => .address

/-- `if c: raise cause` of the pseudocode (R16). -/
def raiseIf (c : Prop) [Decidable c] (cause : Cause) : Except Cause Unit :=
  if c then .error cause else .ok ()

/-- The oldest word of `Q`, the command being executed (R41; log 15). -/
def State.commandWord (s : State) : Word := s.q.headD 0#32

/-- Fault entry (R205), applied to the state the command started from, so that none of its writes is kept (R206). -/
def State.takeFault (s : State) (cause : Cause) : State :=
  { s with
    ecode := if s.fault then s.ecode else cause.code
    ecmd := if s.fault then s.ecmd else s.commandWord
    eseq := if s.fault then s.eseq else s.cseq
    fault := true
    q := []
    done := true }

/-- The completion of a command: its word leaves `Q` (R41), `DONE` is set if that leaves `Q` empty (R33), and
`CSEQ` counts it (R29). DEDUCED for NOP: R33 is followed there too, against the example of 48_system.md R190
(log 20). -/
def State.complete (s : State) : State :=
  { s with
    q := s.q.tail
    done := s.done || s.q.tail.isEmpty
    cseq := s.cseq + 1#32 }

/-- How every command ends: with its writes kept and counted, or with the fault it raised taken in the state `s` it
started from. -/
def finish (s : State) : Except Cause State → Answer
  | .ok t => .next t.complete
  | .error cause => .next (s.takeFault cause)

/-! ### Writing registers, slots and memory -/

/-- `P[i] <- (tag, v)`. -/
def State.writeP (s : State) (i : PIdx) (tag : Option FIdx) (v : Vec) : State :=
  { s with p := s.p.set i.val (.held tag v) i.isLt }

/-- `X[i] <- k`. -/
def State.writeX (s : State) (i : XIdx) (k : Int) : State :=
  { s with x := s.x.set i.val (.held k) i.isLt }

/-- `F[i] <- r`. -/
def State.writeF (s : State) (i : FIdx) (r : FieldRec) : State :=
  { s with f := s.f.set i.val (.valid r) i.isLt }

/-- Consecutive words of OMEM written from address `a` up. -/
def State.store (s : State) (a : Nat) (ws : List Word) : State :=
  { s with omem := Memory.writeList s.omem a ws }

/-- The address check of R54 for the word address `a`. -/
def State.checkAddr (s : State) (a : Nat) : Except Cause Unit :=
  raiseIf (s.cfg.memWords ≤ a) .badAddress

/-! ### Reset -/

/-- Soft reset (R231): a hard reset that keeps OMEM. The host's side goes on. -/
def State.softReset (s : State) : State :=
  { State.resetWith s.cfg s.omem with turns := s.turns, busRead := s.busRead }

/-- Hard reset (R230): every word of OMEM is unspecified afterwards, so its content `omem` is an argument. It is "not a
step inside a run: a run starts from a reset state" (log 17). -/
def State.hardReset (s : State) (omem : Memory) : State := State.resetWith s.cfg omem

end Sys2Proof.Machine
end

