-- ==== Sys2Proof/Machine/Operands.lean ====
section
/-! DEFINITION. Reading operands: every operand form a command has (spec/30_encoding.md R71 to R75), with the faults a
read can raise (spec/10_state.md R22, R24, R26; spec/43_field.md R141). -/

namespace Sys2Proof.Machine

/-- `(t, v) <- P[i]`: tag and vector, or `UnwrittenRegister` (R22). -/
def State.readP (s : State) (i : PIdx) : Except Cause (Option FIdx × Vec) :=
  match s.p[i] with
  | .unwritten => .error .unwrittenRegister
  | .held tag v => .ok (tag, v)

/-- The vector of `P[i]`, for the P-commands, which ignore the tag (R110, R120). -/
def State.readVec (s : State) (i : PIdx) : Except Cause Vec :=
  match s.p[i] with
  | .unwritten => .error .unwrittenRegister
  | .held _ v => .ok v

/-- `X[i]`, or `UnwrittenRegister` (R24). -/
def State.readX (s : State) (i : XIdx) : Except Cause Int :=
  match s.x[i] with
  | .unwritten => .error .unwrittenRegister
  | .held k => .ok k

/-- `F[i]`, or `InvalidField`: "the reads `P[i]`, `X[i]`, `F[f]` in pseudocode include that check" (R16, R26). -/
def State.readF (s : State) (i : FIdx) : Except Cause FieldRec :=
  match s.f[i] with
  | .invalid => .error .invalidField
  | .valid r => .ok r

/-- The slot of an element's tag, or `NotElement` (R141). -/
def elementTag : Option FIdx → Except Cause FIdx
  | none => .error .notElement
  | some f => .ok f

/-- `elems(a)` of R141. -/
def State.elems1 (s : State) (a : PIdx) : Except Cause (FIdx × Vec) := do
  let (ta, u) ← s.readP a
  let t ← elementTag ta
  return (t, u)

/-- `elems(a, b)` of R141: first every read, then every `NotElement` test, in operand order, then `FieldMismatch`. -/
def State.elems2 (s : State) (a b : PIdx) : Except Cause (FIdx × Vec × Vec) := do
  let (ta, u) ← s.readP a
  let (tb, w) ← s.readP b
  let t ← elementTag ta
  let t' ← elementTag tb
  raiseIf (t ≠ t') .fieldMismatch
  return (t, u, w)

end Sys2Proof.Machine
end

