-- ==== Sys2Proof/Machine/Vec.lean ====
section
/-! DEFINITION. The primitives on coefficient vectors (spec/00_scope.md R8 to R14) and exact arithmetic on them
(spec/42_poly_arith.md R121 to R124; spec/43_field.md R131). A vector has at least one entry (R9); what these functions
answer for the empty list is the model's own and is reached in no run (log 11). -/

namespace Sys2Proof.Machine

/-- `cmod(c, p)` for `p ≥ 2`: the remainder in `[0, p)` (R8). -/
def cmod (c p : Int) : Int := c % p

/-- `co(v, i)`: the coefficient at index `i`, 0 outside (R9). -/
def co (v : Vec) (i : Nat) : Int := v.getD i 0

/-- `co(v, i - k)`, the coefficient at `i` of `x^k · v`: 0 for `i < k` (R9, R157). -/
def shiftCo (v : Vec) (k i : Nat) : Int := if i < k then 0 else co v (i - k)

/-- `iszero(v)` (R10). -/
def iszero (v : Vec) : Bool := v.all fun c => c == 0

/-- `isone(v)` (R10). -/
def isone : Vec → Bool
  | [] => false
  | c :: cs => c == 1 && iszero cs

/-- `Degree(v)`: the greatest index of a non-zero entry, 0 for the zero polynomial (R11). -/
def degree : Vec → Nat
  | [] => 0
  | _ :: cs => if iszero cs then 0 else degree cs + 1

/-- `degm(v)`: -1 for the zero polynomial, `Degree(v)` otherwise (R12). -/
def degm (v : Vec) : Int := if iszero v then -1 else degree v

/-- `Lead(v)` (R13). -/
def lead (v : Vec) : Int := co v (degree v)

/-- `trim(v)` (R14). -/
def trim (v : Vec) : Vec := v.take (degree v + 1)

/-- `enorm(p, v)`, the field element normalizer (R131): reduce every coefficient, then trim. -/
def enorm (p : Int) (v : Vec) : Vec := trim (v.map fun c => cmod c p)

/-- The first `len` coefficients of a coefficient-wise sum. -/
def sumVec (len : Nat) (u w : Vec) : Vec := (List.range len).map fun i => co u i + co w i

/-- The first `len` coefficients of a coefficient-wise difference. -/
def diffVec (len : Nat) (u w : Vec) : Vec := (List.range len).map fun i => co u i - co w i

/-- `r`, or `Overflow` when a coefficient cannot be stored (R120). -/
def rangeChecked (r : Vec) : Except Cause Vec :=
  if ∀ c ∈ r, InRange c then .ok r else .error .overflow

/-- `padd(u, w)`: not trimmed (R121). -/
def padd (u w : Vec) : Except Cause Vec := rangeChecked (sumVec (max (degree u) (degree w) + 1) u w)

/-- `psub(u, w)`: trimmed (R122). -/
def psub (u w : Vec) : Except Cause Vec := do
  let r ← rangeChecked (diffVec (max (degree u) (degree w) + 1) u w)
  return trim r

/-- Coefficient `k` of the convolution of two vectors. -/
def convCo (u w : Vec) (k : Nat) : Int := ((List.range (k + 1)).map fun i => co u i * co w (k - i)).sum

/-- `pmul_exact(u, w)`: schoolbook convolution, exact (R123). -/
def pmulExact (u w : Vec) : Vec :=
  if iszero u || iszero w then [0] else (List.range (degree u + degree w + 1)).map (convCo u w)

/-- The function of PMUL (R124): the zero short cut, then `Capacity`, then `Overflow`. -/
def pmul (maxLen : Nat) (u w : Vec) : Except Cause Vec :=
  if iszero u || iszero w then .ok [0]
  else if maxLen < degree u + degree w + 1 then .error .capacity
  else rangeChecked (pmulExact u w)

end Sys2Proof.Machine
end

