-- ==== Sys2Proof/Machine/DataMovement.lean ====
section
/-! DEFINITION. The data movement family (spec/40_data_movement.md R90 to R98) and the data layouts it moves
(spec/20_memory.md R55 to R57). -/

namespace Sys2Proof.Machine

/-! ### Layouts -/

/-- The words of a coefficient vector in OMEM (R55): its length, then its coefficients. -/
def vectorWords (v : Vec) : List Word := BitVec.ofNat 32 v.length :: v.map wordOf

/-- The coefficients of `len` words from address `a` up (R55). -/
def loadCoeffs (m : Memory) (a len : Nat) : Vec := (Memory.readList m a len).map s32

/-- The element of a packed byte (R56, R96). -/
def byteElement (w : Word) : Vec := trim ((List.range 8).map fun i => if w.getLsbD i then 1 else 0)

/-- The packed byte of an element, as the word that holds it (R56, R97). -/
def byteWord (v : Vec) : Word := wordOf (((List.range 8).map fun i => co v i * 2 ^ i).sum)

/-- The fields that have the packed format: `p = 2` and `n = 8` (R56). -/
abbrev FieldRec.IsByteField (r : FieldRec) : Prop := r.p = 2 ∧ r.n = 8

/-! ### Commands -/

/-- PLD (R91). -/
def execPld (d : PIdx) (addr : Imm) (s : State) : Answer :=
  finish s do
    let a := addrOf addr
    s.checkAddr a
    let len := s32 (Memory.read s.omem a)
    raiseIf (len < 1 ∨ (s.cfg.maxLen : Int) < len) .invalidPolynomial
    s.checkAddr (a + len.toNat)
    return s.writeP d none (loadCoeffs s.omem (a + 1) len.toNat)

/-- PST (R92). -/
def execPst (d : PIdx) (addr : Imm) (s : State) : Answer :=
  finish s do
    let v ← s.readVec d
    let a := addrOf addr
    s.checkAddr (a + v.length)
    return s.store a (vectorWords v)

/-- XLD (R93). -/
def execXld (d : XIdx) (addr : Imm) (s : State) : Answer :=
  finish s do
    let a := addrOf addr
    s.checkAddr a
    return s.writeX d (s32 (Memory.read s.omem a))

/-- XST (R94). -/
def execXst (d : XIdx) (addr : Imm) (s : State) : Answer :=
  finish s do
    let k ← s.readX d
    let a := addrOf addr
    s.checkAddr a
    return s.store a [wordOf k]

/-- XLI (R95). -/
def execXli (d : XIdx) (imm : Imm) (s : State) : Answer :=
  finish s (.ok (s.writeX d (immValue imm)))

/-- ELDB (R96). -/
def execEldb (d : PIdx) (f : FIdx) (addr : Imm) (s : State) : Answer :=
  finish s do
    let r ← s.readF f
    raiseIf (¬ r.IsByteField) .invalidField
    let a := addrOf addr
    s.checkAddr a
    let w := Memory.read s.omem a
    raiseIf (w.extractLsb' 8 24 ≠ 0#24) .invalidPolynomial
    return s.writeP d (some f) (byteElement w)

/-- ESTB (R97). -/
def execEstb (d : PIdx) (addr : Imm) (s : State) : Answer :=
  finish s do
    let (t, v) ← s.elems1 d
    let r ← s.readF t
    raiseIf (¬ r.IsByteField) .invalidField
    raiseIf (7 < degree v) .degreeTooLarge
    let a := addrOf addr
    s.checkAddr a
    return s.store a [byteWord v]

/-- COPY (R98). -/
def execCopy (d a : PIdx) (s : State) : Answer :=
  finish s do
    let (t, v) ← s.readP a
    return s.writeP d t v

end Sys2Proof.Machine
end

