-- ==== Sys2Proof/Machine/FieldArith.lean ====
section
/-! DEFINITION. The functions of the element commands: `eadd`, `esub`, `emul` (spec/44_element_addsubmul.md R146, R149),
`inv_p`, `divmod` (spec/45_element_divmod.md R156, R157), `einv` (spec/46_element_inverse.md R171), `epow`, `eord`
(spec/47_element_pow_order.md R182, R184). Each loop carries a bound on its passes that the spec gives for it (R241;
log 11). -/

namespace Sys2Proof.Machine

/-- The field record FNEW stores (R133, R135). -/
def mkField (p : Int) (n : Nat) (mod : Vec) : FieldRec where
  p := p
  n := n
  mod := mod
  ord := if p ^ n ≤ intMax then some (p ^ n - 1) else none

/-! ### Addition and subtraction -/

/-- `eadd(Fd, u, w)` (R146). -/
def eadd (fd : FieldRec) (u w : Vec) : Vec := enorm fd.p (sumVec (max u.length w.length) u w)

/-- `esub(Fd, u, w)` (R146). -/
def esub (fd : FieldRec) (u w : Vec) : Vec := enorm fd.p (diffVec (max u.length w.length) u w)

/-! ### The coefficient inverter -/

/-- Euclid's extended algorithm with at most `fuel` divisions: `(g, x, y)` with `g = x·a + y·b`. -/
def xgcdLoop : Nat → Int → Int → Int × Int × Int
  | 0, a, _ => (a, 1, 0)
  | fuel + 1, a, b =>
    if b = 0 then (a, 1, 0)
    else
      match xgcdLoop fuel b (a % b) with
      | (g, x, y) => (g, y, x - (a / b) * y)

/-- `extendedGcd(a, b)` for `a, b ≥ 0`, the collaborator of R156, specified only at its interface: this algorithm is
the model's (log 13). The second operand falls at every division, so `b + 1` of them suffice. -/
def extendedGcd (a b : Int) : Int × Int × Int := xgcdLoop (b.toNat + 1) a b

/-- `inv_p(p, c)` (R156). -/
def invP (p c : Int) : Except Cause Int :=
  match extendedGcd (cmod c p) p with
  | (g, x, _) => if g = 1 then .ok (cmod x p) else .error .leadNotUnit

/-! ### Division -/

/-- One pass of the loop of R157: the next quotient coefficient and the remainder after it. -/
def divPass (p : Int) (b : Vec) (u : Int) (q r : Vec) : Vec × Vec :=
  let k := (degm r - degm b).toNat
  let t := cmod (lead r * u) p
  (q.set k t, enorm p ((List.range r.length).map fun i => co r i - t * shiftCo b k i))

/-- The loop of R157 with at most `fuel` passes. -/
def divLoop (p : Int) (b : Vec) (u : Int) : Nat → Vec → Vec → Vec × Vec
  | 0, q, r => (q, r)
  | fuel + 1, q, r =>
    if iszero r = false ∧ degm b ≤ degm r then
      match divPass p b u q r with
      | (q', r') => divLoop p b u fuel q' r'
    else (q, r)

/-- `divmod(Fd, a, b)` (R157; the special case R159): at most `degm(a) - degm(b) + 1` passes. -/
def divmod (fd : FieldRec) (a b : Vec) : Except Cause (Vec × Vec) :=
  if isone b then .ok (a, [0])
  else if iszero b then .error .divisionByZero
  else if degm a < degm b then .ok ([0], a)
  else do
    let u ← invP fd.p (lead b)
    let passes := (degm a - degm b + 1).toNat
    match divLoop fd.p b u passes (List.replicate passes 0) a with
    | (q, r) => return (enorm fd.p q, r)

/-! ### Multiplication -/

/-- `emul(Fd, u, w)` (R149). -/
def emul (fd : FieldRec) (u w : Vec) : Except Cause Vec := do
  let (_, r) ← divmod fd (enorm fd.p (pmulExact u w)) fd.mod
  return r

/-! ### Inversion -/

/-- The variables of the loop of R171. -/
structure EuclidVars where
  a : Vec
  b : Vec
  x0 : Vec
  x1 : Vec
  y0 : Vec
  y1 : Vec
  deriving DecidableEq, Repr

/-- One pass of the loop of R171. -/
def einvPass (fd : FieldRec) (e : EuclidVars) : Except Cause EuclidVars := do
  let (q, r) ← divmod fd e.a e.b
  let qx ← emul fd q e.x1
  let qy ← emul fd q e.y1
  return { a := e.b, b := r, x0 := e.x1, x1 := esub fd e.x0 qx, y0 := e.y1, y1 := esub fd e.y0 qy }

/-- The loop of R171 with at most `fuel` passes. -/
def einvLoop (fd : FieldRec) : Nat → EuclidVars → Except Cause EuclidVars
  | 0, e => .ok e
  | fuel + 1, e =>
    if iszero e.b then .ok e
    else do
      let e' ← einvPass fd e
      einvLoop fd fuel e'

/-- `einv(Fd, e)` (R171): at most `n + 1` passes. -/
def einv (fd : FieldRec) (e : Vec) : Except Cause Vec :=
  if iszero e then .error .divisionByZero
  else do
    let r ← einvLoop fd (fd.n + 1) { a := fd.mod, b := e, x0 := [1], x1 := [0], y0 := [0], y1 := [1] }
    raiseIf (degm r.a ≠ 0) .notInvertible
    let g ← invP fd.p (co r.a 0)
    emul fd [g] r.y0

/-! ### Power and order -/

/-- `repeat k times: r <- emul(Fd, r, u)` (R182). -/
def epowLoop (fd : FieldRec) (u : Vec) : Nat → Vec → Except Cause Vec
  | 0, r => .ok r
  | k + 1, r =>
    match emul fd r u with
    | .ok r' => epowLoop fd u k r'
    | .error c => .error c

/-- The reduced exponent of R182. -/
def reducedExponent (ord e : Int) : Nat := if 2 ≤ ord then (cmod e ord).toNat else 0

/-- `epow(Fd, u, e)` for a field of order `ord` (R182). -/
def epow (fd : FieldRec) (ord : Int) (u : Vec) (e : Int) : Except Cause Vec :=
  epowLoop fd u (reducedExponent ord e) [1]

/-- The loop of R184 with `fuel` passes left: `r` is the `k`-fold product. -/
def eordLoop (fd : FieldRec) (u : Vec) : Nat → Nat → Vec → Except Cause Int
  | 0, _, _ => .ok 0
  | fuel + 1, k, r =>
    if isone r then .ok k
    else
      match emul fd r u with
      | .ok r' => eordLoop fd u fuel (k + 1) r'
      | .error c => .error c

/-- `eord(Fd, u)` for a field of order `ord` (R184): passes for `k = 1 .. ord`. -/
def eord (fd : FieldRec) (ord : Int) (u : Vec) : Except Cause Int :=
  if iszero u then .ok 0
  else do
    let r ← emul fd [1] u
    eordLoop fd u ord.toNat 1 r

end Sys2Proof.Machine
end

