-- ==== Sys2Proof/Machine/ElementAddSubMul.lean ====
section
/-! DEFINITION. Field element addition, subtraction and multiplication (spec/44_element_addsubmul.md R145 to R150), and
the shape they share with EMOD (spec/45_element_divmod.md R155). -/

namespace Sys2Proof.Machine

/-- Two elements of one slot in, one element of that slot out (R145, R155). -/
def elementBinary (d a b : PIdx) (f : FieldRec → Vec → Vec → Except Cause Vec) (s : State) : Answer :=
  finish s do
    let (t, u, w) ← s.elems2 a b
    let fd ← s.readF t
    let r ← f fd u w
    return s.writeP d (some t) r

/-- EADD (R147). -/
def execEadd (d a b : PIdx) (s : State) : Answer := elementBinary d a b (fun fd u w => .ok (eadd fd u w)) s

/-- ESUB (R148). -/
def execEsub (d a b : PIdx) (s : State) : Answer := elementBinary d a b (fun fd u w => .ok (esub fd u w)) s

/-- EMUL (R150). -/
def execEmul (d a b : PIdx) (s : State) : Answer := elementBinary d a b emul s

end Sys2Proof.Machine
end

