-- ==== Sys2Proof/Machine/ElementDivMod.lean ====
section
/-! DEFINITION. Division with remainder (spec/45_element_divmod.md R155 to R161). -/

namespace Sys2Proof.Machine

/-- EDIVMOD (R160). A word with `d = c` does not decode; the command itself raises `IllegalCommand` there, as R160's list
of faults says (log 14). Both destinations are written or neither. -/
def execEdivmod (d c a b : PIdx) (s : State) : Answer :=
  finish s do
    raiseIf (d = c) .illegalCommand
    let (t, u, w) ← s.elems2 a b
    let fd ← s.readF t
    let (q, r) ← divmod fd u w
    return (s.writeP d (some t) q).writeP c (some t) r

/-- The remainder alone: "second return of `Divide`" (R161). -/
def remainder (fd : FieldRec) (u w : Vec) : Except Cause Vec := do
  let (_, r) ← divmod fd u w
  return r

/-- EMOD (R161). -/
def execEmod (d a b : PIdx) (s : State) : Answer := elementBinary d a b remainder s

end Sys2Proof.Machine
end

