-- ==== Sys2Proof/Machine/ElementInverse.lean ====
section
/-! DEFINITION. Multiplicative inversion (spec/46_element_inverse.md R170 to R172). -/

namespace Sys2Proof.Machine

/-- EINV (R172). -/
def execEinv (d a : PIdx) (s : State) : Answer :=
  finish s do
    let (t, e) ← s.elems1 a
    let fd ← s.readF t
    let r ← einv fd e
    return s.writeP d (some t) r

end Sys2Proof.Machine
end

