-- ==== Sys2Proof/Machine/ElementPowOrder.lean ====
section
/-! DEFINITION. Exponentiation and element order (spec/47_element_pow_order.md R180 to R184). -/

namespace Sys2Proof.Machine

/-- `F[t].ord`, or `Overflow` when not `ordok` (R181, R183). -/
def slotOrder (fd : FieldRec) : Except Cause Int :=
  match fd.ord with
  | none => .error .overflow
  | some k => .ok k

/-- EPOW (R181): both sources are read before the `NotElement` test. -/
def execEpow (d a : PIdx) (b : XIdx) (s : State) : Answer :=
  finish s do
    let (ta, u) ← s.readP a
    let e ← s.readX b
    let t ← elementTag ta
    let fd ← s.readF t
    let ord ← slotOrder fd
    let r ← epow fd ord u e
    return s.writeP d (some t) r

/-- EORD (R183). -/
def execEord (d : XIdx) (a : PIdx) (s : State) : Answer :=
  finish s do
    let (t, u) ← s.elems1 a
    let fd ← s.readF t
    let ord ← slotOrder fd
    let k ← eord fd ord u
    return s.writeX d k

end Sys2Proof.Machine
end

