-- ==== Sys2Proof/Machine/FieldCommands.lean ====
section
/-! DEFINITION. Field construction, identities and the element normalizer (spec/43_field.md R130 to R141). -/

namespace Sys2Proof.Machine

/-- FNEW (R133). -/
def execFnew (d : FIdx) (a b : XIdx) (c : PIdx) (s : State) : Answer :=
  finish s do
    let p ← s.readX a
    let n ← s.readX b
    let m ← s.readVec c
    raiseIf (s.f[d] ≠ .invalid) .invalidField
    raiseIf (p < 2) .invalidField
    raiseIf (n < 1 ∨ (degree m : Int) ≠ n) .invalidModulus
    let mod := enorm p m
    raiseIf (iszero mod ∨ (degree mod : Int) ≠ n) .invalidModulus
    return s.writeF d (mkField p n.toNat mod)

/-- EZERO (R136). -/
def execEzero (d : PIdx) (a : FIdx) (s : State) : Answer :=
  finish s do
    let _ ← s.readF a
    return s.writeP d (some a) [0]

/-- EONE (R137). -/
def execEone (d : PIdx) (a : FIdx) (s : State) : Answer :=
  finish s do
    let _ ← s.readF a
    return s.writeP d (some a) [1]

/-- ENEW (R138). -/
def execEnew (d a : PIdx) (b : FIdx) (s : State) : Answer :=
  finish s do
    let v ← s.readVec a
    let r ← s.readF b
    raiseIf (r.n < degree v) .degreeTooLarge
    return s.writeP d (some b) (enorm r.p v)

/-- ENORM (R140). -/
def execEnorm (d a : PIdx) (s : State) : Answer :=
  finish s do
    let (t, v) ← s.elems1 a
    let r ← s.readF t
    return s.writeP d (some t) (enorm r.p v)

end Sys2Proof.Machine
end

