-- ==== Sys2Proof/Machine/PolyArith.lean ====
section
/-! DEFINITION. Raw polynomial arithmetic over the integers (spec/42_poly_arith.md R120 to R124). -/

namespace Sys2Proof.Machine

/-- The shape of the family (R120): a raw polynomial computed from the vectors of `P[a]` and `P[b]`. -/
def rawBinary (d a b : PIdx) (f : Vec → Vec → Except Cause Vec) (s : State) : Answer :=
  finish s do
    let u ← s.readVec a
    let w ← s.readVec b
    let r ← f u w
    return s.writeP d none r

/-- PADD (R121). -/
def execPadd (d a b : PIdx) (s : State) : Answer := rawBinary d a b padd s

/-- PSUB (R122). -/
def execPsub (d a b : PIdx) (s : State) : Answer := rawBinary d a b psub s

/-- PMUL (R124). -/
def execPmul (d a b : PIdx) (s : State) : Answer := rawBinary d a b (pmul s.cfg.maxLen) s

end Sys2Proof.Machine
end

