-- ==== Sys2Proof/Machine/PolyQuery.lean ====
section
/-! DEFINITION. The queries and the trimmer (spec/41_poly_query_normalize.md R110 to R115). -/

namespace Sys2Proof.Machine

/-- The shape of the four queries (R110): a scalar computed from the vector of `P[a]`. -/
def query (d : XIdx) (a : PIdx) (f : Vec → Int) (s : State) : Answer :=
  finish s do
    let v ← s.readVec a
    return s.writeX d (f v)

/-- PDEG (R111). -/
def execPdeg (d : XIdx) (a : PIdx) (s : State) : Answer := query d a (fun v => degree v) s

/-- PLEAD (R112). -/
def execPlead (d : XIdx) (a : PIdx) (s : State) : Answer := query d a lead s

/-- PISZ (R113). -/
def execPisz (d : XIdx) (a : PIdx) (s : State) : Answer := query d a (fun v => if iszero v then 1 else 0) s

/-- PISO (R114). -/
def execPiso (d : XIdx) (a : PIdx) (s : State) : Answer := query d a (fun v => if isone v then 1 else 0) s

/-- PNORM (R115). -/
def execPnorm (d a : PIdx) (s : State) : Answer :=
  finish s do
    let v ← s.readVec a
    return s.writeP d none (trim v)

end Sys2Proof.Machine
end

