-- ==== Sys2Proof/Machine/System.lean ====
section
/-! DEFINITION. The system family (spec/48_system.md): NOP. The command set has no control transfer and no privileged
command (R191, R192). -/

namespace Sys2Proof.Machine

/-- NOP (R190). Like every command it sets `DONE` when it empties `Q` (log 20). -/
def execNop (s : State) : Answer := finish s (.ok s)

end Sys2Proof.Machine
end

