-- ==== Sys2Proof/Machine/Dispatch.lean ====
section
/-! DEFINITION. One arm per command: the command at the head of `Q` executed whole (spec/30_encoding.md R76, last line of
the pseudocode; spec/10_state.md R41). -/

namespace Sys2Proof.Machine

def exec (i : Instr) (s : State) : Host.Outcome State Fault Refusal :=
  match i with
  | .nop => Sys2Proof.Machine.execNop s
  | .pld d addr => Sys2Proof.Machine.execPld d addr s
  | .pst d addr => Sys2Proof.Machine.execPst d addr s
  | .xld d addr => Sys2Proof.Machine.execXld d addr s
  | .xst d addr => Sys2Proof.Machine.execXst d addr s
  | .xli d imm => Sys2Proof.Machine.execXli d imm s
  | .eldb d f addr => Sys2Proof.Machine.execEldb d f addr s
  | .estb d addr => Sys2Proof.Machine.execEstb d addr s
  | .copy d a => Sys2Proof.Machine.execCopy d a s
  | .pdeg d a => Sys2Proof.Machine.execPdeg d a s
  | .plead d a => Sys2Proof.Machine.execPlead d a s
  | .pisz d a => Sys2Proof.Machine.execPisz d a s
  | .piso d a => Sys2Proof.Machine.execPiso d a s
  | .pnorm d a => Sys2Proof.Machine.execPnorm d a s
  | .padd d a b => Sys2Proof.Machine.execPadd d a b s
  | .psub d a b => Sys2Proof.Machine.execPsub d a b s
  | .pmul d a b => Sys2Proof.Machine.execPmul d a b s
  | .fnew d a b c => Sys2Proof.Machine.execFnew d a b c s
  | .ezero d a => Sys2Proof.Machine.execEzero d a s
  | .eone d a => Sys2Proof.Machine.execEone d a s
  | .enew d a b => Sys2Proof.Machine.execEnew d a b s
  | .enorm d a => Sys2Proof.Machine.execEnorm d a s
  | .eadd d a b => Sys2Proof.Machine.execEadd d a b s
  | .esub d a b => Sys2Proof.Machine.execEsub d a b s
  | .emul d a b => Sys2Proof.Machine.execEmul d a b s
  | .edivmod d c a b => Sys2Proof.Machine.execEdivmod d c a b s
  | .emod d a b => Sys2Proof.Machine.execEmod d a b s
  | .einv d a => Sys2Proof.Machine.execEinv d a s
  | .epow d a b => Sys2Proof.Machine.execEpow d a b s
  | .eord d a => Sys2Proof.Machine.execEord d a s

end Sys2Proof.Machine
end

