-- ==== Sys2Proof/Machine/Flags.lean ====
section
/-! DEFINITION. The block has no arithmetic flags (spec/10_state.md R30). Its status and control bits, the words the CSRs
read as (R33 to R39) and the interrupt line (spec/60_exceptions.md R215). -/

namespace Sys2Proof.Machine

/-- `BUSY`: 1 exactly when `Q` is not empty (R33); computed, not state. -/
def State.busy (s : State) : Bool := !s.q.isEmpty

/-- A Boolean as bit `i` of a word. -/
def bitAt (i : Nat) (b : Bool) : Word := if b then 1#32 <<< i else 0#32

/-- STATUS (R33). -/
def State.statusWord (s : State) : Word := bitAt 0 s.busy ||| bitAt 1 s.fault ||| bitAt 2 s.done

/-- CTRL as it reads (R34): bit 31 reads 0. -/
def State.ctrlWord (s : State) : Word := bitAt 0 s.fie ||| bitAt 1 s.die

/-- ECODE as it reads (R35): bits 31:5 are 0. -/
def State.ecodeWord (s : State) : Word := s.ecode.setWidth 32

/-- PARAM (R39). -/
def Config.paramWord (c : Config) : Word :=
  BitVec.ofNat 32
    (Config.numP + Config.numX * 2 ^ 8 + Config.numF * 2 ^ 16 +
      (if c.maxLen ≤ 4096 then c.maxLen - 1 else 0xFFF) * 2 ^ 20)

/-- The level-sensitive interrupt output (R215). -/
def State.irq (s : State) : Bool := (s.fault && s.fie) || (s.done && s.die)

end Sys2Proof.Machine
end

