-- ==== Sys2Proof/Machine/HostBus.lean ====
section
/-! DEFINITION. The host's accesses to the block (spec/10_state.md R31 to R39; spec/20_memory.md R60). -/

namespace Sys2Proof.Machine

/-- The eight control and status registers (R31). -/
inductive Csr where
  /-- Offset 0, write-only. -/
  | cmd
  /-- Offset 1. -/
  | status
  /-- Offset 2. -/
  | ctrl
  /-- Offset 3, read-only. -/
  | ecode
  /-- Offset 4, read-only. -/
  | ecmd
  /-- Offset 5, read-only. -/
  | eseq
  /-- Offset 6, read-only. -/
  | cseq
  /-- Offset 7, read-only. -/
  | param
  deriving DecidableEq, Repr

/-- The CSR at a word offset; "offsets 8 and above are not part of the block" (R31). -/
def csrAt : Nat → Option Csr
  | 0 => some .cmd
  | 1 => some .status
  | 2 => some .ctrl
  | 3 => some .ecode
  | 4 => some .ecmd
  | 5 => some .eseq
  | 6 => some .cseq
  | 7 => some .param
  | _ => none

/-- What a CSR reads as (R31 to R39). -/
def State.readCsr (s : State) : Csr → Word
  | .cmd => 0#32
  | .status => s.statusWord
  | .ctrl => s.ctrlWord
  | .ecode => s.ecodeWord
  | .ecmd => s.ecmd
  | .eseq => s.eseq
  | .cseq => s.cseq
  | .param => Config.paramWord s.cfg

/-- A write of CMD that is not held (R32): discarded while `FAULT = 1`, else appended to `Q`. -/
def State.pushCommand (s : State) (w : Word) : State :=
  if s.fault then s else { s with q := s.q ++ [w] }

/-- A write of STATUS (R33): bit 2 = 1 clears `DONE`. -/
def State.writeStatus (s : State) (w : Word) : State :=
  if w.getLsbD 2 then { s with done := false } else s

/-- A write of CTRL (R34): bit 31 = 1 is a soft reset, and "the other bits of the same write are ignored". -/
def State.writeCtrl (s : State) (w : Word) : State :=
  if w.getLsbD 31 then s.softReset else { s with fie := w.getLsbD 0, die := w.getLsbD 1 }

/-- A host write of a CSR; "writing a read-only register ... has no effect" (R31). -/
def State.writeCsr (s : State) (c : Csr) (w : Word) : State :=
  match c with
  | .cmd => s.pushCommand w
  | .status => s.writeStatus w
  | .ctrl => s.writeCtrl w
  | .ecode => s
  | .ecmd => s
  | .eseq => s
  | .cseq => s
  | .param => s

/-- The accesses that cannot complete yet: a CMD write with `Q` full (R32; not while `FAULT = 1`, when the word is
discarded), and an OMEM access while `BUSY = 1` (R60 (b)). They are "not lost and not reordered". -/
def State.holds (s : State) : HostAccess → Bool
  | .writeCsr offset _ => offset == 0 && !s.fault && decide (s.cfg.qDepth ≤ s.q.length)
  | .readCsr _ => false
  | .readOmem _ => s.busy
  | .writeOmem _ _ => s.busy

/-- A host access that is not held, as one step (R31, R60). -/
def State.hostStep (s : State) : HostAccess → Answer
  | .readCsr offset =>
    match csrAt offset with
    | some c => .next { s with busRead := some (s.readCsr c) }
    | none => .refused .csrOutside
  | .writeCsr offset w =>
    match csrAt offset with
    | some c => .next (s.writeCsr c w)
    | none => .refused .csrOutside
  | .readOmem a =>
    if a < s.cfg.memWords then .next { s with busRead := some (Memory.read s.omem a) }
    else .refused .omemOutside
  | .writeOmem a w =>
    if a < s.cfg.memWords then .next { s with omem := Memory.write s.omem a w }
    else .refused .omemOutside

end Sys2Proof.Machine
end

