-- ==== Sys2Proof/Machine/Engine.lean ====
section
/-! DEFINITION. The engine's one kind of step (spec/10_state.md R41; spec/30_encoding.md R76). -/

namespace Sys2Proof.Machine

/-- The engine has a step: `Q` is not empty (R41) and `FAULT = 0` (spec/60_exceptions.md R207; log 16). -/
def State.engineReady (s : State) : Bool := !s.fault && s.busy

/-- The command with word `w`: decoded, then executed, or `IllegalCommand` (R76, R77). -/
def runWord (s : State) (w : Word) : Answer :=
  match decode w with
  | .ok i => exec i s
  | .error _ => .next (s.takeFault .illegalCommand)

/-- The engine's step on the oldest word of `Q`. -/
def engineStep (s : State) : Answer :=
  if s.fault then .fault .stopped
  else
    match s.q with
    | [] => .fault .idle
    | w :: _ => runWord s w

/-- One turn of the run's total order (spec/20_memory.md R61; log 4). An engine turn in which the engine has no step
passes; a held host access waits while the engine moves (R32, R60); with no turn listed the engine moves. -/
def takeTurn (s : State) : Answer :=
  match s.turns with
  | [] => engineStep s
  | .engine :: rest =>
    if s.engineReady then engineStep { s with turns := rest } else .next { s with turns := rest }
  | .host access :: rest =>
    if s.holds access then engineStep s else State.hostStep { s with turns := rest } access

/-- The state in which `w` is the word the engine takes in the very next step: it stands at the head of `Q`, as a word
the host has just pushed into an empty queue does, nothing else has the turn, and the engine is not stopped (log 6). -/
def State.withHead (s : State) (w : Word) : State :=
  { s with q := w :: s.q.tail, fault := false, turns := [] }

end Sys2Proof.Machine
end

