-- ==== Sys2Proof/Machine/Step.lean ====
section
/-! DEFINITION. One step of the block: a whole command of the engine or one host access (spec/20_memory.md R61). -/

namespace Sys2Proof.Machine

/-- The step: next state, or the named reason there is none. -/
def step (s : State) : Host.Outcome State Fault Refusal := takeTurn s

/-- `s` with a command word, numbered as spec/opcode_table.json numbers it, where the next step takes it from. -/
def State.withFetchWord (s : State) (nbits w : Nat) : State :=
  s.withHead (BitVec.ofNat 32 (w % 2 ^ nbits))

end Sys2Proof.Machine
end

