-- ==== Sys2Proof/Safety.lean ====
section
/-! DEFINITION. What a successful run is, and the invariants of the block in the spec's own words: vectors and elements
(spec/00_scope.md R9, R14; spec/10_state.md R21, R25, R28), quotients and products (spec/45_element_divmod.md R158;
spec/44_element_addsubmul.md R149), memory (R40), the queue and the fault record (R33 to R37). -/

namespace Sys2Proof.Machine

/-- "Every claim about a run takes `FAULT = 0` as a premise or conclusion" (spec/60_exceptions.md R207). -/
def State.Safe (s : State) : Prop := s.fault = false

/-! ### Vectors and elements -/

/-- A trimmed vector (R14, last sentence). -/
abbrev Trimmed (v : Vec) : Prop := v ≠ [] ∧ (v.length = 1 ∨ co v (v.length - 1) ≠ 0)

/-- Every coefficient lies in `[0, p)`. -/
abbrev Reduced (p : Int) (v : Vec) : Prop := ∀ c ∈ v, 0 ≤ c ∧ c < p

/-- `k` is `Degree(v)` in the words of R11. -/
def IsDegree (v : Vec) (k : Nat) : Prop :=
  (co v k ≠ 0 ∧ ∀ i, k < i → co v i = 0) ∨ (k = 0 ∧ ∀ i, co v i = 0)

/-- What a P register may hold (R21). -/
abbrev VectorOk (c : Config) (v : Vec) : Prop := 1 ≤ v.length ∧ v.length ≤ c.maxLen ∧ ∀ k ∈ v, InRange k

/-- What an element of the field `fd` is (R28). -/
abbrev IsElement (fd : FieldRec) (v : Vec) : Prop := Trimmed v ∧ Reduced fd.p v ∧ v.length ≤ fd.n + 1

/-- What a field record is (R25), the bounds by `INT_MAX` and `MAXLEN` apart. -/
abbrev IsField (fd : FieldRec) : Prop :=
  2 ≤ fd.p ∧ 1 ≤ fd.n ∧ fd.mod.length = fd.n + 1 ∧ Reduced fd.p fd.mod ∧ co fd.mod fd.n ≠ 0

/-- `ord = p^n - 1` when `p^n ≤ INT_MAX`, absent otherwise (R25, R135). -/
abbrev OrderOk (fd : FieldRec) : Prop :=
  fd.ord = if fd.p ^ fd.n ≤ intMax then some (fd.p ^ fd.n - 1) else none

/-- What a valid field slot holds (R25). -/
abbrev FieldOk (c : Config) (fd : FieldRec) : Prop :=
  IsField fd ∧ fd.p ≤ intMax ∧ fd.n + 1 ≤ c.maxLen ∧ OrderOk fd

/-! ### Quotients and products -/

/-- What a quotient and a remainder of `a` by `b` modulo `p` are (R158). -/
structure DivSpec (p : Int) (a b q r : Vec) : Prop where
  trimmedQ : Trimmed q
  reducedQ : Reduced p q
  trimmedR : Trimmed r
  reducedR : Reduced p r
  small : degm r < degm b
  congr : ∀ k, p ∣ co a k - convCo q b k - co r k

/-- `r` is the reduced product of `u` and `w` in the ring of the field `fd` (R149). -/
structure IsProduct (fd : FieldRec) (u w r : Vec) : Prop where
  trimmed : Trimmed r
  reduced : Reduced fd.p r
  small : r.length ≤ fd.n
  congr : ∃ q : Vec, ∀ k, fd.p ∣ convCo u w k - convCo q fd.mod k - co r k

/-! ### Invariants -/

/-- OMEM keeps its canonical form and lists no address outside `0 .. MEMWORDS - 1` (R40). -/
structure MemoryInv (s : State) : Prop where
  canonical : Memory.wf s.omem = true
  inside : ∀ e ∈ s.omem, e.1 < s.cfg.memWords

/-- The queue fits (R41); the fault record is that of the first fault, or 0 (R35, R36, R37); a faulted block has an
empty queue (R33, R207). Codes 2 and 3 are never raised (spec/60_exceptions.md R201). -/
structure ControlInv (s : State) : Prop where
  fits : s.q.length ≤ s.cfg.qDepth
  clear : s.fault = false → s.ecode = 0#5 ∧ s.ecmd = 0#32 ∧ s.eseq = 0#32
  stopped : s.fault = true → s.q = [] ∧ s.eseq = s.cseq
  code : s.fault = true → ∃ c : Cause, c ≠ .invalidMonomial ∧ c ≠ .duplicatePower ∧ s.ecode = c.code

/-- Registers and field slots hold what the spec says they hold (R21, R23, R25, R27, R28). -/
structure DataInv (s : State) : Prop where
  cfg : s.cfg.Admissible
  vectors : ∀ (i : PIdx) tag v, s.p[i] = .held tag v → VectorOk s.cfg v
  elements : ∀ (i : PIdx) f v, s.p[i] = .held (some f) v → ∃ fd, s.f[f] = .valid fd ∧ IsElement fd v
  scalars : ∀ (i : XIdx) k, s.x[i] = .held k → InRange k
  fields : ∀ (f : FIdx) fd, s.f[f] = .valid fd → FieldOk s.cfg fd
  aes : s.f[(0 : FIdx)] = .valid aesField

end Sys2Proof.Machine
end

