-- ==== Sys2Proof/Certificates/Slice0/Obligations.lean ====
section
/-! DEFINITION. The statements for the provers, from the numbered rules of spec/. The helpers of `Sys2Proof.Claims` say a
next state by its fields and a result by its coefficients, not by the model's own functions. -/

namespace Sys2Proof.Claims

open Sys2Proof.Machine

/-! ### Next states -/

/-- A completed command: its word left `Q`, `DONE` is set when that empties `Q`, `CSEQ` is one more
(spec/10_state.md R29, R33, R41). -/
def counted (s : State) : State :=
  { s with q := s.q.tail, done := s.done || s.q.tail.isEmpty, cseq := s.cseq + 1#32 }

/-- The state after the first fault with this code (spec/60_exceptions.md R205): every other field is as before. -/
def faulted (s : State) (code : BitVec 5) : State :=
  { s with ecode := code, ecmd := s.q.headD 0#32, eseq := s.cseq, fault := true, q := [], done := true }

/-- `P[d]` replaced, and nothing else. -/
def withP (s : State) (d : PIdx) (tag : Option FIdx) (v : Vec) : State :=
  { s with p := s.p.set d.val (.held tag v) d.isLt }

/-- `X[d]` replaced, and nothing else. -/
def withX (s : State) (d : XIdx) (k : Int) : State :=
  { s with x := s.x.set d.val (.held k) d.isLt }

/-- `F[d]` made valid, and nothing else. -/
def withF (s : State) (d : FIdx) (fd : FieldRec) : State :=
  { s with f := s.f.set d.val (.valid fd) d.isLt }

/-- OMEM replaced, and nothing else. -/
def withOmem (s : State) (m : Memory) : State := { s with omem := m }

/-- The rest of the turns, and nothing else changed. -/
def withTurns (s : State) (ts : List Turn) : State := { s with turns := ts }

/-! ### Encodings (spec/30_encoding.md R75) -/

/-- `op·2^24 + d·2^20 + a·2^16 + b·2^12 + c·2^8`. -/
def rform (op d a b c : Nat) : Nat := op * 2 ^ 24 + d * 2 ^ 20 + a * 2 ^ 16 + b * 2 ^ 12 + c * 2 ^ 8

/-- `op·2^24 + d·2^20 + f·2^16 + imm`. -/
def mform (op d f imm : Nat) : Nat := op * 2 ^ 24 + d * 2 ^ 20 + f * 2 ^ 16 + imm

/-- The word with this value is the one word that decodes to the command. -/
def Encodes (i : Instr) (n : Nat) : Prop := ∀ w : Word, decode w = .ok i ↔ w = BitVec.ofNat 32 n

/-! ### Operand checks (spec/43_field.md R141) -/

/-- `elems(a)`: an unwritten source faults with code 10, a raw polynomial with code 11. -/
def ChecksOneElement (i : Instr) (a : PIdx) (s : State) : Prop :=
  (s.p[a] = .unwritten → exec i s = .next (faulted s 10#5)) ∧
  (∀ v, s.p[a] = .held none v → exec i s = .next (faulted s 11#5))

/-- `elems(a, b)`: unwritten sources first, then raw polynomials, then elements of two slots (code 6). -/
def ChecksTwoElements (i : Instr) (a b : PIdx) (s : State) : Prop :=
  (s.p[a] = .unwritten ∨ s.p[b] = .unwritten → exec i s = .next (faulted s 10#5)) ∧
  (∀ ta u tb w, s.p[a] = .held ta u → s.p[b] = .held tb w → ta = none ∨ tb = none →
    exec i s = .next (faulted s 11#5)) ∧
  (∀ f u g w, s.p[a] = .held (some f) u → s.p[b] = .held (some g) w → f ≠ g →
    exec i s = .next (faulted s 6#5))

/-! ### Multiplication in the ring of a field (spec/44_element_addsubmul.md R149) -/

/-- The leading coefficient of the modulus has an inverse modulo `p`. -/
def UnitModulus (fd : FieldRec) : Prop := Int.gcd (co fd.mod fd.n) fd.p = 1

/-- The product of `u` and `w` modulo `p` has degree below `n` before any reduction by the modulus. -/
def SmallProduct (fd : FieldRec) (u w : Vec) : Prop := ∀ k, fd.n ≤ k → fd.p ∣ convCo u w k

/-- `r` is the value of `emul(Fd, u, w)`: the product reduced by the modulus, or the product itself when it is small. -/
def Times (fd : FieldRec) (u w r : Vec) : Prop :=
  (UnitModulus fd ∧ IsProduct fd u w r) ∨
  (SmallProduct fd u w ∧ Trimmed r ∧ ∀ k, co r k = convCo u w k % fd.p)

/-- `emul(Fd, u, w)` has no value: a reduction is needed and the modulus does not allow it. -/
def NoTimes (fd : FieldRec) (u w : Vec) : Prop := ¬ UnitModulus fd ∧ ¬ SmallProduct fd u w

/-- `rs 0, rs 1, ..., rs m` are the powers of `u` from the identity up (spec/47_element_pow_order.md R182, R184). -/
def Powers (fd : FieldRec) (u : Vec) (rs : Nat → Vec) (m : Nat) : Prop :=
  rs 0 = [1] ∧ ∀ k, k < m → Times fd (rs k) u (rs (k + 1))

/-- `v` is a fully reduced inverse of `e` (spec/46_element_inverse.md R173). -/
def Inverse (fd : FieldRec) (e v : Vec) : Prop :=
  Trimmed v ∧ Reduced fd.p v ∧ v.length ≤ fd.n ∧ IsProduct fd e v [1]

/-- The modulus is irreducible modulo `p`: no product of two polynomials of degree 1 or more. -/
def IrreducibleModulus (fd : FieldRec) : Prop :=
  ∀ u w : Vec, Reduced fd.p u → Reduced fd.p w → (∃ i, 1 ≤ i ∧ co u i ≠ 0) → (∃ i, 1 ≤ i ∧ co w i ≠ 0) →
    ∃ k, ¬ fd.p ∣ convCo u w k - co fd.mod k

/-! ### Sources, destinations and faults of a command (spec/30_encoding.md R75; spec/60_exceptions.md R224) -/

/-- The P registers a command reads. -/
def pSources : Instr → List PIdx
  | .nop => []
  | .pld _ _ => []
  | .pst d _ => [d]
  | .xld _ _ => []
  | .xst _ _ => []
  | .xli _ _ => []
  | .eldb _ _ _ => []
  | .estb d _ => [d]
  | .copy _ a => [a]
  | .pdeg _ a => [a]
  | .plead _ a => [a]
  | .pisz _ a => [a]
  | .piso _ a => [a]
  | .pnorm _ a => [a]
  | .padd _ a b => [a, b]
  | .psub _ a b => [a, b]
  | .pmul _ a b => [a, b]
  | .fnew _ _ _ c => [c]
  | .ezero _ _ => []
  | .eone _ _ => []
  | .enew _ a _ => [a]
  | .enorm _ a => [a]
  | .eadd _ a b => [a, b]
  | .esub _ a b => [a, b]
  | .emul _ a b => [a, b]
  | .edivmod _ _ a b => [a, b]
  | .emod _ a b => [a, b]
  | .einv _ a => [a]
  | .epow _ a _ => [a]
  | .eord _ a => [a]

/-- The X registers a command reads. -/
def xSources : Instr → List XIdx
  | .nop => []
  | .pld _ _ => []
  | .pst _ _ => []
  | .xld _ _ => []
  | .xst d _ => [d]
  | .xli _ _ => []
  | .eldb _ _ _ => []
  | .estb _ _ => []
  | .copy _ _ => []
  | .pdeg _ _ => []
  | .plead _ _ => []
  | .pisz _ _ => []
  | .piso _ _ => []
  | .pnorm _ _ => []
  | .padd _ _ _ => []
  | .psub _ _ _ => []
  | .pmul _ _ _ => []
  | .fnew _ a b _ => [a, b]
  | .ezero _ _ => []
  | .eone _ _ => []
  | .enew _ _ _ => []
  | .enorm _ _ => []
  | .eadd _ _ _ => []
  | .esub _ _ _ => []
  | .emul _ _ _ => []
  | .edivmod _ _ _ _ => []
  | .emod _ _ _ => []
  | .einv _ _ => []
  | .epow _ _ b => [b]
  | .eord _ _ => []

/-- The P registers a command writes. -/
def pDests : Instr → List PIdx
  | .nop => []
  | .pld d _ => [d]
  | .pst _ _ => []
  | .xld _ _ => []
  | .xst _ _ => []
  | .xli _ _ => []
  | .eldb d _ _ => [d]
  | .estb _ _ => []
  | .copy d _ => [d]
  | .pdeg _ _ => []
  | .plead _ _ => []
  | .pisz _ _ => []
  | .piso _ _ => []
  | .pnorm d _ => [d]
  | .padd d _ _ => [d]
  | .psub d _ _ => [d]
  | .pmul d _ _ => [d]
  | .fnew _ _ _ _ => []
  | .ezero d _ => [d]
  | .eone d _ => [d]
  | .enew d _ _ => [d]
  | .enorm d _ => [d]
  | .eadd d _ _ => [d]
  | .esub d _ _ => [d]
  | .emul d _ _ => [d]
  | .edivmod d c _ _ => [d, c]
  | .emod d _ _ => [d]
  | .einv d _ => [d]
  | .epow d _ _ => [d]
  | .eord _ _ => []

/-- The X registers a command writes. -/
def xDests : Instr → List XIdx
  | .nop => []
  | .pld _ _ => []
  | .pst _ _ => []
  | .xld d _ => [d]
  | .xst _ _ => []
  | .xli d _ => [d]
  | .eldb _ _ _ => []
  | .estb _ _ => []
  | .copy _ _ => []
  | .pdeg d _ => [d]
  | .plead d _ => [d]
  | .pisz d _ => [d]
  | .piso d _ => [d]
  | .pnorm _ _ => []
  | .padd _ _ _ => []
  | .psub _ _ _ => []
  | .pmul _ _ _ => []
  | .fnew _ _ _ _ => []
  | .ezero _ _ => []
  | .eone _ _ => []
  | .enew _ _ _ => []
  | .enorm _ _ => []
  | .eadd _ _ _ => []
  | .esub _ _ _ => []
  | .emul _ _ _ => []
  | .edivmod _ _ _ _ => []
  | .emod _ _ _ => []
  | .einv _ _ => []
  | .epow _ _ _ => []
  | .eord d _ => [d]

/-- The field slots a command writes: FNEW's destination alone. -/
def fDests : Instr → List FIdx
  | .nop => []
  | .pld _ _ => []
  | .pst _ _ => []
  | .xld _ _ => []
  | .xst _ _ => []
  | .xli _ _ => []
  | .eldb _ _ _ => []
  | .estb _ _ => []
  | .copy _ _ => []
  | .pdeg _ _ => []
  | .plead _ _ => []
  | .pisz _ _ => []
  | .piso _ _ => []
  | .pnorm _ _ => []
  | .padd _ _ _ => []
  | .psub _ _ _ => []
  | .pmul _ _ _ => []
  | .fnew d _ _ _ => [d]
  | .ezero _ _ => []
  | .eone _ _ => []
  | .enew _ _ _ => []
  | .enorm _ _ => []
  | .eadd _ _ _ => []
  | .esub _ _ _ => []
  | .emul _ _ _ => []
  | .edivmod _ _ _ _ => []
  | .emod _ _ _ => []
  | .einv _ _ => []
  | .epow _ _ _ => []
  | .eord _ _ => []

/-- The length of the vector `P[d]` holds, 0 when it is unwritten. -/
def heldLength : PReg → Nat
  | .unwritten => 0
  | .held _ v => v.length

/-- The word address `b` is one the command stores to when it completes in the state `s`: `A .. A + L` for PST of a
vector of length `L`, `A` for XST and ESTB (spec/20_memory.md R58), with `A` the zero-extended `imm`. -/
def StoresTo (s : State) (b : Nat) : Instr → Prop
  | .nop => False
  | .pld _ _ => False
  | .pst d addr => addr.toNat ≤ b ∧ b ≤ addr.toNat + heldLength s.p[d]
  | .xld _ _ => False
  | .xst _ addr => b = addr.toNat
  | .xli _ _ => False
  | .eldb _ _ _ => False
  | .estb _ addr => b = addr.toNat
  | .copy _ _ => False
  | .pdeg _ _ => False
  | .plead _ _ => False
  | .pisz _ _ => False
  | .piso _ _ => False
  | .pnorm _ _ => False
  | .padd _ _ _ => False
  | .psub _ _ _ => False
  | .pmul _ _ _ => False
  | .fnew _ _ _ _ => False
  | .ezero _ _ => False
  | .eone _ _ => False
  | .enew _ _ _ => False
  | .enorm _ _ => False
  | .eadd _ _ _ => False
  | .esub _ _ _ => False
  | .emul _ _ _ => False
  | .edivmod _ _ _ _ => False
  | .emod _ _ _ => False
  | .einv _ _ => False
  | .epow _ _ _ => False
  | .eord _ _ => False

/-- The command accesses OMEM (spec/20_memory.md R50, R58). -/
def usesMemory : Instr → Bool
  | .nop => false
  | .pld _ _ => true
  | .pst _ _ => true
  | .xld _ _ => true
  | .xst _ _ => true
  | .xli _ _ => false
  | .eldb _ _ _ => true
  | .estb _ _ => true
  | .copy _ _ => false
  | .pdeg _ _ => false
  | .plead _ _ => false
  | .pisz _ _ => false
  | .piso _ _ => false
  | .pnorm _ _ => false
  | .padd _ _ _ => false
  | .psub _ _ _ => false
  | .pmul _ _ _ => false
  | .fnew _ _ _ _ => false
  | .ezero _ _ => false
  | .eone _ _ => false
  | .enew _ _ _ => false
  | .enorm _ _ => false
  | .eadd _ _ _ => false
  | .esub _ _ _ => false
  | .emul _ _ _ => false
  | .edivmod _ _ _ _ => false
  | .emod _ _ _ => false
  | .einv _ _ => false
  | .epow _ _ _ => false
  | .eord _ _ => false

/-- The table of spec/60_exceptions.md R224, as fault codes. -/
def faultsOf : Instr → List (BitVec 5)
  | .nop => []
  | .pld _ _ => [15, 1]
  | .pst _ _ => [10, 15]
  | .xld _ _ => [15]
  | .xst _ _ => [10, 15]
  | .xli _ _ => []
  | .eldb _ _ _ => [12, 15, 1]
  | .estb _ _ => [10, 11, 12, 5, 15]
  | .copy _ _ => [10]
  | .pdeg _ _ => [10]
  | .plead _ _ => [10]
  | .pisz _ _ => [10]
  | .piso _ _ => [10]
  | .pnorm _ _ => [10]
  | .padd _ _ _ => [10, 13]
  | .psub _ _ _ => [10, 13]
  | .pmul _ _ _ => [10, 14, 13]
  | .fnew _ _ _ _ => [10, 12, 4]
  | .ezero _ _ => [12]
  | .eone _ _ => [12]
  | .enew _ _ _ => [10, 12, 5]
  | .enorm _ _ => [10, 11]
  | .eadd _ _ _ => [10, 11, 6]
  | .esub _ _ _ => [10, 11, 6]
  | .emul _ _ _ => [10, 11, 6, 16]
  | .edivmod _ _ _ _ => [10, 11, 6, 7, 16]
  | .emod _ _ _ => [10, 11, 6, 7, 16]
  | .einv _ _ => [10, 11, 7, 16, 8]
  | .epow _ _ _ => [10, 11, 13, 16]
  | .eord _ _ => [10, 11, 13, 16]

/-! ### The host's turn -/

/-- The host's turn is a write of CTRL with bit 31 set: a soft reset (spec/10_state.md R34). -/
def SoftResetTurn (s : State) : Prop := ∃ w ts, s.turns = .host (.writeCsr 2 w) :: ts ∧ w.getLsbD 31 = true

/-- The access cannot complete while a command is queued: an OMEM access (spec/20_memory.md R60), or a write of CMD with
`Q` full (spec/10_state.md R32). -/
def HeldWhileBusy (s : State) : HostAccess → Prop
  | .readCsr _ => False
  | .writeCsr k _ => k = 0 ∧ s.cfg.qDepth ≤ s.q.length
  | .readOmem _ => True
  | .writeOmem _ _ => True

end Sys2Proof.Claims

section Statements

open Sys2Proof Sys2Proof.Machine Sys2Proof.Claims

/-! ### System and data movement -/

/-- NOP (spec/48_system.md R190): one word, and only the command count, the queue and, where it empties the queue, `DONE`
change. That NOP sets `DONE` follows spec/10_state.md R33 against R190's example (log 20). -/
def Obligations.NopOnlyCounts : Prop :=
  Encodes .nop 0x01000000 ∧ ∀ s : State, exec .nop s = .next (counted s)

/-- PLD (spec/40_data_movement.md R91), every outcome in the order of its checks. -/
def Obligations.PldLoadsVector : Prop :=
  (∀ (d : PIdx) (addr : Imm), Encodes (.pld d addr) (mform 0x10 d 0 addr.toNat)) ∧
  ∀ (s : State) (d : PIdx) (addr : Imm), s.fault = false →
    let a := addr.toNat
    let len := (Memory.read s.omem a).toInt
    (s.cfg.memWords ≤ a → exec (.pld d addr) s = .next (faulted s 15#5)) ∧
    (a < s.cfg.memWords → len < 1 ∨ (s.cfg.maxLen : Int) < len →
      exec (.pld d addr) s = .next (faulted s 1#5)) ∧
    ∀ n : Nat, a < s.cfg.memWords → len = n → 1 ≤ n → n ≤ s.cfg.maxLen →
      (s.cfg.memWords ≤ a + n → exec (.pld d addr) s = .next (faulted s 15#5)) ∧
      (a + n < s.cfg.memWords → ∃ v : Vec, v.length = n ∧
        (∀ i, i < n → co v i = (Memory.read s.omem (a + 1 + i)).toInt) ∧
        exec (.pld d addr) s = .next (counted (withP s d none v)))

/-- PST (R92): the vector register is checked, then the last address; the words stored are the length and the
coefficients, and every other word of OMEM is as before. -/
def Obligations.PstStoresVector : Prop :=
  (∀ (d : PIdx) (addr : Imm), Encodes (.pst d addr) (mform 0x11 d 0 addr.toNat)) ∧
  ∀ (s : State) (d : PIdx) (addr : Imm), s.fault = false →
    let a := addr.toNat
    (s.p[d] = .unwritten → exec (.pst d addr) s = .next (faulted s 10#5)) ∧
    ∀ tag v, s.p[d] = .held tag v →
      (s.cfg.memWords ≤ a + v.length → exec (.pst d addr) s = .next (faulted s 15#5)) ∧
      (a + v.length < s.cfg.memWords → Memory.wf s.omem = true →
        ∃ m, exec (.pst d addr) s = .next (counted (withOmem s m)) ∧
          ∀ b, Memory.read m b =
            if b = a then BitVec.ofNat 32 v.length
            else if a < b ∧ b ≤ a + v.length then BitVec.ofInt 32 (co v (b - a - 1))
            else Memory.read s.omem b)

/-- XLD and XLI (R93, R95): a scalar from one word of OMEM, and the sign-extended immediate. -/
def Obligations.XldXliLoadScalar : Prop :=
  (∀ (d : XIdx) (addr : Imm), Encodes (.xld d addr) (mform 0x12 d 0 addr.toNat)) ∧
  (∀ (d : XIdx) (imm : Imm), Encodes (.xli d imm) (mform 0x14 d 0 imm.toNat)) ∧
  ∀ (s : State) (d : XIdx) (addr : Imm), s.fault = false →
    (s.cfg.memWords ≤ addr.toNat → exec (.xld d addr) s = .next (faulted s 15#5)) ∧
    (addr.toNat < s.cfg.memWords →
      exec (.xld d addr) s = .next (counted (withX s d (Memory.read s.omem addr.toNat).toInt))) ∧
    exec (.xli d addr) s = .next (counted (withX s d addr.toInt))

/-- XST (R94): one word stored, every other word as before. -/
def Obligations.XstStoresScalar : Prop :=
  (∀ (d : XIdx) (addr : Imm), Encodes (.xst d addr) (mform 0x13 d 0 addr.toNat)) ∧
  ∀ (s : State) (d : XIdx) (addr : Imm), s.fault = false →
    (s.x[d] = .unwritten → exec (.xst d addr) s = .next (faulted s 10#5)) ∧
    ∀ k, s.x[d] = .held k →
      (s.cfg.memWords ≤ addr.toNat → exec (.xst d addr) s = .next (faulted s 15#5)) ∧
      (addr.toNat < s.cfg.memWords → Memory.wf s.omem = true →
        ∃ m, exec (.xst d addr) s = .next (counted (withOmem s m)) ∧
          ∀ b, Memory.read m b = if b = addr.toNat then BitVec.ofInt 32 k else Memory.read s.omem b)

/-- ELDB (R96): an element of a `p = 2`, `n = 8` field from the eight low bits of a word. -/
def Obligations.EldbLoadsByte : Prop :=
  (∀ (d : PIdx) (f : FIdx) (addr : Imm), Encodes (.eldb d f addr) (mform 0x15 d f addr.toNat)) ∧
  ∀ (s : State) (d : PIdx) (f : FIdx) (addr : Imm), s.fault = false →
    let w := Memory.read s.omem addr.toNat
    (s.f[f] = .invalid → exec (.eldb d f addr) s = .next (faulted s 12#5)) ∧
    ∀ fd, s.f[f] = .valid fd →
      (¬ (fd.p = 2 ∧ fd.n = 8) → exec (.eldb d f addr) s = .next (faulted s 12#5)) ∧
      (fd.p = 2 → fd.n = 8 →
        (s.cfg.memWords ≤ addr.toNat → exec (.eldb d f addr) s = .next (faulted s 15#5)) ∧
        (addr.toNat < s.cfg.memWords → 256 ≤ w.toNat → exec (.eldb d f addr) s = .next (faulted s 1#5)) ∧
        (addr.toNat < s.cfg.memWords → w.toNat < 256 →
          ∃ v : Vec, Trimmed v ∧ (∀ i, co v i = if w.getLsbD i then 1 else 0) ∧
            exec (.eldb d f addr) s = .next (counted (withP s d (some f) v))))

/-- ESTB (R97): an element of degree at most 7 of a `p = 2`, `n = 8` field, as the packed byte of
spec/20_memory.md R56. -/
def Obligations.EstbStoresByte : Prop :=
  (∀ (d : PIdx) (addr : Imm), Encodes (.estb d addr) (mform 0x16 d 0 addr.toNat)) ∧
  ∀ (s : State) (d : PIdx) (addr : Imm), s.fault = false →
    ChecksOneElement (.estb d addr) d s ∧
    ∀ t v fd, s.p[d] = .held (some t) v → s.f[t] = .valid fd →
      (¬ (fd.p = 2 ∧ fd.n = 8) → exec (.estb d addr) s = .next (faulted s 12#5)) ∧
      (fd.p = 2 → fd.n = 8 →
        ((∃ k, IsDegree v k ∧ 7 < k) → exec (.estb d addr) s = .next (faulted s 5#5)) ∧
        ((∀ k, 7 < k → co v k = 0) →
          (s.cfg.memWords ≤ addr.toNat → exec (.estb d addr) s = .next (faulted s 15#5)) ∧
          (addr.toNat < s.cfg.memWords → Memory.wf s.omem = true →
            ∃ m, exec (.estb d addr) s = .next (counted (withOmem s m)) ∧
              ∀ b, Memory.read m b =
                if b = addr.toNat then BitVec.ofInt 32 (∑ i ∈ Finset.range 8, co v i * 2 ^ i)
                else Memory.read s.omem b)))

/-- COPY (R98): tag and vector, unchanged. -/
def Obligations.CopyCopiesTagAndVector : Prop :=
  (∀ d a : PIdx, Encodes (.copy d a) (rform 0x17 d a 0 0)) ∧
  ∀ (s : State) (d a : PIdx), s.fault = false →
    (s.p[a] = .unwritten → exec (.copy d a) s = .next (faulted s 10#5)) ∧
    ∀ tag v, s.p[a] = .held tag v → exec (.copy d a) s = .next (counted (withP s d tag v))

/-! ### Queries, trimming and raw arithmetic -/

/-- PDEG and PLEAD (spec/41_poly_query_normalize.md R111, R112): the degree, and the coefficient at it. -/
def Obligations.PdegPleadAnswerDegreeAndLead : Prop :=
  (∀ (d : XIdx) (a : PIdx), Encodes (.pdeg d a) (rform 0x20 d a 0 0) ∧ Encodes (.plead d a) (rform 0x21 d a 0 0)) ∧
  ∀ (s : State) (d : XIdx) (a : PIdx), s.fault = false →
    (s.p[a] = .unwritten →
      exec (.pdeg d a) s = .next (faulted s 10#5) ∧ exec (.plead d a) s = .next (faulted s 10#5)) ∧
    ∀ tag v, s.p[a] = .held tag v →
      ∃ k, IsDegree v k ∧ exec (.pdeg d a) s = .next (counted (withX s d k)) ∧
        exec (.plead d a) s = .next (counted (withX s d (co v k)))

/-- PISZ and PISO (R113, R114): 1 or 0. -/
def Obligations.PiszPisoAnswerZeroAndOne : Prop :=
  (∀ (d : XIdx) (a : PIdx), Encodes (.pisz d a) (rform 0x22 d a 0 0) ∧ Encodes (.piso d a) (rform 0x23 d a 0 0)) ∧
  ∀ (s : State) (d : XIdx) (a : PIdx), s.fault = false →
    (s.p[a] = .unwritten →
      exec (.pisz d a) s = .next (faulted s 10#5) ∧ exec (.piso d a) s = .next (faulted s 10#5)) ∧
    ∀ tag v, s.p[a] = .held tag v →
      ((∀ i, co v i = 0) → exec (.pisz d a) s = .next (counted (withX s d 1))) ∧
      ((∃ i, co v i ≠ 0) → exec (.pisz d a) s = .next (counted (withX s d 0))) ∧
      (co v 0 = 1 → (∀ i, 0 < i → co v i = 0) → exec (.piso d a) s = .next (counted (withX s d 1))) ∧
      (co v 0 ≠ 1 ∨ (∃ i, 0 < i ∧ co v i ≠ 0) → exec (.piso d a) s = .next (counted (withX s d 0)))

/-- PNORM (R115): a raw polynomial, trimmed, with no coefficient changed. -/
def Obligations.PnormTrims : Prop :=
  (∀ d a : PIdx, Encodes (.pnorm d a) (rform 0x24 d a 0 0)) ∧
  ∀ (s : State) (d a : PIdx), s.fault = false →
    (s.p[a] = .unwritten → exec (.pnorm d a) s = .next (faulted s 10#5)) ∧
    ∀ tag v, s.p[a] = .held tag v → v ≠ [] →
      ∃ r, Trimmed r ∧ (∀ i, co r i = co v i) ∧ exec (.pnorm d a) s = .next (counted (withP s d none r))

/-- PADD (spec/42_poly_arith.md R121): the length is one more than the greater degree, also when the top cancels. -/
def Obligations.PaddAddsUntrimmed : Prop :=
  (∀ d a b : PIdx, Encodes (.padd d a b) (rform 0x30 d a b 0)) ∧
  ∀ (s : State) (d a b : PIdx), s.fault = false →
    (s.p[a] = .unwritten ∨ s.p[b] = .unwritten → exec (.padd d a b) s = .next (faulted s 10#5)) ∧
    ∀ ta u tb w du dw, s.p[a] = .held ta u → s.p[b] = .held tb w → IsDegree u du → IsDegree w dw →
      ((∃ i, ¬ InRange (co u i + co w i)) → exec (.padd d a b) s = .next (faulted s 13#5)) ∧
      ((∀ i, InRange (co u i + co w i)) →
        ∃ r : Vec, r.length = max du dw + 1 ∧ (∀ i, co r i = co u i + co w i) ∧
          exec (.padd d a b) s = .next (counted (withP s d none r)))

/-- PSUB (R122): the difference, trimmed. -/
def Obligations.PsubSubtractsTrimmed : Prop :=
  (∀ d a b : PIdx, Encodes (.psub d a b) (rform 0x31 d a b 0)) ∧
  ∀ (s : State) (d a b : PIdx), s.fault = false →
    (s.p[a] = .unwritten ∨ s.p[b] = .unwritten → exec (.psub d a b) s = .next (faulted s 10#5)) ∧
    ∀ ta u tb w, s.p[a] = .held ta u → s.p[b] = .held tb w →
      ((∃ i, ¬ InRange (co u i - co w i)) → exec (.psub d a b) s = .next (faulted s 13#5)) ∧
      ((∀ i, InRange (co u i - co w i)) →
        ∃ r : Vec, Trimmed r ∧ (∀ i, co r i = co u i - co w i) ∧
          exec (.psub d a b) s = .next (counted (withP s d none r)))

/-- PMUL (R124): zero operands first, then `Capacity`, then `Overflow`. -/
def Obligations.PmulMultiplies : Prop :=
  (∀ d a b : PIdx, Encodes (.pmul d a b) (rform 0x32 d a b 0)) ∧
  ∀ (s : State) (d a b : PIdx), s.fault = false →
    (s.p[a] = .unwritten ∨ s.p[b] = .unwritten → exec (.pmul d a b) s = .next (faulted s 10#5)) ∧
    ∀ ta u tb w, s.p[a] = .held ta u → s.p[b] = .held tb w →
      ((∀ i, co u i = 0) ∨ (∀ i, co w i = 0) →
        exec (.pmul d a b) s = .next (counted (withP s d none [0]))) ∧
      ∀ du dw, IsDegree u du → IsDegree w dw → co u du ≠ 0 → co w dw ≠ 0 →
        (s.cfg.maxLen < du + dw + 1 → exec (.pmul d a b) s = .next (faulted s 14#5)) ∧
        (du + dw + 1 ≤ s.cfg.maxLen → (∃ k, ¬ InRange (convCo u w k)) →
          exec (.pmul d a b) s = .next (faulted s 13#5)) ∧
        (du + dw + 1 ≤ s.cfg.maxLen → (∀ k, InRange (convCo u w k)) →
          ∃ r : Vec, r.length = du + dw + 1 ∧ (∀ k, co r k = convCo u w k) ∧
            exec (.pmul d a b) s = .next (counted (withP s d none r)))

/-! ### Fields and elements -/

/-- FNEW (spec/43_field.md R133): every check in its order, and the record stored. -/
def Obligations.FnewConstructsField : Prop :=
  (∀ (d : FIdx) (a b : XIdx) (c : PIdx), Encodes (.fnew d a b c) (rform 0x40 d a b c)) ∧
  ∀ (s : State) (d : FIdx) (a b : XIdx) (c : PIdx), s.fault = false →
    (s.x[a] = .unwritten ∨ s.x[b] = .unwritten ∨ s.p[c] = .unwritten →
      exec (.fnew d a b c) s = .next (faulted s 10#5)) ∧
    ∀ p n tag m dm, s.x[a] = .held p → s.x[b] = .held n → s.p[c] = .held tag m → IsDegree m dm →
      (s.f[d] ≠ .invalid ∨ p < 2 → exec (.fnew d a b c) s = .next (faulted s 12#5)) ∧
      (s.f[d] = .invalid → 2 ≤ p → n < 1 ∨ (dm : Int) ≠ n ∨ p ∣ co m dm →
        exec (.fnew d a b c) s = .next (faulted s 4#5)) ∧
      (s.f[d] = .invalid → 2 ≤ p → 1 ≤ n → (dm : Int) = n → ¬ p ∣ co m dm →
        ∃ mod : Vec, mod.length = dm + 1 ∧ (∀ i, co mod i = co m i % p) ∧
          exec (.fnew d a b c) s = .next (counted (withF s d
            { p := p, n := dm, mod := mod, ord := if p ^ dm ≤ intMax then some (p ^ dm - 1) else none })))

/-- EZERO and EONE (R136, R137). -/
def Obligations.EzeroEoneGiveIdentities : Prop :=
  (∀ (d : PIdx) (a : FIdx), Encodes (.ezero d a) (rform 0x41 d a 0 0) ∧ Encodes (.eone d a) (rform 0x42 d a 0 0)) ∧
  ∀ (s : State) (d : PIdx) (a : FIdx), s.fault = false →
    (s.f[a] = .invalid →
      exec (.ezero d a) s = .next (faulted s 12#5) ∧ exec (.eone d a) s = .next (faulted s 12#5)) ∧
    ∀ fd, s.f[a] = .valid fd →
      exec (.ezero d a) s = .next (counted (withP s d (some a) [0])) ∧
      exec (.eone d a) s = .next (counted (withP s d (some a) [1]))

/-- ENEW (R138): the degree is tested before reduction and may equal `n`. -/
def Obligations.EnewBindsReduced : Prop :=
  (∀ (d a : PIdx) (b : FIdx), Encodes (.enew d a b) (rform 0x43 d a b 0)) ∧
  ∀ (s : State) (d a : PIdx) (b : FIdx), s.fault = false →
    (s.p[a] = .unwritten → exec (.enew d a b) s = .next (faulted s 10#5)) ∧
    ∀ tag v, s.p[a] = .held tag v →
      (s.f[b] = .invalid → exec (.enew d a b) s = .next (faulted s 12#5)) ∧
      ∀ fd k, s.f[b] = .valid fd → IsDegree v k →
        (fd.n < k → exec (.enew d a b) s = .next (faulted s 5#5)) ∧
        (k ≤ fd.n → v ≠ [] →
          ∃ r : Vec, Trimmed r ∧ (∀ i, co r i = co v i % fd.p) ∧
            exec (.enew d a b) s = .next (counted (withP s d (some b) r)))

/-- ENORM (R140): the normalizer, which changes nothing on an element. -/
def Obligations.EnormNormalizes : Prop :=
  (∀ d a : PIdx, Encodes (.enorm d a) (rform 0x44 d a 0 0)) ∧
  ∀ (s : State) (d a : PIdx), s.fault = false →
    ChecksOneElement (.enorm d a) a s ∧
    ∀ t v fd, s.p[a] = .held (some t) v → s.f[t] = .valid fd → v ≠ [] →
      ∃ r : Vec, Trimmed r ∧ (∀ i, co r i = co v i % fd.p) ∧ (IsElement fd v → r = v) ∧
        exec (.enorm d a) s = .next (counted (withP s d (some t) r))

/-- EADD and ESUB (spec/44_element_addsubmul.md R147, R148): modulo `p`, trimmed, never reduced by the modulus. -/
def Obligations.EaddEsubReduceModP : Prop :=
  (∀ d a b : PIdx, Encodes (.eadd d a b) (rform 0x50 d a b 0) ∧ Encodes (.esub d a b) (rform 0x51 d a b 0)) ∧
  ∀ (s : State) (d a b : PIdx), s.fault = false →
    ChecksTwoElements (.eadd d a b) a b s ∧ ChecksTwoElements (.esub d a b) a b s ∧
    ∀ t u w fd, s.p[a] = .held (some t) u → s.p[b] = .held (some t) w → s.f[t] = .valid fd → u ≠ [] →
      (∃ r : Vec, Trimmed r ∧ (∀ i, co r i = (co u i + co w i) % fd.p) ∧
        exec (.eadd d a b) s = .next (counted (withP s d (some t) r))) ∧
      (∃ r : Vec, Trimmed r ∧ (∀ i, co r i = (co u i - co w i) % fd.p) ∧
        exec (.esub d a b) s = .next (counted (withP s d (some t) r)))

/-- EMUL (R150; `emul`, R149): the product reduced modulo `p` and by the modulus, or `LeadNotUnit` when a reduction is
needed and the modulus has no invertible leading coefficient. -/
def Obligations.EmulReducesByModulus : Prop :=
  (∀ d a b : PIdx, Encodes (.emul d a b) (rform 0x52 d a b 0)) ∧
  ∀ (s : State) (d a b : PIdx), s.fault = false →
    ChecksTwoElements (.emul d a b) a b s ∧
    ∀ t u w fd, s.p[a] = .held (some t) u → s.p[b] = .held (some t) w → s.f[t] = .valid fd → IsField fd →
      (NoTimes fd u w → exec (.emul d a b) s = .next (faulted s 16#5)) ∧
      (¬ NoTimes fd u w → ∃ r, Times fd u w r ∧ r.length ≤ fd.n ∧
        exec (.emul d a b) s = .next (counted (withP s d (some t) r)))

/-- EDIVMOD (spec/45_element_divmod.md R160; `divmod`, R157, R158): the quotient to `d` and the remainder to `c`. That the
command itself faults with code 9 for `d = c`, whose words do not decode, is the model's reading of R160's list of faults
(log 14). -/
def Obligations.EdivmodDivides : Prop :=
  (∀ d c a b : PIdx, d ≠ c → Encodes (.edivmod d c a b) (rform 0x53 d a b c)) ∧
  (∀ d a b : PIdx, ∃ e, decode (BitVec.ofNat 32 (rform 0x53 d a b d)) = .error e) ∧
  ∀ (s : State) (d c a b : PIdx), s.fault = false →
    exec (.edivmod d d a b) s = .next (faulted s 9#5) ∧
    (d ≠ c → ChecksTwoElements (.edivmod d c a b) a b s ∧
      ∀ t u w fd, s.p[a] = .held (some t) u → s.p[b] = .held (some t) w → s.f[t] = .valid fd → IsField fd →
        IsElement fd u → IsElement fd w →
        ((∀ i, co w i = 0) → exec (.edivmod d c a b) s = .next (faulted s 7#5)) ∧
        ∀ dw, IsDegree w dw → co w dw ≠ 0 →
          (Int.gcd (co w dw) fd.p = 1 ∨ (∀ i, dw ≤ i → co u i = 0) →
            ∃ q r, DivSpec fd.p u w q r ∧ ((∀ i, dw ≤ i → co u i = 0) → q = [0] ∧ r = u) ∧
              exec (.edivmod d c a b) s =
                .next (counted (withP (withP s d (some t) q) c (some t) r))) ∧
          (Int.gcd (co w dw) fd.p ≠ 1 → (∃ i, dw ≤ i ∧ co u i ≠ 0) →
            exec (.edivmod d c a b) s = .next (faulted s 16#5)))

/-- EMOD (R161): the remainder of the same division. -/
def Obligations.EmodGivesRemainder : Prop :=
  (∀ d a b : PIdx, Encodes (.emod d a b) (rform 0x54 d a b 0)) ∧
  ∀ (s : State) (d a b : PIdx), s.fault = false →
    ChecksTwoElements (.emod d a b) a b s ∧
    ∀ t u w fd, s.p[a] = .held (some t) u → s.p[b] = .held (some t) w → s.f[t] = .valid fd → IsField fd →
      IsElement fd u → IsElement fd w →
      ((∀ i, co w i = 0) → exec (.emod d a b) s = .next (faulted s 7#5)) ∧
      ∀ dw, IsDegree w dw → co w dw ≠ 0 →
        (Int.gcd (co w dw) fd.p = 1 ∨ (∀ i, dw ≤ i → co u i = 0) →
          ∃ q r, DivSpec fd.p u w q r ∧ ((∀ i, dw ≤ i → co u i = 0) → r = u) ∧
            exec (.emod d a b) s = .next (counted (withP s d (some t) r))) ∧
        (Int.gcd (co w dw) fd.p ≠ 1 → (∃ i, dw ≤ i ∧ co u i ≠ 0) →
          exec (.emod d a b) s = .next (faulted s 16#5))

/-- EINV (spec/46_element_inverse.md R172, R173) in a field slot of prime characteristic: the inverse modulo the modulus
when there is one, `NotInvertible` otherwise, `DivisionByZero` for `[0]`. -/
def Obligations.EinvInverts : Prop :=
  (∀ d a : PIdx, Encodes (.einv d a) (rform 0x55 d a 0 0)) ∧
  ∀ (s : State) (d a : PIdx), s.fault = false →
    ChecksOneElement (.einv d a) a s ∧
    ∀ t e fd, s.p[a] = .held (some t) e → s.f[t] = .valid fd → IsField fd → IsElement fd e →
      ((∀ i, co e i = 0) → exec (.einv d a) s = .next (faulted s 7#5)) ∧
      (Nat.Prime fd.p.toNat →
        ((∃ v, IsProduct fd e v [1]) →
          ∃ v, Inverse fd e v ∧ (∀ v', Inverse fd e v' → v' = v) ∧
            exec (.einv d a) s = .next (counted (withP s d (some t) v))) ∧
        ((∃ i, co e i ≠ 0) → (¬ ∃ v, IsProduct fd e v [1]) →
          exec (.einv d a) s = .next (faulted s 8#5)))

/-- R173 for any characteristic: EINV either writes an inverse, or faults with `DivisionByZero`, `LeadNotUnit` or
`NotInvertible`. -/
def Obligations.EinvIsSoundInAnyRing : Prop :=
  ∀ (s : State) (d a : PIdx) t e fd, s.fault = false → s.p[a] = .held (some t) e → s.f[t] = .valid fd →
    IsField fd → IsElement fd e →
    (∃ v, Inverse fd e v ∧
      exec (.einv d a) s = .next (counted (withP s d (some t) v))) ∨
    (∃ code, code ∈ ([7, 16, 8] : List (BitVec 5)) ∧ exec (.einv d a) s = .next (faulted s code))

/-- R173: EINV returns normally for every non-zero element of degree below `n` when `p` is prime and the modulus is
irreducible. -/
def Obligations.EinvTotalInAField : Prop :=
  ∀ (s : State) (d a : PIdx) t e fd, s.fault = false → s.p[a] = .held (some t) e → s.f[t] = .valid fd →
    IsField fd → IsElement fd e → Nat.Prime fd.p.toNat → IrreducibleModulus fd →
    (∃ i, co e i ≠ 0) → (∀ i, fd.n ≤ i → co e i = 0) →
    ∃ v, Inverse fd e v ∧ exec (.einv d a) s = .next (counted (withP s d (some t) v))

/-- EPOW (spec/47_element_pow_order.md R181; `epow`, R182): the `k`-fold product from the identity, `k` the exponent
reduced modulo the order. The last clause says that the products exist whenever the modulus has an invertible leading
coefficient. -/
def Obligations.EpowMultipliesRepeatedly : Prop :=
  (∀ (d a : PIdx) (b : XIdx), Encodes (.epow d a b) (rform 0x56 d a b 0)) ∧
  ∀ (s : State) (d a : PIdx) (b : XIdx), s.fault = false →
    (s.p[a] = .unwritten ∨ s.x[b] = .unwritten → exec (.epow d a b) s = .next (faulted s 10#5)) ∧
    ∀ e, s.x[b] = .held e →
      (∀ v, s.p[a] = .held none v → exec (.epow d a b) s = .next (faulted s 11#5)) ∧
      ∀ t u fd, s.p[a] = .held (some t) u → s.f[t] = .valid fd → IsField fd →
        (fd.ord = none → exec (.epow d a b) s = .next (faulted s 13#5)) ∧
        (∀ n m : Nat, fd.ord = some (n : Int) → (m : Int) = (if 2 ≤ n then e % n else 0) →
          (∀ rs, Powers fd u rs m → exec (.epow d a b) s = .next (counted (withP s d (some t) (rs m)))) ∧
          (∀ rs j, j < m → Powers fd u rs j → NoTimes fd (rs j) u →
            exec (.epow d a b) s = .next (faulted s 16#5)) ∧
          (UnitModulus fd → ∃ rs, Powers fd u rs m))

/-- EORD (R183; `eord`, R184): the smallest positive exponent up to the order whose power is one, 0 when there is none. -/
def Obligations.EordFindsOrder : Prop :=
  (∀ (d : XIdx) (a : PIdx), Encodes (.eord d a) (rform 0x57 d a 0 0)) ∧
  ∀ (s : State) (d : XIdx) (a : PIdx), s.fault = false →
    ChecksOneElement (.eord d a) a s ∧
    ∀ t u fd, s.p[a] = .held (some t) u → s.f[t] = .valid fd → IsField fd →
      (fd.ord = none → exec (.eord d a) s = .next (faulted s 13#5)) ∧
      (∀ n : Nat, fd.ord = some (n : Int) →
        ((∀ i, co u i = 0) → exec (.eord d a) s = .next (counted (withX s d 0))) ∧
        ((∃ i, co u i ≠ 0) →
          (∀ rs k, 1 ≤ k → k ≤ n → Powers fd u rs k → rs k = [1] → (∀ j, 1 ≤ j → j < k → rs j ≠ [1]) →
            exec (.eord d a) s = .next (counted (withX s d k))) ∧
          (∀ rs, Powers fd u rs (n + 1) → (∀ j, 1 ≤ j → j ≤ n → rs j ≠ [1]) →
            exec (.eord d a) s = .next (counted (withX s d 0))) ∧
          (∀ rs j, j ≤ n → Powers fd u rs j → (∀ i, 1 ≤ i → i ≤ j → rs i ≠ [1]) → NoTimes fd (rs j) u →
            exec (.eord d a) s = .next (faulted s 16#5)) ∧
          (UnitModulus fd → ∃ rs, Powers fd u rs (n + 1))))

/-! ### Encoding and decoding -/

/-- Decoding the word of a well-formed command gives it back, with every operand (spec/30_encoding.md R75, R76). -/
def Obligations.DecodeOfEncode : Prop := ∀ i : Instr, i.wellFormed = true → decode (encode i) = .ok i

/-- A word that decodes is the word of the command it decodes to, and that command is well formed: "no
reserved-but-ignored bits" (R77). -/
def Obligations.EncodeOfDecode : Prop := ∀ (w : Word) (i : Instr), decode w = .ok i → i.wellFormed = true ∧ encode i = w

/-- The decoder accepts exactly the words of the rows of spec/opcode_table.json, EDIVMOD's two destinations apart, each
as the row's command (R76, R77). -/
def Obligations.DecoderAcceptsExactlyTheTable : Prop :=
  (∀ (w : Word) (i : Instr), decode w = .ok i →
    ∃ e ∈ opcodeTable, e.1 = i.mnemonic ∧ w &&& e.2.2 = e.2.1) ∧
  ∀ w : Word, (∃ i, decode w = .ok i) ↔
    ∃ e ∈ opcodeTable, w &&& e.2.2 = e.2.1 ∧ (e.1 = "EDIVMOD" → dField w ≠ cField w)

/-- The worked encodings of R81. -/
def Obligations.WorkedEncodings : Prop :=
  decode 0x52312000#32 = .ok (.emul 3 1 2) ∧
  decode 0x10100100#32 = .ok (.pld 1 0x0100#16) ∧
  decode 0x15400010#32 = .ok (.eldb 4 0 16#16) ∧
  decode 0x1420FFFF#32 = .ok (.xli 2 (-1)) ∧
  decode 0x53512600#32 = .ok (.edivmod 5 6 1 2) ∧
  decode 0x40101200#32 = .ok (.fnew 1 0 1 2) ∧
  decode 0x01000000#32 = .ok .nop ∧
  decode 0x00000000#32 = .error .unassignedOpcode ∧
  decode 0x52312001#32 = .error .nonzeroField

/-! ### The step -/

/-- The step on a queued word is the command it decodes to, executed in the state whose queue still holds it (the model
removes the word when the command completes or faults, log 15). Who moves is said by `turns` (log 4): nobody else, the
engine, or a host access that has to wait (R32; spec/20_memory.md R60). -/
def Obligations.StepRunsDecodedCommand : Prop :=
  ∀ (s : State) (w : Word) (rest : List Word) (i : Instr), s.fault = false → s.q = w :: rest → decode w = .ok i →
    (s.turns = [] → step s = exec i s) ∧
    (∀ ts, s.turns = .engine :: ts → step s = exec i (withTurns s ts)) ∧
    (∀ access ts, s.turns = .host access :: ts → HeldWhileBusy s access → step s = exec i s)

/-- Every word that does not decode faults with code 9 and changes nothing else (R77), in each of the three turns in
which the engine takes it: nobody else's, its own (which is taken off), and that of a host access that has to wait. The
turns are the model's way to say who moves (log 4). -/
def Obligations.IllegalWordFaults : Prop :=
  ∀ (s : State) (w : Word) (rest : List Word) (e : Reject), s.fault = false → s.q = w :: rest → decode w = .error e →
    (s.turns = [] → step s = .next (faulted s 9#5)) ∧
    (∀ ts, s.turns = .engine :: ts → step s = .next (faulted (withTurns s ts) 9#5)) ∧
    (∀ access ts, s.turns = .host access :: ts → HeldWhileBusy s access → step s = .next (faulted s 9#5))

/-- "The engine has a step exactly when `Q` is not empty" (spec/10_state.md R41); with the queue empty, and in the
faulted state, the model answers a fault outcome of its own (log 7). -/
def Obligations.EngineStepsExactlyWhenQueued : Prop :=
  ∀ s : State, s.turns = [] →
    (s.fault = false → s.q ≠ [] → ∃ t, step s = .next t ∧ (t.q = s.q.tail ∨ t.q = [])) ∧
    (s.fault = false → s.q = [] → step s = .fault .idle) ∧
    (s.fault = true → step s = .fault .stopped)

/-- With the host silent the engine empties the queue in at most as many steps as it holds words
(spec/70_reset_and_hazards.md R241). -/
def Obligations.EngineDrainsQueue : Prop :=
  ∀ s : State, s.turns = [] → s.fault = false →
    ∃ k t, k ≤ s.q.length ∧ Host.Core.run Sys2Proof.core k s = .next t ∧ t.q = []

/-- Every command ends in a next state: counted (R29), its word removed and no fault recorded, or with a fault, `CSEQ`
unchanged and copied to `ESEQ` and the queue empty. `DONE` follows spec/10_state.md R33 for every command, NOP among them
(log 20). -/
def Obligations.EveryCommandEndsAndIsCounted : Prop :=
  ∀ (i : Instr) (s : State), s.fault = false →
    ∃ t, exec i s = .next t ∧
      ((t.fault = false ∧ t.cseq = s.cseq + 1#32 ∧ t.q = s.q.tail ∧ t.done = (s.done || s.q.tail.isEmpty) ∧
          t.ecode = s.ecode ∧ t.ecmd = s.ecmd ∧ t.eseq = s.eseq) ∨
        (t.fault = true ∧ t.cseq = s.cseq ∧ t.eseq = s.cseq ∧ t.q = [] ∧ t.done = true))

/-- A command that faults changes the fault record, the queue and `DONE`, and nothing else
(spec/60_exceptions.md R205, R206). -/
def Obligations.FaultsArePrecise : Prop :=
  ∀ (i : Instr) (s t : State), s.fault = false → exec i s = .next t → t.fault = true →
    ∃ code, 1 ≤ code.toNat ∧ code.toNat ≤ 16 ∧ code ≠ 2#5 ∧ code ≠ 3#5 ∧ t = faulted s code

/-- A well-formed command raises no fault but those of its row in R224, in every state that keeps the invariant. -/
def Obligations.CommandsRaiseOnlyTheirFaults : Prop :=
  ∀ (i : Instr) (s t : State), DataInv s → i.wellFormed = true → s.fault = false → exec i s = .next t →
    t.fault = true → ∃ code ∈ faultsOf i, t = faulted s code

/-- Reading an unwritten register faults with code 10 before every other check (spec/10_state.md R22, R24;
spec/60_exceptions.md R203), and no step but a soft reset makes a written register unwritten. -/
def Obligations.UnwrittenRegistersFault : Prop :=
  (∀ (i : Instr) (s : State), i.wellFormed = true → s.fault = false →
    (∃ a ∈ pSources i, s.p[a] = .unwritten) ∨ (∃ a ∈ xSources i, s.x[a] = .unwritten) →
    exec i s = .next (faulted s 10#5)) ∧
  ∀ s t : State, step s = .next t → ¬ SoftResetTurn s →
    (∀ j : PIdx, s.p[j] ≠ .unwritten → t.p[j] ≠ .unwritten) ∧ (∀ j : XIdx, s.x[j] ≠ .unwritten → t.x[j] ≠ .unwritten)

/-- A valid field slot never changes except by reset, and a slot becomes valid only by FNEW (spec/10_state.md R26). -/
def Obligations.FieldSlotsAreImmutable : Prop :=
  ∀ s t : State, step s = .next t → ¬ SoftResetTurn s →
    ∀ j : FIdx, (∀ fd, s.f[j] = .valid fd → t.f[j] = .valid fd) ∧
      (s.f[j] = .invalid → t.f[j] ≠ .invalid → ∃ a b c, decode (s.q.headD 0#32) = .ok (.fnew j a b c))

/-- Once `FAULT = 1` the engine has no step, and every step but a soft reset keeps the fault record, the registers and
the empty queue (spec/60_exceptions.md R207). -/
def Obligations.FaultedStateOnlyLeftByReset : Prop :=
  ∀ s : State, s.fault = true → s.q = [] →
    (s.turns = [] → step s = .fault .stopped) ∧
    ∀ t, step s = .next t → ¬ SoftResetTurn s →
      t.fault = true ∧ t.q = [] ∧ t.p = s.p ∧ t.x = s.x ∧ t.f = s.f ∧ t.cseq = s.cseq ∧
        t.ecode = s.ecode ∧ t.ecmd = s.ecmd ∧ t.eseq = s.eseq

/-! ### Frames -/

/-- What every command leaves unchanged, its memory apart: all registers and slots but its destinations, and the
parameters, the interrupt enables, the host's turns and the last word read. `CSEQ`, `Q`, `DONE` and the fault record are
those of `EveryCommandEndsAndIsCounted` and `FaultsArePrecise`. -/
def Obligations.FrameOfRegisters : Prop :=
  ∀ (i : Instr) (s t : State), exec i s = .next t →
    (∀ j : PIdx, j ∉ pDests i → t.p[j] = s.p[j]) ∧
    (∀ j : XIdx, j ∉ xDests i → t.x[j] = s.x[j]) ∧
    (∀ j : FIdx, j ∉ fDests i → t.f[j] = s.f[j]) ∧
    t.cfg = s.cfg ∧ t.fie = s.fie ∧ t.die = s.die ∧ t.turns = s.turns ∧ t.busRead = s.busRead

/-- The frame of a command in memory: every word of OMEM that it does not store to reads as before, all of it for a
command that stores nothing (spec/20_memory.md R50, R58). What the stored words hold is said by `PstStoresVector`,
`XstStoresScalar` and `EstbStoresByte`. -/
def Obligations.FrameOfMemory : Prop :=
  ∀ (i : Instr) (s t : State), Memory.wf s.omem = true → exec i s = .next t →
    ∀ b, ¬ StoresTo s b i → Memory.read t.omem b = Memory.read s.omem b

/-- A command that is none of the six memory commands neither reads nor writes OMEM (R50, R58): its effect is the same
whatever OMEM holds. -/
def Obligations.OmemDoesNotMatter : Prop :=
  ∀ (i : Instr) (s t : State) (m : Memory), usesMemory i = false → exec i s = .next t →
    t.omem = s.omem ∧ exec i (withOmem s m) = .next (withOmem t m)

/-! ### Invariants -/

/-- OMEM keeps its canonical form and stays inside the address space (spec/10_state.md R40; spec/20_memory.md R54). -/
def Obligations.StepKeepsMemoryInv : Prop := ∀ s t : State, MemoryInv s → step s = .next t → MemoryInv t

/-- The queue bound, the fault record and the faulted state stay as R33, R35 to R37 and R41 say. -/
def Obligations.StepKeepsControlInv : Prop := ∀ s t : State, ControlInv s → step s = .next t → ControlInv t

/-- Registers and field slots stay as R21, R23, R25, R27 and R28 say; the element invariant "holds in every reachable
state". -/
def Obligations.StepKeepsDataInv : Prop := ∀ s t : State, DataInv s → step s = .next t → DataInv t

/-- The invariants hold after reset, for every admissible choice of the parameters and every canonical content of OMEM;
that the content of OMEM is a list and `State.reset` lists nothing is the model's choice (logs 1, 3). -/
def Obligations.InvariantsHoldAtReset : Prop :=
  (∀ (cfg : Config) (m : Memory), cfg.Admissible → Memory.wf m = true → (∀ e ∈ m, e.1 < cfg.memWords) →
    MemoryInv (State.resetWith cfg m) ∧ ControlInv (State.resetWith cfg m) ∧ DataInv (State.resetWith cfg m)) ∧
  MemoryInv State.reset ∧ ControlInv State.reset ∧ DataInv State.reset

/-! ### Reset and the host -/

/-- The reset values (spec/10_state.md R43): after a hard reset with any OMEM content, and after a soft reset, which keeps
OMEM. -/
def Obligations.ResetValues : Prop :=
  ∀ (s : State) (m : Memory) (t : State), t = s.hardReset m ∨ t = s.softReset →
    (∀ j : PIdx, t.p[j] = .unwritten) ∧ (∀ j : XIdx, t.x[j] = .unwritten) ∧
    t.f[(0 : FIdx)] = .valid { p := 2, n := 8, mod := [1, 1, 0, 1, 1, 0, 0, 0, 1], ord := some 255 } ∧
    (∀ j : FIdx, j ≠ 0 → t.f[j] = .invalid) ∧
    t.cseq = 0#32 ∧ t.fault = false ∧ t.done = false ∧ t.fie = false ∧ t.die = false ∧
    t.ecode = 0#5 ∧ t.ecmd = 0#32 ∧ t.eseq = 0#32 ∧ t.q = [] ∧ t.cfg = s.cfg ∧
    (s.hardReset m).omem = m ∧ s.softReset.omem = s.omem

/-- A host write of CTRL with bit 31 set has "exactly the effect of a hard reset except that OMEM keeps its content"
(spec/70_reset_and_hazards.md R231). The model's own two fields, which stand for the host, go on (logs 4, 5). -/
def Obligations.SoftResetIsAHardResetKeepingOmem : Prop :=
  ∀ (s : State) (w : Word) (ts : List Turn), s.turns = .host (.writeCsr 2 w) :: ts → w.getLsbD 31 = true →
    step s = .next { s.hardReset s.omem with turns := ts, busRead := s.busRead }

/-- A host write of CMD (spec/10_state.md R32): discarded while `FAULT = 1`, else appended to `Q`; with `Q` full it does
not complete. That the access then stays first in `turns` while the engine moves is the model's choice (log 4). -/
def Obligations.HostPushesCommands : Prop :=
  ∀ (s : State) (w : Word) (ts : List Turn), s.turns = .host (.writeCsr 0 w) :: ts →
    (s.fault = true → step s = .next (withTurns s ts)) ∧
    (s.fault = false → s.q.length < s.cfg.qDepth →
      step s = .next { s with turns := ts, q := s.q ++ [w] }) ∧
    (s.fault = false → s.cfg.qDepth ≤ s.q.length → s.q ≠ [] →
      ∃ t, step s = .next t ∧ t.turns = s.turns ∧ (t.q = s.q.tail ∨ t.q = []))

/-- Host writes of the other CSRs: bit 2 of STATUS clears `DONE` (R33); CTRL sets `FIE` and `DIE` and ignores bits 30:2
(R34); a read-only register is not changed; "offsets 8 and above are not part of the block" (R31), where the model refuses
(log 8). -/
def Obligations.HostWritesCsrs : Prop :=
  ∀ (s : State) (k : Nat) (w : Word) (ts : List Turn), s.turns = .host (.writeCsr k w) :: ts →
    (k = 1 → step s = .next { s with turns := ts, done := s.done && !w.getLsbD 2 }) ∧
    (k = 2 → w.getLsbD 31 = false →
      step s = .next { s with turns := ts, fie := w.getLsbD 0, die := w.getLsbD 1 }) ∧
    (3 ≤ k → k ≤ 7 → step s = .next (withTurns s ts)) ∧
    (8 ≤ k → step s = .refused .csrOutside)

/-- What each CSR reads as, bit by bit, and that a read changes nothing of the block (R31, R33 to R39). The word read
goes to the model's own field `busRead` (log 5). -/
def Obligations.HostReadsCsrs : Prop :=
  ∀ (s : State) (k : Nat) (ts : List Turn), s.turns = .host (.readCsr k) :: ts → k ≤ 7 →
    ∃ w : Word, step s = .next { s with turns := ts, busRead := some w } ∧
      (k = 0 → w = 0#32) ∧
      (k = 1 → (w.getLsbD 0 = true ↔ s.q ≠ []) ∧ w.getLsbD 1 = s.fault ∧ w.getLsbD 2 = s.done ∧
        ∀ i, 3 ≤ i → w.getLsbD i = false) ∧
      (k = 2 → w.getLsbD 0 = s.fie ∧ w.getLsbD 1 = s.die ∧ ∀ i, 2 ≤ i → w.getLsbD i = false) ∧
      (k = 3 → w.toNat = s.ecode.toNat) ∧ (k = 4 → w = s.ecmd) ∧ (k = 5 → w = s.eseq) ∧ (k = 6 → w = s.cseq) ∧
      (k = 7 → w.toNat % 2 ^ 8 = 16 ∧ w.toNat / 2 ^ 8 % 2 ^ 8 = 16 ∧ w.toNat / 2 ^ 16 % 2 ^ 4 = 4 ∧
        (s.cfg.maxLen ≤ 4096 → w.toNat / 2 ^ 20 = s.cfg.maxLen - 1) ∧
        (4096 < s.cfg.maxLen → w.toNat / 2 ^ 20 = 0xFFF))

/-- Host accesses to OMEM (spec/20_memory.md R60 (b)): one word read or written while `Q` is empty; while it is not, the
access waits. That the word read goes to `busRead` (log 5), and that a waiting access stays first in `turns` while the
engine moves (log 4), are the model's choices. -/
def Obligations.HostAccessesOmemWhenIdle : Prop :=
  (∀ (s : State) (a : Nat) (ts : List Turn), s.turns = .host (.readOmem a) :: ts → s.q = [] → a < s.cfg.memWords →
    step s = .next { s with turns := ts, busRead := some (Memory.read s.omem a) }) ∧
  (∀ (s : State) (a : Nat) (w : Word) (ts : List Turn), s.turns = .host (.writeOmem a w) :: ts → s.q = [] →
    a < s.cfg.memWords → Memory.wf s.omem = true →
    ∃ m, step s = .next { s with turns := ts, omem := m } ∧
      ∀ b, Memory.read m b = if b = a then w else Memory.read s.omem b) ∧
  ∀ (s : State) (a : Nat) (w : Word) (ts : List Turn), s.fault = false → s.q ≠ [] →
    s.turns = .host (.readOmem a) :: ts ∨ s.turns = .host (.writeOmem a w) :: ts →
    ∃ t, step s = .next t ∧ t.turns = s.turns ∧ t.busRead = s.busRead ∧ (t.q = s.q.tail ∨ t.q = [])

/-- The interrupt line (spec/60_exceptions.md R215): a function of the state, 0 after reset; the done cause goes with a
write of STATUS bit 2 or with `DIE`, the fault cause only with `FIE` or a reset, both of which a write of CTRL does.
The last clause follows spec/10_state.md R33 for every command, NOP among them (log 20). -/
def Obligations.InterruptLine : Prop :=
  (∀ s : State, s.irq = true ↔ (s.fault = true ∧ s.fie = true) ∨ (s.done = true ∧ s.die = true)) ∧
  (∀ (s : State) (m : Memory), (s.hardReset m).irq = false ∧ s.softReset.irq = false) ∧
  (∀ (s t : State) (w : Word) (ts : List Turn), s.turns = .host (.writeCsr 1 w) :: ts → w.getLsbD 2 = true →
    step s = .next t → t.irq = (s.fault && s.fie)) ∧
  (∀ (s t : State) (w : Word) (ts : List Turn), s.turns = .host (.writeCsr 2 w) :: ts → w.getLsbD 31 = false →
    step s = .next t → t.irq = ((s.fault && w.getLsbD 0) || (s.done && w.getLsbD 1))) ∧
  (∀ s t : State, s.fault = true → s.fie = true → step s = .next t → (∀ w ts, s.turns ≠ .host (.writeCsr 2 w) :: ts) →
    t.irq = true) ∧
  (∀ (i : Instr) (s t : State), exec i s = .next t →
    (s.die = true → t.q = [] → t.irq = true) ∧ (s.fie = true → t.fault = true → t.irq = true))

/-! ### Laws of the arithmetic -/

/-- The laws of raw polynomial arithmetic a model may rely on (spec/42_poly_arith.md R125), for results in range and
within `MAXLEN`: equality as polynomials, and as vectors for the first two. -/
def Obligations.RawPolynomialLaws : Prop :=
  (∀ u w : Vec, padd u w = padd w u) ∧
  (∀ (n : Nat) (u w : Vec), pmul n u w = pmul n w u) ∧
  (∀ u w r x : Vec, padd u w = .ok r → psub r w = .ok x → ∀ i, co x i = co u i) ∧
  (∀ (n : Nat) (u w t r a b c e : Vec), padd w t = .ok r → pmul n u r = .ok a → pmul n u w = .ok b →
    pmul n u t = .ok c → padd b c = .ok e → ∀ i, co a i = co e i) ∧
  (∀ (n : Nat) (u w r : Vec) (du dw : Nat), pmul n u w = .ok r → IsDegree u du → IsDegree w dw → co u du ≠ 0 →
    co w dw ≠ 0 → IsDegree r (du + dw))

/-- The ring laws of the elements of one slot whose modulus has an invertible leading coefficient
(spec/44_element_addsubmul.md R151). -/
def Obligations.ElementRingLaws : Prop :=
  ∀ (fd : FieldRec) (u w v : Vec), IsField fd → UnitModulus fd → IsElement fd u → IsElement fd w → IsElement fd v →
    eadd fd u w = eadd fd w u ∧
    eadd fd (eadd fd u w) v = eadd fd u (eadd fd w v) ∧
    eadd fd u [0] = u ∧
    emul fd u w = emul fd w u ∧
    (∃ x y, emul fd u w = .ok x ∧ emul fd u v = .ok y ∧ emul fd u (eadd fd w v) = .ok (eadd fd x y)) ∧
    ((∀ i, fd.n ≤ i → co u i = 0) → emul fd u [1] = .ok u) ∧
    ∃ r, emul fd u [1] = .ok r ∧ IsProduct fd u [1] r

/-- Multiplication in the quotient ring is associative (R182: "any multiplication order ... gives the same vector"). -/
def Obligations.ElementMultiplicationAssociative : Prop :=
  ∀ (fd : FieldRec) (u w v : Vec), IsField fd → UnitModulus fd →
    ∃ x y z, emul fd u w = .ok x ∧ emul fd w v = .ok y ∧ emul fd x v = .ok z ∧ emul fd u y = .ok z

end Statements
end

