-- ==== Sys2Proof/Laws/State.lean ====
section
/-! SUPPORT. One lemma per field of State for each shared update, all by rfl, and reading back a written register. -/

namespace Sys2Proof.Machine.State

/-! ### `complete` -/

@[simp] theorem complete_cfg (s : State) : s.complete.cfg = s.cfg := rfl
@[simp] theorem complete_p (s : State) : s.complete.p = s.p := rfl
@[simp] theorem complete_x (s : State) : s.complete.x = s.x := rfl
@[simp] theorem complete_f (s : State) : s.complete.f = s.f := rfl
@[simp] theorem complete_cseq (s : State) : s.complete.cseq = s.cseq + 1#32 := rfl
@[simp] theorem complete_fault (s : State) : s.complete.fault = s.fault := rfl
@[simp] theorem complete_done (s : State) : s.complete.done = (s.done || s.q.tail.isEmpty) := rfl
@[simp] theorem complete_fie (s : State) : s.complete.fie = s.fie := rfl
@[simp] theorem complete_die (s : State) : s.complete.die = s.die := rfl
@[simp] theorem complete_ecode (s : State) : s.complete.ecode = s.ecode := rfl
@[simp] theorem complete_ecmd (s : State) : s.complete.ecmd = s.ecmd := rfl
@[simp] theorem complete_eseq (s : State) : s.complete.eseq = s.eseq := rfl
@[simp] theorem complete_q (s : State) : s.complete.q = s.q.tail := rfl
@[simp] theorem complete_omem (s : State) : s.complete.omem = s.omem := rfl
@[simp] theorem complete_turns (s : State) : s.complete.turns = s.turns := rfl
@[simp] theorem complete_busRead (s : State) : s.complete.busRead = s.busRead := rfl

/-! ### `takeFault` -/

@[simp] theorem takeFault_cfg (s : State) (c : Cause) : (s.takeFault c).cfg = s.cfg := rfl
@[simp] theorem takeFault_p (s : State) (c : Cause) : (s.takeFault c).p = s.p := rfl
@[simp] theorem takeFault_x (s : State) (c : Cause) : (s.takeFault c).x = s.x := rfl
@[simp] theorem takeFault_f (s : State) (c : Cause) : (s.takeFault c).f = s.f := rfl
@[simp] theorem takeFault_cseq (s : State) (c : Cause) : (s.takeFault c).cseq = s.cseq := rfl
@[simp] theorem takeFault_fault (s : State) (c : Cause) : (s.takeFault c).fault = true := rfl
@[simp] theorem takeFault_done (s : State) (c : Cause) : (s.takeFault c).done = true := rfl
@[simp] theorem takeFault_fie (s : State) (c : Cause) : (s.takeFault c).fie = s.fie := rfl
@[simp] theorem takeFault_die (s : State) (c : Cause) : (s.takeFault c).die = s.die := rfl
@[simp] theorem takeFault_ecode (s : State) (c : Cause) : (s.takeFault c).ecode = if s.fault then s.ecode else c.code := rfl
@[simp] theorem takeFault_ecmd (s : State) (c : Cause) : (s.takeFault c).ecmd = if s.fault then s.ecmd else s.commandWord := rfl
@[simp] theorem takeFault_eseq (s : State) (c : Cause) : (s.takeFault c).eseq = if s.fault then s.eseq else s.cseq := rfl
@[simp] theorem takeFault_q (s : State) (c : Cause) : (s.takeFault c).q = [] := rfl
@[simp] theorem takeFault_omem (s : State) (c : Cause) : (s.takeFault c).omem = s.omem := rfl
@[simp] theorem takeFault_turns (s : State) (c : Cause) : (s.takeFault c).turns = s.turns := rfl
@[simp] theorem takeFault_busRead (s : State) (c : Cause) : (s.takeFault c).busRead = s.busRead := rfl

/-! ### `writeP` -/

@[simp] theorem writeP_cfg (s : State) (i : PIdx) (tag : Option FIdx) (v : Vec) : (s.writeP i tag v).cfg = s.cfg := rfl
@[simp] theorem writeP_p (s : State) (i : PIdx) (tag : Option FIdx) (v : Vec) : (s.writeP i tag v).p = s.p.set i.val (.held tag v) i.isLt := rfl
@[simp] theorem writeP_x (s : State) (i : PIdx) (tag : Option FIdx) (v : Vec) : (s.writeP i tag v).x = s.x := rfl
@[simp] theorem writeP_f (s : State) (i : PIdx) (tag : Option FIdx) (v : Vec) : (s.writeP i tag v).f = s.f := rfl
@[simp] theorem writeP_cseq (s : State) (i : PIdx) (tag : Option FIdx) (v : Vec) : (s.writeP i tag v).cseq = s.cseq := rfl
@[simp] theorem writeP_fault (s : State) (i : PIdx) (tag : Option FIdx) (v : Vec) : (s.writeP i tag v).fault = s.fault := rfl
@[simp] theorem writeP_done (s : State) (i : PIdx) (tag : Option FIdx) (v : Vec) : (s.writeP i tag v).done = s.done := rfl
@[simp] theorem writeP_fie (s : State) (i : PIdx) (tag : Option FIdx) (v : Vec) : (s.writeP i tag v).fie = s.fie := rfl
@[simp] theorem writeP_die (s : State) (i : PIdx) (tag : Option FIdx) (v : Vec) : (s.writeP i tag v).die = s.die := rfl
@[simp] theorem writeP_ecode (s : State) (i : PIdx) (tag : Option FIdx) (v : Vec) : (s.writeP i tag v).ecode = s.ecode := rfl
@[simp] theorem writeP_ecmd (s : State) (i : PIdx) (tag : Option FIdx) (v : Vec) : (s.writeP i tag v).ecmd = s.ecmd := rfl
@[simp] theorem writeP_eseq (s : State) (i : PIdx) (tag : Option FIdx) (v : Vec) : (s.writeP i tag v).eseq = s.eseq := rfl
@[simp] theorem writeP_q (s : State) (i : PIdx) (tag : Option FIdx) (v : Vec) : (s.writeP i tag v).q = s.q := rfl
@[simp] theorem writeP_omem (s : State) (i : PIdx) (tag : Option FIdx) (v : Vec) : (s.writeP i tag v).omem = s.omem := rfl
@[simp] theorem writeP_turns (s : State) (i : PIdx) (tag : Option FIdx) (v : Vec) : (s.writeP i tag v).turns = s.turns := rfl
@[simp] theorem writeP_busRead (s : State) (i : PIdx) (tag : Option FIdx) (v : Vec) : (s.writeP i tag v).busRead = s.busRead := rfl

/-! ### `writeX` -/

@[simp] theorem writeX_cfg (s : State) (i : XIdx) (k : Int) : (s.writeX i k).cfg = s.cfg := rfl
@[simp] theorem writeX_p (s : State) (i : XIdx) (k : Int) : (s.writeX i k).p = s.p := rfl
@[simp] theorem writeX_x (s : State) (i : XIdx) (k : Int) : (s.writeX i k).x = s.x.set i.val (.held k) i.isLt := rfl
@[simp] theorem writeX_f (s : State) (i : XIdx) (k : Int) : (s.writeX i k).f = s.f := rfl
@[simp] theorem writeX_cseq (s : State) (i : XIdx) (k : Int) : (s.writeX i k).cseq = s.cseq := rfl
@[simp] theorem writeX_fault (s : State) (i : XIdx) (k : Int) : (s.writeX i k).fault = s.fault := rfl
@[simp] theorem writeX_done (s : State) (i : XIdx) (k : Int) : (s.writeX i k).done = s.done := rfl
@[simp] theorem writeX_fie (s : State) (i : XIdx) (k : Int) : (s.writeX i k).fie = s.fie := rfl
@[simp] theorem writeX_die (s : State) (i : XIdx) (k : Int) : (s.writeX i k).die = s.die := rfl
@[simp] theorem writeX_ecode (s : State) (i : XIdx) (k : Int) : (s.writeX i k).ecode = s.ecode := rfl
@[simp] theorem writeX_ecmd (s : State) (i : XIdx) (k : Int) : (s.writeX i k).ecmd = s.ecmd := rfl
@[simp] theorem writeX_eseq (s : State) (i : XIdx) (k : Int) : (s.writeX i k).eseq = s.eseq := rfl
@[simp] theorem writeX_q (s : State) (i : XIdx) (k : Int) : (s.writeX i k).q = s.q := rfl
@[simp] theorem writeX_omem (s : State) (i : XIdx) (k : Int) : (s.writeX i k).omem = s.omem := rfl
@[simp] theorem writeX_turns (s : State) (i : XIdx) (k : Int) : (s.writeX i k).turns = s.turns := rfl
@[simp] theorem writeX_busRead (s : State) (i : XIdx) (k : Int) : (s.writeX i k).busRead = s.busRead := rfl

/-! ### `writeF` -/

@[simp] theorem writeF_cfg (s : State) (i : FIdx) (r : FieldRec) : (s.writeF i r).cfg = s.cfg := rfl
@[simp] theorem writeF_p (s : State) (i : FIdx) (r : FieldRec) : (s.writeF i r).p = s.p := rfl
@[simp] theorem writeF_x (s : State) (i : FIdx) (r : FieldRec) : (s.writeF i r).x = s.x := rfl
@[simp] theorem writeF_f (s : State) (i : FIdx) (r : FieldRec) : (s.writeF i r).f = s.f.set i.val (.valid r) i.isLt := rfl
@[simp] theorem writeF_cseq (s : State) (i : FIdx) (r : FieldRec) : (s.writeF i r).cseq = s.cseq := rfl
@[simp] theorem writeF_fault (s : State) (i : FIdx) (r : FieldRec) : (s.writeF i r).fault = s.fault := rfl
@[simp] theorem writeF_done (s : State) (i : FIdx) (r : FieldRec) : (s.writeF i r).done = s.done := rfl
@[simp] theorem writeF_fie (s : State) (i : FIdx) (r : FieldRec) : (s.writeF i r).fie = s.fie := rfl
@[simp] theorem writeF_die (s : State) (i : FIdx) (r : FieldRec) : (s.writeF i r).die = s.die := rfl
@[simp] theorem writeF_ecode (s : State) (i : FIdx) (r : FieldRec) : (s.writeF i r).ecode = s.ecode := rfl
@[simp] theorem writeF_ecmd (s : State) (i : FIdx) (r : FieldRec) : (s.writeF i r).ecmd = s.ecmd := rfl
@[simp] theorem writeF_eseq (s : State) (i : FIdx) (r : FieldRec) : (s.writeF i r).eseq = s.eseq := rfl
@[simp] theorem writeF_q (s : State) (i : FIdx) (r : FieldRec) : (s.writeF i r).q = s.q := rfl
@[simp] theorem writeF_omem (s : State) (i : FIdx) (r : FieldRec) : (s.writeF i r).omem = s.omem := rfl
@[simp] theorem writeF_turns (s : State) (i : FIdx) (r : FieldRec) : (s.writeF i r).turns = s.turns := rfl
@[simp] theorem writeF_busRead (s : State) (i : FIdx) (r : FieldRec) : (s.writeF i r).busRead = s.busRead := rfl

/-! ### `store` -/

@[simp] theorem store_cfg (s : State) (a : Nat) (ws : List Word) : (s.store a ws).cfg = s.cfg := rfl
@[simp] theorem store_p (s : State) (a : Nat) (ws : List Word) : (s.store a ws).p = s.p := rfl
@[simp] theorem store_x (s : State) (a : Nat) (ws : List Word) : (s.store a ws).x = s.x := rfl
@[simp] theorem store_f (s : State) (a : Nat) (ws : List Word) : (s.store a ws).f = s.f := rfl
@[simp] theorem store_cseq (s : State) (a : Nat) (ws : List Word) : (s.store a ws).cseq = s.cseq := rfl
@[simp] theorem store_fault (s : State) (a : Nat) (ws : List Word) : (s.store a ws).fault = s.fault := rfl
@[simp] theorem store_done (s : State) (a : Nat) (ws : List Word) : (s.store a ws).done = s.done := rfl
@[simp] theorem store_fie (s : State) (a : Nat) (ws : List Word) : (s.store a ws).fie = s.fie := rfl
@[simp] theorem store_die (s : State) (a : Nat) (ws : List Word) : (s.store a ws).die = s.die := rfl
@[simp] theorem store_ecode (s : State) (a : Nat) (ws : List Word) : (s.store a ws).ecode = s.ecode := rfl
@[simp] theorem store_ecmd (s : State) (a : Nat) (ws : List Word) : (s.store a ws).ecmd = s.ecmd := rfl
@[simp] theorem store_eseq (s : State) (a : Nat) (ws : List Word) : (s.store a ws).eseq = s.eseq := rfl
@[simp] theorem store_q (s : State) (a : Nat) (ws : List Word) : (s.store a ws).q = s.q := rfl
@[simp] theorem store_omem (s : State) (a : Nat) (ws : List Word) : (s.store a ws).omem = Memory.writeList s.omem a ws := rfl
@[simp] theorem store_turns (s : State) (a : Nat) (ws : List Word) : (s.store a ws).turns = s.turns := rfl
@[simp] theorem store_busRead (s : State) (a : Nat) (ws : List Word) : (s.store a ws).busRead = s.busRead := rfl

/-! ### Reading a written register or slot -/

@[simp] theorem getElem_writeP_self (s : State) (i : PIdx) (tag : Option FIdx) (v : Vec) :
    (s.writeP i tag v).p[i] = .held tag v := by
  simp

theorem getElem_writeP_ne (s : State) {i j : PIdx} (tag : Option FIdx) (v : Vec) (h : j ≠ i) :
    (s.writeP i tag v).p[j] = s.p[j] := by
  have : i.val ≠ j.val := fun e => h (Fin.ext e.symm)
  simp [Vector.getElem_set_ne, this]

@[simp] theorem getElem_writeX_self (s : State) (i : XIdx) (k : Int) : (s.writeX i k).x[i] = .held k := by
  simp

theorem getElem_writeX_ne (s : State) {i j : XIdx} (k : Int) (h : j ≠ i) : (s.writeX i k).x[j] = s.x[j] := by
  have : i.val ≠ j.val := fun e => h (Fin.ext e.symm)
  simp [Vector.getElem_set_ne, this]

@[simp] theorem getElem_writeF_self (s : State) (i : FIdx) (r : FieldRec) : (s.writeF i r).f[i] = .valid r := by
  simp

theorem getElem_writeF_ne (s : State) {i j : FIdx} (r : FieldRec) (h : j ≠ i) : (s.writeF i r).f[j] = s.f[j] := by
  have : i.val ≠ j.val := fun e => h (Fin.ext e.symm)
  simp [Vector.getElem_set_ne, this]

end Sys2Proof.Machine.State
end

