-- ==== Sys2Proof/Laws/Ops.lean ====
section
/-! SUPPORT. What the shared operations can do, said once each: raising a fault, ending a command, reading an operand,
checking the operands of an element command, and the engine's step. -/

namespace Sys2Proof.Machine

/-! ### The exception monad -/

@[simp] theorem Except.ok_bind {ε α β : Type} (a : α) (f : α → Except ε β) : (Except.ok a >>= f) = f a := rfl

@[simp] theorem Except.error_bind {ε α β : Type} (e : ε) (f : α → Except ε β) :
    ((Except.error e : Except ε α) >>= f) = .error e := rfl

@[simp] theorem Except.pure_eq_ok {ε α : Type} (a : α) : (pure a : Except ε α) = .ok a := rfl

/-- A sequence answers a value exactly when both its parts do. -/
theorem Except.bind_eq_ok {ε α β : Type} {x : Except ε α} {f : α → Except ε β} {b : β} :
    (x >>= f) = .ok b ↔ ∃ a, x = .ok a ∧ f a = .ok b := by
  cases x <;> simp

/-- A sequence raises a fault exactly when its first part does, or its second does after it. -/
theorem Except.bind_eq_error {ε α β : Type} {x : Except ε α} {f : α → Except ε β} {e : ε} :
    (x >>= f) = .error e ↔ x = .error e ∨ ∃ a, x = .ok a ∧ f a = .error e := by
  cases x <;> simp

/-! ### Raising a fault -/

theorem raiseIf_pos {c : Prop} [Decidable c] (h : c) (e : Cause) : raiseIf c e = .error e := if_pos h

theorem raiseIf_neg {c : Prop} [Decidable c] (h : ¬ c) (e : Cause) : raiseIf c e = .ok () := if_neg h

@[simp] theorem raiseIf_eq_ok {c : Prop} [Decidable c] {e : Cause} {u : Unit} : raiseIf c e = .ok u ↔ ¬ c := by
  unfold raiseIf; split <;> simp_all

@[simp] theorem raiseIf_eq_error {c : Prop} [Decidable c] {e e' : Cause} : raiseIf c e = .error e' ↔ c ∧ e = e' := by
  unfold raiseIf; split <;> simp_all

@[simp] theorem checkAddr_eq_ok {s : State} {a : Nat} {u : Unit} : s.checkAddr a = .ok u ↔ a < s.cfg.memWords := by
  simp [State.checkAddr]

@[simp] theorem checkAddr_eq_error {s : State} {a : Nat} {e : Cause} :
    s.checkAddr a = .error e ↔ s.cfg.memWords ≤ a ∧ Cause.badAddress = e := by
  simp [State.checkAddr]

/-! ### Ending a command -/

@[simp] theorem finish_ok (s t : State) : finish s (.ok t) = .next t.complete := rfl

@[simp] theorem finish_error (s : State) (c : Cause) : finish s (.error c) = .next (s.takeFault c) := rfl

/-- Every command ends in a next state: completed, or with a fault taken in the state it started from. -/
theorem finish_eq_next {s t : State} {r : Except Cause State} :
    finish s r = .next t ↔ (∃ u, r = .ok u ∧ t = u.complete) ∨ ∃ c, r = .error c ∧ t = s.takeFault c := by
  cases r <;> simp [eq_comm]

/-! ### Reading operands -/

theorem readP_of_held {s : State} {i : PIdx} {tag : Option FIdx} {v : Vec} (h : s.p[i] = .held tag v) :
    s.readP i = .ok (tag, v) := by
  simp only [State.readP, h]

theorem readP_of_unwritten {s : State} {i : PIdx} (h : s.p[i] = .unwritten) :
    s.readP i = .error .unwrittenRegister := by
  simp only [State.readP, h]

theorem readP_eq_ok {s : State} {i : PIdx} {tag : Option FIdx} {v : Vec} :
    s.readP i = .ok (tag, v) ↔ s.p[i] = .held tag v := by
  unfold State.readP; split <;> simp_all

theorem readP_eq_error {s : State} {i : PIdx} {e : Cause} :
    s.readP i = .error e ↔ s.p[i] = .unwritten ∧ Cause.unwrittenRegister = e := by
  unfold State.readP; split <;> simp_all

theorem readVec_of_held {s : State} {i : PIdx} {tag : Option FIdx} {v : Vec} (h : s.p[i] = .held tag v) :
    s.readVec i = .ok v := by
  simp only [State.readVec, h]

theorem readVec_of_unwritten {s : State} {i : PIdx} (h : s.p[i] = .unwritten) :
    s.readVec i = .error .unwrittenRegister := by
  simp only [State.readVec, h]

theorem readVec_eq_ok {s : State} {i : PIdx} {v : Vec} :
    s.readVec i = .ok v ↔ ∃ tag, s.p[i] = .held tag v := by
  unfold State.readVec; split <;> simp_all

theorem readVec_eq_error {s : State} {i : PIdx} {e : Cause} :
    s.readVec i = .error e ↔ s.p[i] = .unwritten ∧ Cause.unwrittenRegister = e := by
  unfold State.readVec; split <;> simp_all

theorem readX_of_held {s : State} {i : XIdx} {k : Int} (h : s.x[i] = .held k) : s.readX i = .ok k := by
  simp only [State.readX, h]

theorem readX_of_unwritten {s : State} {i : XIdx} (h : s.x[i] = .unwritten) :
    s.readX i = .error .unwrittenRegister := by
  simp only [State.readX, h]

theorem readX_eq_ok {s : State} {i : XIdx} {k : Int} : s.readX i = .ok k ↔ s.x[i] = .held k := by
  unfold State.readX; split <;> simp_all

theorem readX_eq_error {s : State} {i : XIdx} {e : Cause} :
    s.readX i = .error e ↔ s.x[i] = .unwritten ∧ Cause.unwrittenRegister = e := by
  unfold State.readX; split <;> simp_all

theorem readF_of_valid {s : State} {i : FIdx} {r : FieldRec} (h : s.f[i] = .valid r) : s.readF i = .ok r := by
  simp only [State.readF, h]

theorem readF_of_invalid {s : State} {i : FIdx} (h : s.f[i] = .invalid) : s.readF i = .error .invalidField := by
  simp only [State.readF, h]

theorem readF_eq_ok {s : State} {i : FIdx} {r : FieldRec} : s.readF i = .ok r ↔ s.f[i] = .valid r := by
  unfold State.readF; split <;> simp_all

theorem readF_eq_error {s : State} {i : FIdx} {e : Cause} :
    s.readF i = .error e ↔ s.f[i] = .invalid ∧ Cause.invalidField = e := by
  unfold State.readF; split <;> simp_all

@[simp] theorem elementTag_some (f : FIdx) : elementTag (some f) = .ok f := rfl

@[simp] theorem elementTag_none : elementTag none = .error .notElement := rfl

theorem elementTag_eq_ok {tag : Option FIdx} {f : FIdx} : elementTag tag = .ok f ↔ tag = some f := by
  cases tag <;> simp [elementTag]

/-- `elems(a)` answers exactly the element `P[a]` holds. -/
theorem elems1_eq_ok {s : State} {a : PIdx} {t : FIdx} {u : Vec} :
    s.elems1 a = .ok (t, u) ↔ s.p[a] = .held (some t) u := by
  cases h : s.p[a] with
  | unwritten => simp [State.elems1, readP_of_unwritten h]
  | held tag v => cases tag <;> simp [State.elems1, readP_of_held h]

/-- `elems(a)` raises `UnwrittenRegister`, then `NotElement`, and nothing else. -/
theorem elems1_eq_error {s : State} {a : PIdx} {e : Cause} :
    s.elems1 a = .error e ↔
      (s.p[a] = .unwritten ∧ e = .unwrittenRegister) ∨ (∃ v, s.p[a] = .held none v ∧ e = .notElement) := by
  cases h : s.p[a] with
  | unwritten => simp [State.elems1, readP_of_unwritten h, eq_comm]
  | held tag v => cases tag <;> simp [State.elems1, readP_of_held h, eq_comm]

/-- `elems(a, b)` answers exactly when both registers hold elements of one slot. -/
theorem elems2_eq_ok {s : State} {a b : PIdx} {t : FIdx} {u w : Vec} :
    s.elems2 a b = .ok (t, u, w) ↔ s.p[a] = .held (some t) u ∧ s.p[b] = .held (some t) w := by
  cases ha : s.p[a] with
  | unwritten => simp [State.elems2, readP_of_unwritten ha]
  | held ta ua =>
    cases hb : s.p[b] with
    | unwritten => simp [State.elems2, readP_of_held ha, readP_of_unwritten hb]
    | held tb wb =>
      cases ta with
      | none => simp [State.elems2, readP_of_held ha, readP_of_held hb]
      | some fa =>
        cases tb with
        | none => simp [State.elems2, readP_of_held ha, readP_of_held hb]
        | some fb =>
          by_cases hf : fa = fb
          · subst hf
            simp only [State.elems2, readP_of_held ha, readP_of_held hb, Except.ok_bind, elementTag_some,
              raiseIf_neg (not_not_intro rfl), Except.pure_eq_ok, Except.ok.injEq, Prod.mk.injEq, PReg.held.injEq,
              Option.some.injEq]
            tauto
          · simp only [State.elems2, readP_of_held ha, readP_of_held hb, Except.ok_bind, elementTag_some,
              raiseIf_pos hf, Except.error_bind, PReg.held.injEq, Option.some.injEq, reduceCtorEq, false_iff]
            rintro ⟨⟨rfl, -⟩, rfl, -⟩
            exact hf rfl

/-- `elems(a, b)` raises `UnwrittenRegister`, then `NotElement`, then `FieldMismatch`, and nothing else. -/
theorem elems2_eq_error {s : State} {a b : PIdx} {e : Cause} (h : s.elems2 a b = .error e) :
    (e = .unwrittenRegister ∧ (s.p[a] = .unwritten ∨ s.p[b] = .unwritten)) ∨
    (e = .notElement ∧ ∃ ta u tb w, s.p[a] = .held ta u ∧ s.p[b] = .held tb w ∧ (ta = none ∨ tb = none)) ∨
    (e = .fieldMismatch ∧ ∃ f u g w, s.p[a] = .held (some f) u ∧ s.p[b] = .held (some g) w ∧ f ≠ g) := by
  cases ha : s.p[a] with
  | unwritten => simp [State.elems2, readP_of_unwritten ha] at h; simp [h.symm]
  | held ta ua =>
    cases hb : s.p[b] with
    | unwritten => simp [State.elems2, readP_of_held ha, readP_of_unwritten hb] at h; simp [h.symm]
    | held tb wb =>
      cases ta with
      | none => simp [State.elems2, readP_of_held ha, readP_of_held hb] at h; simp [h.symm]
      | some fa =>
        cases tb with
        | none => simp [State.elems2, readP_of_held ha, readP_of_held hb] at h; simp [h.symm]
        | some fb =>
          by_cases hf : fa = fb
          · subst hf
            simp [State.elems2, readP_of_held ha, readP_of_held hb, raiseIf] at h
          · simp [State.elems2, readP_of_held ha, readP_of_held hb, raiseIf, hf] at h
            simp [h.symm, hf]

/-! ### The engine -/

/-- The engine's step on the oldest word of `Q`. -/
theorem engineStep_of_head {s : State} {w : Word} {rest : List Word} (hf : s.fault = false) (hq : s.q = w :: rest) :
    engineStep s = runWord s w := by
  simp [engineStep, hf, hq]

theorem runWord_of_decode {s : State} {w : Word} {i : Instr} (h : decode w = .ok i) : runWord s w = exec i s := by
  simp [runWord, h]

theorem runWord_of_reject {s : State} {w : Word} {e : Reject} (h : decode w = .error e) :
    runWord s w = .next (s.takeFault .illegalCommand) := by
  simp [runWord, h]

/-- Everything one step can be: an engine step, a passed engine turn, or a host access that is not held. -/
theorem step_cases (s : State) :
    step s = engineStep s ∨
    (∃ rest, s.turns = .engine :: rest ∧
      (step s = engineStep { s with turns := rest } ∨ step s = .next { s with turns := rest })) ∨
    (∃ access rest, s.turns = .host access :: rest ∧ s.holds access = false ∧
      step s = State.hostStep { s with turns := rest } access) := by
  unfold step takeTurn
  split
  · exact .inl rfl
  · next rest h =>
    refine .inr (.inl ⟨rest, h, ?_⟩)
    split
    · exact .inl rfl
    · exact .inr rfl
  · next access rest h =>
    cases hh : s.holds access
    · exact .inr (.inr ⟨access, rest, h, hh, by simp⟩)
    · exact .inl (by simp)

end Sys2Proof.Machine
end

