-- ==== Sys2Proof/Laws/Vec.lean ====
section
/-! SUPPORT. The laws of the vector primitives: every function is known by its coefficients (`co_…`) and by its length,
and two trimmed vectors with the same coefficients are equal. -/

namespace Sys2Proof.Machine

/-! ### Coefficients -/

@[simp] theorem co_nil (i : Nat) : co [] i = 0 := rfl

@[simp] theorem co_cons_zero (c : Int) (cs : Vec) : co (c :: cs) 0 = c := rfl

@[simp] theorem co_cons_succ (c : Int) (cs : Vec) (i : Nat) : co (c :: cs) (i + 1) = co cs i := by
  simp [co]

theorem co_of_length_le {v : Vec} {i : Nat} (h : v.length ≤ i) : co v i = 0 := by
  simp [co, List.getElem?_eq_none h]

theorem co_eq_getElem {v : Vec} {i : Nat} (h : i < v.length) : co v i = v[i] := by
  simp [co, h]

theorem co_mem {v : Vec} {i : Nat} (h : i < v.length) : co v i ∈ v := by
  rw [co_eq_getElem h]; exact List.getElem_mem h

theorem mem_iff_co {v : Vec} {c : Int} : c ∈ v ↔ ∃ i, i < v.length ∧ co v i = c := by
  constructor
  · intro h
    obtain ⟨i, hi, rfl⟩ := List.getElem_of_mem h
    exact ⟨i, hi, co_eq_getElem hi⟩
  · rintro ⟨i, hi, rfl⟩
    exact co_mem hi

theorem co_map {v : Vec} {f : Int → Int} (hf : f 0 = 0) (i : Nat) : co (v.map f) i = f (co v i) := by
  rcases Nat.lt_or_ge i v.length with h | h
  · rw [co_eq_getElem (by simpa using h), co_eq_getElem h, List.getElem_map]
  · rw [co_of_length_le (by simpa using h), co_of_length_le h, hf]

theorem co_map_range (n : Nat) (f : Nat → Int) (i : Nat) :
    co ((List.range n).map f) i = if i < n then f i else 0 := by
  split
  · next h => rw [co_eq_getElem (by simpa using h)]; simp
  · next h => rw [co_of_length_le (by simpa using h)]

theorem co_take (v : Vec) (n i : Nat) : co (v.take n) i = if i < n then co v i else 0 := by
  split
  · next h => simp [co, h]
  · next h => exact co_of_length_le (by simp; omega)

theorem co_replicate_zero (n i : Nat) : co (List.replicate n 0) i = 0 := by
  simp only [co, List.getD_eq_getElem?_getD, List.getElem?_replicate]
  split <;> rfl

theorem co_set (v : Vec) (k : Nat) (c : Int) (i : Nat) :
    co (v.set k c) i = if i = k ∧ k < v.length then c else co v i := by
  simp only [co, List.getD_eq_getElem?_getD, List.getElem?_set]
  by_cases h : k = i
  · subst h
    by_cases hk : k < v.length <;> simp [hk]
  · simp [h, Ne.symm h]

/-- Two vectors of one length with the same coefficients are equal. -/
theorem ext_co {u w : Vec} (hl : u.length = w.length) (h : ∀ i, co u i = co w i) : u = w := by
  refine List.ext_getElem hl fun i h1 h2 => ?_
  rw [← co_eq_getElem h1, ← co_eq_getElem h2, h]

/-! ### Zero, one, degree -/

theorem iszero_iff {v : Vec} : iszero v = true ↔ ∀ i, co v i = 0 := by
  constructor
  · intro h i
    rcases Nat.lt_or_ge i v.length with hi | hi
    · have := List.all_eq_true.mp h _ (co_mem hi)
      simpa using this
    · exact co_of_length_le hi
  · intro h
    refine List.all_eq_true.mpr fun c hc => ?_
    obtain ⟨i, _, rfl⟩ := mem_iff_co.mp hc
    simp [h i]

theorem iszero_eq_false_iff {v : Vec} : iszero v = false ↔ ∃ i, co v i ≠ 0 := by
  rw [← Bool.not_eq_true, iszero_iff]; push Not; rfl

theorem isone_iff {v : Vec} : isone v = true ↔ co v 0 = 1 ∧ ∀ i, 1 ≤ i → co v i = 0 := by
  cases v with
  | nil => simp [isone]
  | cons c cs =>
    simp only [isone, Bool.and_eq_true, beq_iff_eq, iszero_iff, co_cons_zero]
    refine and_congr_right fun _ => ⟨fun h i hi => ?_, fun h i => ?_⟩
    · obtain ⟨k, rfl⟩ := Nat.exists_eq_add_of_le' hi
      simpa using h k
    · simpa using h (i + 1) (by omega)

/-- Above the degree every coefficient is 0. -/
theorem co_of_degree_lt {v : Vec} {i : Nat} (h : degree v < i) : co v i = 0 := by
  induction v generalizing i with
  | nil => rfl
  | cons c cs ih =>
    obtain ⟨k, rfl⟩ : ∃ k, i = k + 1 := ⟨i - 1, by omega⟩
    rw [co_cons_succ]
    simp only [degree] at h
    split at h
    · next hz => exact iszero_iff.mp hz k
    · exact ih (by omega)

/-- The leading coefficient of a non-zero vector is not 0. -/
theorem lead_ne_zero {v : Vec} (h : iszero v = false) : co v (degree v) ≠ 0 := by
  induction v with
  | nil => simp [iszero] at h
  | cons c cs ih =>
    simp only [degree]
    split
    · next hz =>
      obtain ⟨i, hi⟩ := iszero_eq_false_iff.mp h
      cases i with
      | zero => simpa using hi
      | succ k => exact absurd (iszero_iff.mp hz k) (by simpa using hi)
    · next hz => rw [co_cons_succ]; exact ih (by simpa using hz)

theorem degree_of_iszero {v : Vec} (h : iszero v = true) : degree v = 0 := by
  cases v with
  | nil => rfl
  | cons c cs =>
    simp only [degree, ite_eq_left_iff]
    intro hz
    refine absurd (iszero_iff.mpr fun i => ?_) hz
    simpa using iszero_iff.mp h (i + 1)

theorem degree_lt_length {v : Vec} (h : v ≠ []) : degree v < v.length := by
  induction v with
  | nil => exact absurd rfl h
  | cons c cs ih =>
    simp only [degree]
    split
    · simp
    · next hz =>
      have : cs ≠ [] := by rintro rfl; simp [iszero] at hz
      have := ih this
      simp; omega

theorem degree_le_of_co {v : Vec} {n : Nat} (h : ∀ i, n < i → co v i = 0) : degree v ≤ n := by
  by_contra hn
  have hz : iszero v = false := by
    by_contra hz
    rw [Bool.not_eq_false] at hz
    rw [degree_of_iszero hz] at hn; omega
  exact lead_ne_zero hz (h _ (by omega))

/-- `degree` is the degree in the words of R11. -/
theorem isDegree_degree (v : Vec) : IsDegree v (degree v) := by
  cases h : iszero v
  · exact .inl ⟨lead_ne_zero h, fun i hi => co_of_degree_lt hi⟩
  · exact .inr ⟨degree_of_iszero h, iszero_iff.mp h⟩

/-- The degree in the words of R11 is unique. -/
theorem degree_of_isDegree {v : Vec} {k : Nat} (h : IsDegree v k) : degree v = k := by
  rcases h with ⟨hk, hi⟩ | ⟨rfl, hz⟩
  · refine le_antisymm (degree_le_of_co hi) ?_
    by_contra hlt
    exact hk (co_of_degree_lt (by omega))
  · exact degree_of_iszero (iszero_iff.mpr hz)

/-! ### Trimming -/

@[simp] theorem co_trim (v : Vec) (i : Nat) : co (trim v) i = co v i := by
  rw [trim, co_take]
  split
  · rfl
  · exact (co_of_degree_lt (by omega)).symm

theorem length_trim {v : Vec} (h : v ≠ []) : (trim v).length = degree v + 1 := by
  have := degree_lt_length h
  simp [trim]; omega

theorem length_trim_le (v : Vec) : (trim v).length ≤ v.length := by
  simp [trim]

theorem mem_of_mem_trim {v : Vec} {c : Int} (h : c ∈ trim v) : c ∈ v := List.mem_of_mem_take h

theorem trimmed_trim {v : Vec} (h : v ≠ []) : Trimmed (trim v) := by
  have hl := length_trim h
  refine ⟨by intro e; simp [e] at hl, ?_⟩
  rw [hl]
  cases hz : iszero v
  · right
    simpa using lead_ne_zero hz
  · left
    rw [degree_of_iszero hz]

theorem Trimmed.degree_eq {v : Vec} (h : Trimmed v) : degree v = v.length - 1 := by
  obtain ⟨hne, h1 | h1⟩ := h
  · have := degree_lt_length hne; omega
  · refine le_antisymm (degree_le_of_co fun i hi => co_of_length_le (by omega)) ?_
    by_contra hlt
    exact h1 (co_of_degree_lt (by omega))

theorem Trimmed.length_eq {v : Vec} (h : Trimmed v) : v.length = degree v + 1 := by
  have := h.degree_eq
  have := List.length_pos_of_ne_nil h.1
  omega

/-- A trimmed vector is its own trim. -/
theorem Trimmed.trim_eq {v : Vec} (h : Trimmed v) : trim v = v := by
  rw [trim, ← h.length_eq, List.take_length]

/-- Trimmed vectors with the same coefficients are equal. -/
theorem Trimmed.ext {u w : Vec} (hu : Trimmed u) (hw : Trimmed w) (h : ∀ i, co u i = co w i) : u = w := by
  have hd : degree u = degree w := by
    refine degree_of_isDegree ?_
    rcases isDegree_degree w with ⟨h1, h2⟩ | ⟨h1, h2⟩
    · exact .inl ⟨by rwa [h], fun i hi => by rw [h, h2 i hi]⟩
    · exact .inr ⟨h1, fun i => by rw [h, h2]⟩
  exact ext_co (by rw [hu.length_eq, hw.length_eq, hd]) h

theorem Trimmed.eq_zero {v : Vec} (h : Trimmed v) (hz : iszero v = true) : v = [0] :=
  h.ext ⟨by simp, .inl rfl⟩ fun i => by rw [iszero_iff.mp hz i]; cases i <;> simp

theorem trimmed_singleton (c : Int) : Trimmed [c] := ⟨by simp, .inl rfl⟩

/-- `degm` of a trimmed non-zero vector is its length less 1. -/
theorem degm_of_not_iszero {v : Vec} (h : iszero v = false) : degm v = degree v := by simp [degm, h]

theorem degm_of_iszero {v : Vec} (h : iszero v = true) : degm v = -1 := by simp [degm, h]

/-- `degm(v) < n` says that every coefficient from `n` up is 0. -/
theorem degm_lt_iff {v : Vec} {n : Nat} : degm v < n ↔ ∀ i, n ≤ i → co v i = 0 := by
  cases h : iszero v
  · rw [degm_of_not_iszero h]
    constructor
    · intro hd i hi
      exact co_of_degree_lt (by omega)
    · intro hc
      by_contra hn
      exact lead_ne_zero h (hc _ (by omega))
  · rw [degm_of_iszero h]
    exact ⟨fun _ i _ => iszero_iff.mp h i, fun _ => by omega⟩

/-! ### Reduction modulo p -/

@[simp] theorem cmod_zero (p : Int) : cmod 0 p = 0 := by simp [cmod]

theorem cmod_nonneg {p : Int} (hp : 2 ≤ p) (c : Int) : 0 ≤ cmod c p := Int.emod_nonneg _ (by omega)

theorem cmod_lt {p : Int} (hp : 2 ≤ p) (c : Int) : cmod c p < p := Int.emod_lt_of_pos _ (by omega)

theorem dvd_sub_cmod (c p : Int) : p ∣ c - cmod c p := Int.dvd_self_sub_emod

theorem cmod_of_lt {c p : Int} (h0 : 0 ≤ c) (h1 : c < p) : cmod c p = c := Int.emod_eq_of_lt h0 h1

theorem cmod_eq_zero_iff {c p : Int} : cmod c p = 0 ↔ p ∣ c := (Int.dvd_iff_emod_eq_zero).symm

@[simp] theorem co_enorm (p : Int) (v : Vec) (i : Nat) : co (enorm p v) i = cmod (co v i) p := by
  rw [enorm, co_trim, co_map (f := fun c => cmod c p) (cmod_zero p)]

theorem trimmed_enorm (p : Int) {v : Vec} (h : v ≠ []) : Trimmed (enorm p v) := trimmed_trim (by simpa using h)

theorem reduced_enorm {p : Int} (hp : 2 ≤ p) (v : Vec) : Reduced p (enorm p v) := by
  intro c hc
  obtain ⟨x, _, rfl⟩ := List.mem_map.mp (mem_of_mem_trim hc)
  exact ⟨cmod_nonneg hp x, cmod_lt hp x⟩

theorem length_enorm_le (p : Int) (v : Vec) : (enorm p v).length ≤ v.length := by
  simpa [enorm] using length_trim_le (v.map fun c => cmod c p)

theorem Reduced.co_bounds {p : Int} {v : Vec} (h : Reduced p v) (hp : 2 ≤ p) (i : Nat) :
    0 ≤ co v i ∧ co v i < p := by
  rcases Nat.lt_or_ge i v.length with hi | hi
  · exact h _ (co_mem hi)
  · rw [co_of_length_le hi]; omega

/-- The normalizer changes nothing on a reduced trimmed vector (R140). -/
theorem enorm_of_reduced {p : Int} {v : Vec} (ht : Trimmed v) (hr : Reduced p v) : enorm p v = v := by
  have : v.map (fun c => cmod c p) = v :=
    (List.map_congr_left fun c hc => cmod_of_lt (hr c hc).1 (hr c hc).2).trans (List.map_id' v)
  rw [enorm, this, ht.trim_eq]

/-! ### Sums and differences -/

theorem co_sumVec (n : Nat) (u w : Vec) (i : Nat) :
    co (sumVec n u w) i = if i < n then co u i + co w i else 0 := co_map_range n _ i

theorem co_diffVec (n : Nat) (u w : Vec) (i : Nat) :
    co (diffVec n u w) i = if i < n then co u i - co w i else 0 := co_map_range n _ i

@[simp] theorem length_sumVec (n : Nat) (u w : Vec) : (sumVec n u w).length = n := by simp [sumVec]

@[simp] theorem length_diffVec (n : Nat) (u w : Vec) : (diffVec n u w).length = n := by simp [diffVec]

theorem co_sumVec_length (u w : Vec) (i : Nat) : co (sumVec (max u.length w.length) u w) i = co u i + co w i := by
  rw [co_sumVec]
  split
  · rfl
  · next h => rw [co_of_length_le (by omega), co_of_length_le (v := w) (by omega)]; rfl

theorem co_diffVec_length (u w : Vec) (i : Nat) : co (diffVec (max u.length w.length) u w) i = co u i - co w i := by
  rw [co_diffVec]
  split
  · rfl
  · next h => rw [co_of_length_le (by omega), co_of_length_le (v := w) (by omega)]; rfl

theorem rangeChecked_eq_ok {r r' : Vec} : rangeChecked r = .ok r' ↔ (∀ c ∈ r, InRange c) ∧ r = r' := by
  unfold rangeChecked
  split
  · next h => simp only [Except.ok.injEq]; exact ⟨fun e => ⟨h, e⟩, fun e => e.2⟩
  · next h => simp only [reduceCtorEq, false_iff]; exact fun e => h e.1

theorem rangeChecked_eq_error {r : Vec} {e : Cause} :
    rangeChecked r = .error e ↔ (∃ c ∈ r, ¬ InRange c) ∧ Cause.overflow = e := by
  unfold rangeChecked; split <;> simp_all

/-! ### Convolution -/

theorem convCo_eq_sum (u w : Vec) (k : Nat) :
    convCo u w k = ∑ i ∈ Finset.range (k + 1), co u i * co w (k - i) := by
  rw [convCo, ← List.sum_toFinset _ List.nodup_range, List.toFinset_range]

theorem convCo_eq_zero {u w : Vec} {k : Nat} (h : degree u + degree w < k) : convCo u w k = 0 := by
  rw [convCo_eq_sum]
  refine Finset.sum_eq_zero fun i _ => ?_
  rcases Nat.lt_or_ge (degree u) i with hi | hi
  · rw [co_of_degree_lt hi, zero_mul]
  · rw [co_of_degree_lt (v := w) (by omega), mul_zero]

theorem convCo_of_iszero {u w : Vec} (h : iszero u = true ∨ iszero w = true) (k : Nat) : convCo u w k = 0 := by
  rw [convCo_eq_sum]
  refine Finset.sum_eq_zero fun i _ => ?_
  rcases h with h | h
  · rw [iszero_iff.mp h, zero_mul]
  · rw [iszero_iff.mp h, mul_zero]

theorem convCo_comm (u w : Vec) (k : Nat) : convCo u w k = convCo w u k := by
  rw [convCo_eq_sum, convCo_eq_sum, ← Finset.sum_range_reflect]
  refine Finset.sum_congr rfl fun i hi => ?_
  have : i < k + 1 := Finset.mem_range.mp hi
  rw [show k + 1 - 1 - i = k - i by omega, show k - (k - i) = i by omega, mul_comm]

/-- The product's coefficients are those of the convolution. -/
theorem co_pmulExact (u w : Vec) (k : Nat) : co (pmulExact u w) k = convCo u w k := by
  unfold pmulExact
  split
  · next h =>
    rw [convCo_of_iszero (by simpa using h)]
    cases k <;> simp
  · rw [co_map_range]
    split
    · rfl
    · exact (convCo_eq_zero (by omega)).symm

theorem pmulExact_ne_nil (u w : Vec) : pmulExact u w ≠ [] := by
  unfold pmulExact; split <;> simp

theorem length_pmulExact_le (u w : Vec) : (pmulExact u w).length ≤ degree u + degree w + 1 := by
  unfold pmulExact; split <;> simp

/-- The coefficient of a product at the sum of the degrees is the product of the leading coefficients. -/
theorem convCo_degree (u w : Vec) : convCo u w (degree u + degree w) = lead u * lead w := by
  rw [convCo_eq_sum, Finset.sum_eq_single (degree u)]
  · rw [Nat.add_sub_cancel_left]; rfl
  · intro i _ hi
    rcases Nat.lt_or_ge (degree u) i with hlt | hge
    · rw [co_of_degree_lt hlt, zero_mul]
    · rw [co_of_degree_lt (v := w) (by omega), mul_zero]
  · intro hn; exact absurd (Finset.mem_range.mpr (by omega)) hn

/-- "The result is already trimmed" (R123). -/
theorem trimmed_pmulExact (u w : Vec) : Trimmed (pmulExact u w) := by
  refine ⟨pmulExact_ne_nil u w, ?_⟩
  by_cases h : (iszero u || iszero w) = true
  · left; simp [pmulExact, h]
  · right
    have hl : (pmulExact u w).length = degree u + degree w + 1 := by simp [pmulExact, h]
    rw [Bool.or_eq_true, not_or, Bool.not_eq_true, Bool.not_eq_true] at h
    rw [co_pmulExact, hl, Nat.add_sub_cancel, convCo_degree]
    exact mul_ne_zero (lead_ne_zero h.1) (lead_ne_zero h.2)

theorem pmulExact_comm (u w : Vec) : pmulExact u w = pmulExact w u :=
  (trimmed_pmulExact u w).ext (trimmed_pmulExact w u) fun i => by rw [co_pmulExact, co_pmulExact, convCo_comm]

end Sys2Proof.Machine
end

