-- ==== Sys2Proof/Laws/Commands.lean ====
section
/-! SUPPORT. What a command can do, said once: it ends (`exec_eq_finish`), and when it completes it has written its
destinations and nothing else (`Writes`). -/

namespace Sys2Proof.Machine

/-! ### Which faults can be raised at all (spec/60_exceptions.md R201) -/

/-- The causes a command can raise: codes 2 and 3 are reserved. -/
abbrev Raisable (c : Cause) : Prop := c ≠ .invalidMonomial ∧ c ≠ .duplicatePower

/-- Whatever the computation raises is raisable. -/
structure Raises {α : Type} (x : Except Cause α) : Prop where
  raisable : ∀ c, x = .error c → Raisable c

theorem raises_ok {α : Type} (a : α) : Raises (.ok a) := ⟨fun _ h => by cases h⟩

theorem raises_error {α : Type} {c : Cause} (h : Raisable c) : Raises (.error c : Except Cause α) :=
  ⟨fun _ e => by cases e; exact h⟩

theorem raises_bind {α β : Type} {x : Except Cause α} {f : α → Except Cause β} (hx : Raises x)
    (hf : ∀ a, Raises (f a)) : Raises (x >>= f) :=
  ⟨fun _ h => (Except.bind_eq_error.mp h).elim (hx.raisable _) fun ⟨a, _, h⟩ => (hf a).raisable _ h⟩

theorem raises_raiseIf {p : Prop} [Decidable p] {c : Cause} (h : Raisable c) : Raises (raiseIf p c) :=
  ⟨fun _ e => by obtain ⟨_, rfl⟩ := raiseIf_eq_error.mp e; exact h⟩

theorem raises_checkAddr (s : State) (a : Nat) : Raises (s.checkAddr a) := raises_raiseIf (by decide)

theorem raises_readP (s : State) (i : PIdx) : Raises (s.readP i) :=
  ⟨fun _ h => by obtain ⟨_, rfl⟩ := readP_eq_error.mp h; decide⟩

theorem raises_readVec (s : State) (i : PIdx) : Raises (s.readVec i) :=
  ⟨fun _ h => by obtain ⟨_, rfl⟩ := readVec_eq_error.mp h; decide⟩

theorem raises_readX (s : State) (i : XIdx) : Raises (s.readX i) :=
  ⟨fun _ h => by obtain ⟨_, rfl⟩ := readX_eq_error.mp h; decide⟩

theorem raises_readF (s : State) (i : FIdx) : Raises (s.readF i) :=
  ⟨fun _ h => by obtain ⟨_, rfl⟩ := readF_eq_error.mp h; decide⟩

theorem raises_elementTag (t : Option FIdx) : Raises (elementTag t) := by
  cases t with
  | none => exact raises_error (by decide)
  | some f => exact raises_ok f

theorem raises_elems1 (s : State) (a : PIdx) : Raises (s.elems1 a) :=
  raises_bind (raises_readP s a) fun _ => raises_bind (raises_elementTag _) fun _ => raises_ok _

theorem raises_elems2 (s : State) (a b : PIdx) : Raises (s.elems2 a b) :=
  raises_bind (raises_readP s a) fun _ => raises_bind (raises_readP s b) fun _ =>
    raises_bind (raises_elementTag _) fun _ => raises_bind (raises_elementTag _) fun _ =>
      raises_bind (raises_raiseIf (by decide)) fun _ => raises_ok _

theorem raises_invP (p c : Int) : Raises (invP p c) := by
  unfold invP
  split
  split
  · exact raises_ok _
  · exact raises_error (by decide)

theorem raises_divmod (fd : FieldRec) (a b : Vec) : Raises (divmod fd a b) := by
  unfold divmod
  split
  · exact raises_ok _
  · split
    · exact raises_error (by decide)
    · split
      · exact raises_ok _
      · exact raises_bind (raises_invP _ _) fun _ => raises_ok _

theorem raises_emul (fd : FieldRec) (u w : Vec) : Raises (emul fd u w) :=
  raises_bind (raises_divmod _ _ _) fun _ => raises_ok _

theorem raises_einvLoop (fd : FieldRec) (fuel : Nat) (e : EuclidVars) : Raises (einvLoop fd fuel e) := by
  induction fuel generalizing e with
  | zero => exact raises_ok e
  | succ fuel ih =>
    unfold einvLoop
    split
    · exact raises_ok e
    · exact raises_bind (raises_bind (raises_divmod _ _ _) fun _ => raises_bind (raises_emul _ _ _) fun _ =>
        raises_bind (raises_emul _ _ _) fun _ => raises_ok _) fun e' => ih e'

theorem raises_einv (fd : FieldRec) (e : Vec) : Raises (einv fd e) := by
  unfold einv
  split
  · exact raises_error (by decide)
  · exact raises_bind (raises_einvLoop _ _ _) fun _ => raises_bind (raises_raiseIf (by decide)) fun _ =>
      raises_bind (raises_invP _ _) fun _ => raises_emul _ _ _

theorem raises_slotOrder (fd : FieldRec) : Raises (slotOrder fd) := by
  unfold slotOrder
  split
  · exact raises_error (by decide)
  · exact raises_ok _

theorem raises_epowLoop (fd : FieldRec) (u : Vec) (k : Nat) (r : Vec) : Raises (epowLoop fd u k r) := by
  induction k generalizing r with
  | zero => exact raises_ok r
  | succ k ih =>
    unfold epowLoop
    split
    · exact ih _
    · next h => exact raises_error ((raises_emul fd r u).raisable _ h)

theorem raises_eordLoop (fd : FieldRec) (u : Vec) (fuel k : Nat) (r : Vec) : Raises (eordLoop fd u fuel k r) := by
  induction fuel generalizing k r with
  | zero => exact raises_ok 0
  | succ fuel ih =>
    unfold eordLoop
    split
    · exact raises_ok _
    · split
      · exact ih _ _
      · next h => exact raises_error ((raises_emul fd r u).raisable _ h)

theorem raises_eord (fd : FieldRec) (ord : Int) (u : Vec) : Raises (eord fd ord u) := by
  unfold eord
  split
  · exact raises_ok 0
  · exact raises_bind (raises_emul _ _ _) fun _ => raises_eordLoop _ _ _ _ _

theorem raises_rangeChecked (r : Vec) : Raises (rangeChecked r) :=
  ⟨fun _ h => by obtain ⟨_, rfl⟩ := rangeChecked_eq_error.mp h; decide⟩

theorem raises_pmul (n : Nat) (u w : Vec) : Raises (pmul n u w) := by
  unfold pmul
  split
  · exact raises_ok _
  · split
    · exact raises_error (by decide)
    · exact raises_rangeChecked _

/-! ### What a completed command has written -/

/-- The state a completed command has written, before it is counted. -/
def Writes (s u : State) : Instr → Prop
  | .nop => u = s
  | .pld d _ => ∃ v, u = s.writeP d none v
  | .pst d addr => ∃ tag v, s.p[d] = .held tag v ∧ addr.toNat + v.length < s.cfg.memWords ∧
      u = s.store addr.toNat (vectorWords v)
  | .xld d _ => ∃ k, u = s.writeX d k
  | .xst d addr => ∃ k, s.x[d] = .held k ∧ addr.toNat < s.cfg.memWords ∧ u = s.store addr.toNat [wordOf k]
  | .xli d imm => u = s.writeX d (immValue imm)
  | .eldb d f _ => ∃ v, u = s.writeP d (some f) v
  | .estb d addr => ∃ t v, s.p[d] = .held (some t) v ∧ addr.toNat < s.cfg.memWords ∧
      u = s.store addr.toNat [byteWord v]
  | .copy d a => ∃ tag v, s.p[a] = .held tag v ∧ u = s.writeP d tag v
  | .pdeg d _ => ∃ k, u = s.writeX d k
  | .plead d _ => ∃ k, u = s.writeX d k
  | .pisz d _ => ∃ k, u = s.writeX d k
  | .piso d _ => ∃ k, u = s.writeX d k
  | .pnorm d _ => ∃ v, u = s.writeP d none v
  | .padd d _ _ => ∃ v, u = s.writeP d none v
  | .psub d _ _ => ∃ v, u = s.writeP d none v
  | .pmul d _ _ => ∃ v, u = s.writeP d none v
  | .fnew d _ _ _ => ∃ r, s.f[d] = .invalid ∧ u = s.writeF d r
  | .ezero d a => u = s.writeP d (some a) [0]
  | .eone d a => u = s.writeP d (some a) [1]
  | .enew d _ b => ∃ v, u = s.writeP d (some b) v
  | .enorm d _ => ∃ t v, u = s.writeP d (some t) v
  | .eadd d _ _ => ∃ t v, u = s.writeP d (some t) v
  | .esub d _ _ => ∃ t v, u = s.writeP d (some t) v
  | .emul d _ _ => ∃ t v, u = s.writeP d (some t) v
  | .edivmod d c _ _ => ∃ t q r, u = (s.writeP d (some t) q).writeP c (some t) r
  | .emod d _ _ => ∃ t v, u = s.writeP d (some t) v
  | .einv d _ => ∃ t v, u = s.writeP d (some t) v
  | .epow d _ _ => ∃ t v, u = s.writeP d (some t) v
  | .eord d _ => ∃ k, u = s.writeX d k

/-- Writing a destination leaves every other field of the state alone. -/
structure OnlyData (s u : State) : Prop where
  cfg : u.cfg = s.cfg
  cseq : u.cseq = s.cseq
  fault : u.fault = s.fault
  done : u.done = s.done
  fie : u.fie = s.fie
  die : u.die = s.die
  ecode : u.ecode = s.ecode
  ecmd : u.ecmd = s.ecmd
  eseq : u.eseq = s.eseq
  q : u.q = s.q
  turns : u.turns = s.turns
  busRead : u.busRead = s.busRead

theorem onlyData_refl (s : State) : OnlyData s s := ⟨rfl, rfl, rfl, rfl, rfl, rfl, rfl, rfl, rfl, rfl, rfl, rfl⟩
theorem onlyData_writeP (s : State) (d : PIdx) (t : Option FIdx) (v : Vec) : OnlyData s (s.writeP d t v) :=
  ⟨rfl, rfl, rfl, rfl, rfl, rfl, rfl, rfl, rfl, rfl, rfl, rfl⟩
theorem onlyData_writeX (s : State) (d : XIdx) (k : Int) : OnlyData s (s.writeX d k) :=
  ⟨rfl, rfl, rfl, rfl, rfl, rfl, rfl, rfl, rfl, rfl, rfl, rfl⟩
theorem onlyData_writeF (s : State) (d : FIdx) (r : FieldRec) : OnlyData s (s.writeF d r) :=
  ⟨rfl, rfl, rfl, rfl, rfl, rfl, rfl, rfl, rfl, rfl, rfl, rfl⟩
theorem onlyData_store (s : State) (a : Nat) (ws : List Word) : OnlyData s (s.store a ws) :=
  ⟨rfl, rfl, rfl, rfl, rfl, rfl, rfl, rfl, rfl, rfl, rfl, rfl⟩

theorem Writes.onlyData {s u : State} {i : Instr} (h : Writes s u i) : OnlyData s u := by
  cases i with
  | nop => cases h; exact onlyData_refl s
  | pld => obtain ⟨_, rfl⟩ := h; exact onlyData_writeP ..
  | pst => obtain ⟨_, _, _, _, rfl⟩ := h; exact onlyData_store ..
  | xld => obtain ⟨_, rfl⟩ := h; exact onlyData_writeX ..
  | xst => obtain ⟨_, _, _, rfl⟩ := h; exact onlyData_store ..
  | xli => cases h; exact onlyData_writeX ..
  | eldb => obtain ⟨_, rfl⟩ := h; exact onlyData_writeP ..
  | estb => obtain ⟨_, _, _, _, rfl⟩ := h; exact onlyData_store ..
  | copy => obtain ⟨_, _, _, rfl⟩ := h; exact onlyData_writeP ..
  | pdeg => obtain ⟨_, rfl⟩ := h; exact onlyData_writeX ..
  | plead => obtain ⟨_, rfl⟩ := h; exact onlyData_writeX ..
  | pisz => obtain ⟨_, rfl⟩ := h; exact onlyData_writeX ..
  | piso => obtain ⟨_, rfl⟩ := h; exact onlyData_writeX ..
  | pnorm => obtain ⟨_, rfl⟩ := h; exact onlyData_writeP ..
  | padd => obtain ⟨_, rfl⟩ := h; exact onlyData_writeP ..
  | psub => obtain ⟨_, rfl⟩ := h; exact onlyData_writeP ..
  | pmul => obtain ⟨_, rfl⟩ := h; exact onlyData_writeP ..
  | fnew => obtain ⟨_, _, rfl⟩ := h; exact onlyData_writeF ..
  | ezero => cases h; exact onlyData_writeP ..
  | eone => cases h; exact onlyData_writeP ..
  | enew => obtain ⟨_, rfl⟩ := h; exact onlyData_writeP ..
  | enorm => obtain ⟨_, _, rfl⟩ := h; exact onlyData_writeP ..
  | eadd => obtain ⟨_, _, rfl⟩ := h; exact onlyData_writeP ..
  | esub => obtain ⟨_, _, rfl⟩ := h; exact onlyData_writeP ..
  | emul => obtain ⟨_, _, rfl⟩ := h; exact onlyData_writeP ..
  | edivmod =>
    obtain ⟨_, _, _, rfl⟩ := h
    exact ⟨rfl, rfl, rfl, rfl, rfl, rfl, rfl, rfl, rfl, rfl, rfl, rfl⟩
  | emod => obtain ⟨_, _, rfl⟩ := h; exact onlyData_writeP ..
  | einv => obtain ⟨_, _, rfl⟩ := h; exact onlyData_writeP ..
  | epow => obtain ⟨_, _, rfl⟩ := h; exact onlyData_writeP ..
  | eord => obtain ⟨_, rfl⟩ := h; exact onlyData_writeX ..

/-- The shape of the queries: a scalar, or `UnwrittenRegister`. -/
theorem query_eq_finish (d : XIdx) (a : PIdx) (f : Vec → Int) (s : State) :
    ∃ r, query d a f s = finish s r ∧ Raises r ∧ ∀ u, r = .ok u → ∃ k, u = s.writeX d k := by
  refine ⟨_, rfl, raises_bind (raises_readVec _ _) fun _ => raises_ok _, fun u h => ?_⟩
  obtain ⟨v, _, h⟩ := Except.bind_eq_ok.mp h
  cases h
  exact ⟨_, rfl⟩

/-- The shape of raw arithmetic: a raw polynomial, or a fault. -/
theorem rawBinary_eq_finish (d a b : PIdx) (f : Vec → Vec → Except Cause Vec) (hf : ∀ u w, Raises (f u w)) (s : State) :
    ∃ r, rawBinary d a b f s = finish s r ∧ Raises r ∧ ∀ u, r = .ok u → ∃ v, u = s.writeP d none v := by
  refine ⟨_, rfl, raises_bind (raises_readVec _ _) fun _ => raises_bind (raises_readVec _ _) fun _ =>
      raises_bind (hf _ _) fun _ => raises_ok _, fun u h => ?_⟩
  obtain ⟨_, _, h⟩ := Except.bind_eq_ok.mp h
  obtain ⟨_, _, h⟩ := Except.bind_eq_ok.mp h
  obtain ⟨_, _, h⟩ := Except.bind_eq_ok.mp h
  cases h
  exact ⟨_, rfl⟩

/-- The shape of the binary element commands: an element, or a fault. -/
theorem elementBinary_eq_finish (d a b : PIdx) (f : FieldRec → Vec → Vec → Except Cause Vec)
    (hf : ∀ fd u w, Raises (f fd u w)) (s : State) :
    ∃ r, elementBinary d a b f s = finish s r ∧ Raises r ∧ ∀ u, r = .ok u → ∃ t v, u = s.writeP d (some t) v := by
  refine ⟨_, rfl, raises_bind (raises_elems2 _ _ _) fun _ => raises_bind (raises_readF _ _) fun _ =>
      raises_bind (hf _ _ _) fun _ => raises_ok _, fun u h => ?_⟩
  obtain ⟨⟨_, _, _⟩, _, h⟩ := Except.bind_eq_ok.mp h
  obtain ⟨_, _, h⟩ := Except.bind_eq_ok.mp h
  obtain ⟨_, _, h⟩ := Except.bind_eq_ok.mp h
  cases h
  exact ⟨_, _, rfl⟩

/-- Every command ends, and when it completes it has written its destinations and nothing else. -/
theorem exec_eq_finish (i : Instr) (s : State) :
    ∃ r, exec i s = finish s r ∧ Raises r ∧ ∀ u, r = .ok u → Writes s u i := by
  cases i with
  | nop => exact ⟨.ok s, rfl, raises_ok s, fun u h => by cases h; rfl⟩
  | pld d addr =>
    refine ⟨_, rfl, raises_bind (raises_checkAddr _ _) fun _ => raises_bind (raises_raiseIf (by decide)) fun _ =>
      raises_bind (raises_checkAddr _ _) fun _ => raises_ok _, fun u h => ?_⟩
    obtain ⟨_, _, h⟩ := Except.bind_eq_ok.mp h
    obtain ⟨_, _, h⟩ := Except.bind_eq_ok.mp h
    obtain ⟨_, _, h⟩ := Except.bind_eq_ok.mp h
    cases h
    exact ⟨_, rfl⟩
  | pst d addr =>
    refine ⟨_, rfl, raises_bind (raises_readVec _ _) fun _ => raises_bind (raises_checkAddr _ _) fun _ =>
      raises_ok _, fun u h => ?_⟩
    obtain ⟨v, hv, h⟩ := Except.bind_eq_ok.mp h
    obtain ⟨_, ha, h⟩ := Except.bind_eq_ok.mp h
    cases h
    obtain ⟨tag, hv⟩ := readVec_eq_ok.mp hv
    exact ⟨tag, v, hv, checkAddr_eq_ok.mp ha, rfl⟩
  | xld d addr =>
    refine ⟨_, rfl, raises_bind (raises_checkAddr _ _) fun _ => raises_ok _, fun u h => ?_⟩
    obtain ⟨_, _, h⟩ := Except.bind_eq_ok.mp h
    cases h
    exact ⟨_, rfl⟩
  | xst d addr =>
    refine ⟨_, rfl, raises_bind (raises_readX _ _) fun _ => raises_bind (raises_checkAddr _ _) fun _ =>
      raises_ok _, fun u h => ?_⟩
    obtain ⟨k, hk, h⟩ := Except.bind_eq_ok.mp h
    obtain ⟨_, ha, h⟩ := Except.bind_eq_ok.mp h
    cases h
    exact ⟨k, readX_eq_ok.mp hk, checkAddr_eq_ok.mp ha, rfl⟩
  | xli d imm => exact ⟨.ok (s.writeX d (immValue imm)), rfl, raises_ok _, fun u h => by cases h; rfl⟩
  | eldb d f addr =>
    refine ⟨_, rfl, raises_bind (raises_readF _ _) fun _ => raises_bind (raises_raiseIf (by decide)) fun _ =>
      raises_bind (raises_checkAddr _ _) fun _ => raises_bind (raises_raiseIf (by decide)) fun _ =>
      raises_ok _, fun u h => ?_⟩
    obtain ⟨_, _, h⟩ := Except.bind_eq_ok.mp h
    obtain ⟨_, _, h⟩ := Except.bind_eq_ok.mp h
    obtain ⟨_, _, h⟩ := Except.bind_eq_ok.mp h
    obtain ⟨_, _, h⟩ := Except.bind_eq_ok.mp h
    cases h
    exact ⟨_, rfl⟩
  | estb d addr =>
    refine ⟨_, rfl, raises_bind (raises_elems1 _ _) fun _ => raises_bind (raises_readF _ _) fun _ =>
      raises_bind (raises_raiseIf (by decide)) fun _ => raises_bind (raises_raiseIf (by decide)) fun _ =>
      raises_bind (raises_checkAddr _ _) fun _ => raises_ok _, fun u h => ?_⟩
    obtain ⟨⟨t, v⟩, hv, h⟩ := Except.bind_eq_ok.mp h
    obtain ⟨_, _, h⟩ := Except.bind_eq_ok.mp h
    obtain ⟨_, _, h⟩ := Except.bind_eq_ok.mp h
    obtain ⟨_, _, h⟩ := Except.bind_eq_ok.mp h
    obtain ⟨_, ha, h⟩ := Except.bind_eq_ok.mp h
    cases h
    exact ⟨t, v, elems1_eq_ok.mp hv, checkAddr_eq_ok.mp ha, rfl⟩
  | copy d a =>
    refine ⟨_, rfl, raises_bind (raises_readP _ _) fun _ => raises_ok _, fun u h => ?_⟩
    obtain ⟨⟨tag, v⟩, hv, h⟩ := Except.bind_eq_ok.mp h
    cases h
    exact ⟨tag, v, readP_eq_ok.mp hv, rfl⟩
  | pdeg d a => exact query_eq_finish d a _ s
  | plead d a => exact query_eq_finish d a _ s
  | pisz d a => exact query_eq_finish d a _ s
  | piso d a => exact query_eq_finish d a _ s
  | pnorm d a =>
    refine ⟨_, rfl, raises_bind (raises_readVec _ _) fun _ => raises_ok _, fun u h => ?_⟩
    obtain ⟨_, _, h⟩ := Except.bind_eq_ok.mp h
    cases h
    exact ⟨_, rfl⟩
  | padd d a b => exact rawBinary_eq_finish d a b padd (fun _ _ => raises_rangeChecked _) s
  | psub d a b => exact rawBinary_eq_finish d a b psub (fun _ _ => raises_bind (raises_rangeChecked _) fun _ => raises_ok _) s
  | pmul d a b => exact rawBinary_eq_finish d a b (pmul s.cfg.maxLen) (raises_pmul _) s
  | fnew d a b c =>
    refine ⟨_, rfl, raises_bind (raises_readX _ _) fun _ => raises_bind (raises_readX _ _) fun _ =>
      raises_bind (raises_readVec _ _) fun _ => raises_bind (raises_raiseIf (by decide)) fun _ =>
      raises_bind (raises_raiseIf (by decide)) fun _ => raises_bind (raises_raiseIf (by decide)) fun _ =>
      raises_bind (raises_raiseIf (by decide)) fun _ => raises_ok _, fun u h => ?_⟩
    obtain ⟨_, _, h⟩ := Except.bind_eq_ok.mp h
    obtain ⟨_, _, h⟩ := Except.bind_eq_ok.mp h
    obtain ⟨_, _, h⟩ := Except.bind_eq_ok.mp h
    obtain ⟨_, hf, h⟩ := Except.bind_eq_ok.mp h
    obtain ⟨_, _, h⟩ := Except.bind_eq_ok.mp h
    obtain ⟨_, _, h⟩ := Except.bind_eq_ok.mp h
    obtain ⟨_, _, h⟩ := Except.bind_eq_ok.mp h
    cases h
    exact ⟨_, not_not.mp (raiseIf_eq_ok.mp hf), rfl⟩
  | ezero d a =>
    refine ⟨_, rfl, raises_bind (raises_readF _ _) fun _ => raises_ok _, fun u h => ?_⟩
    obtain ⟨_, _, h⟩ := Except.bind_eq_ok.mp h
    cases h
    rfl
  | eone d a =>
    refine ⟨_, rfl, raises_bind (raises_readF _ _) fun _ => raises_ok _, fun u h => ?_⟩
    obtain ⟨_, _, h⟩ := Except.bind_eq_ok.mp h
    cases h
    rfl
  | enew d a b =>
    refine ⟨_, rfl, raises_bind (raises_readVec _ _) fun _ => raises_bind (raises_readF _ _) fun _ =>
      raises_bind (raises_raiseIf (by decide)) fun _ => raises_ok _, fun u h => ?_⟩
    obtain ⟨_, _, h⟩ := Except.bind_eq_ok.mp h
    obtain ⟨_, _, h⟩ := Except.bind_eq_ok.mp h
    obtain ⟨_, _, h⟩ := Except.bind_eq_ok.mp h
    cases h
    exact ⟨_, rfl⟩
  | enorm d a =>
    refine ⟨_, rfl, raises_bind (raises_elems1 _ _) fun _ => raises_bind (raises_readF _ _) fun _ =>
      raises_ok _, fun u h => ?_⟩
    obtain ⟨⟨_, _⟩, _, h⟩ := Except.bind_eq_ok.mp h
    obtain ⟨_, _, h⟩ := Except.bind_eq_ok.mp h
    cases h
    exact ⟨_, _, rfl⟩
  | eadd d a b => exact elementBinary_eq_finish d a b (fun fd u w => .ok (eadd fd u w)) (fun _ _ _ => raises_ok _) s
  | esub d a b => exact elementBinary_eq_finish d a b (fun fd u w => .ok (esub fd u w)) (fun _ _ _ => raises_ok _) s
  | emul d a b => exact elementBinary_eq_finish d a b emul raises_emul s
  | edivmod d c a b =>
    refine ⟨_, rfl, raises_bind (raises_raiseIf (by decide)) fun _ => raises_bind (raises_elems2 _ _ _) fun _ =>
      raises_bind (raises_readF _ _) fun _ => raises_bind (raises_divmod _ _ _) fun _ => raises_ok _, fun u h => ?_⟩
    obtain ⟨_, _, h⟩ := Except.bind_eq_ok.mp h
    obtain ⟨⟨_, _, _⟩, _, h⟩ := Except.bind_eq_ok.mp h
    obtain ⟨_, _, h⟩ := Except.bind_eq_ok.mp h
    obtain ⟨⟨_, _⟩, _, h⟩ := Except.bind_eq_ok.mp h
    cases h
    exact ⟨_, _, _, rfl⟩
  | emod d a b =>
    exact elementBinary_eq_finish d a b remainder (fun _ _ _ => raises_bind (raises_divmod _ _ _) fun _ => raises_ok _) s
  | einv d a =>
    refine ⟨_, rfl, raises_bind (raises_elems1 _ _) fun _ => raises_bind (raises_readF _ _) fun _ =>
      raises_bind (raises_einv _ _) fun _ => raises_ok _, fun u h => ?_⟩
    obtain ⟨⟨_, _⟩, _, h⟩ := Except.bind_eq_ok.mp h
    obtain ⟨_, _, h⟩ := Except.bind_eq_ok.mp h
    obtain ⟨_, _, h⟩ := Except.bind_eq_ok.mp h
    cases h
    exact ⟨_, _, rfl⟩
  | epow d a b =>
    refine ⟨_, rfl, raises_bind (raises_readP _ _) fun _ => raises_bind (raises_readX _ _) fun _ =>
      raises_bind (raises_elementTag _) fun _ => raises_bind (raises_readF _ _) fun _ =>
      raises_bind (raises_slotOrder _) fun _ => raises_bind (raises_epowLoop _ _ _ _) fun _ =>
      raises_ok _, fun u h => ?_⟩
    obtain ⟨⟨_, _⟩, _, h⟩ := Except.bind_eq_ok.mp h
    obtain ⟨_, _, h⟩ := Except.bind_eq_ok.mp h
    obtain ⟨_, _, h⟩ := Except.bind_eq_ok.mp h
    obtain ⟨_, _, h⟩ := Except.bind_eq_ok.mp h
    obtain ⟨_, _, h⟩ := Except.bind_eq_ok.mp h
    obtain ⟨_, _, h⟩ := Except.bind_eq_ok.mp h
    cases h
    exact ⟨_, _, rfl⟩
  | eord d a =>
    refine ⟨_, rfl, raises_bind (raises_elems1 _ _) fun _ => raises_bind (raises_readF _ _) fun _ =>
      raises_bind (raises_slotOrder _) fun _ => raises_bind (raises_eord _ _ _) fun _ => raises_ok _, fun u h => ?_⟩
    obtain ⟨⟨_, _⟩, _, h⟩ := Except.bind_eq_ok.mp h
    obtain ⟨_, _, h⟩ := Except.bind_eq_ok.mp h
    obtain ⟨_, _, h⟩ := Except.bind_eq_ok.mp h
    obtain ⟨_, _, h⟩ := Except.bind_eq_ok.mp h
    cases h
    exact ⟨_, rfl⟩

/-- The inversion of a command's next state. -/
theorem exec_cases {i : Instr} {s t : State} (h : exec i s = .next t) :
    (∃ u, Writes s u i ∧ t = u.complete) ∨ ∃ c, Raisable c ∧ t = s.takeFault c := by
  obtain ⟨r, hr, hc, hw⟩ := exec_eq_finish i s
  rw [hr] at h
  rcases finish_eq_next.mp h with ⟨u, hu, rfl⟩ | ⟨c, he, rfl⟩
  · exact .inl ⟨u, hw u hu, rfl⟩
  · exact .inr ⟨c, hc.raisable c he, rfl⟩

end Sys2Proof.Machine
end

