-- ==== Sys2Proof/Laws/Decode.lean ====
section
/-! SUPPORT. The decoder, one equation per opcode (spec/30_encoding.md R75, R76), and the fields of an encoded word. -/

namespace Sys2Proof

/-! ### One equation per opcode -/

theorem decode_nop {w : Word} (h : opField w = 0x01#8) :
    decode w = whenZero (dField w == 0 && aField w == 0 && bczZero w) (.ok Instr.nop) := by
  unfold decode; rw [h]; rfl

theorem decode_pld {w : Word} (h : opField w = 0x10#8) :
    decode w = whenZero (fZero w) (Except.ok (Instr.pld (regIdx (dField w)) (immField w))) := by
  unfold decode; rw [h]; rfl

theorem decode_pst {w : Word} (h : opField w = 0x11#8) :
    decode w = whenZero (fZero w) (Except.ok (Instr.pst (regIdx (dField w)) (immField w))) := by
  unfold decode; rw [h]; rfl

theorem decode_xld {w : Word} (h : opField w = 0x12#8) :
    decode w = whenZero (fZero w) (Except.ok (Instr.xld (regIdx (dField w)) (immField w))) := by
  unfold decode; rw [h]; rfl

theorem decode_xst {w : Word} (h : opField w = 0x13#8) :
    decode w = whenZero (fZero w) (Except.ok (Instr.xst (regIdx (dField w)) (immField w))) := by
  unfold decode; rw [h]; rfl

theorem decode_xli {w : Word} (h : opField w = 0x14#8) :
    decode w = whenZero (fZero w) (Except.ok (Instr.xli (regIdx (dField w)) (immField w))) := by
  unfold decode; rw [h]; rfl

theorem decode_eldb {w : Word} (h : opField w = 0x15#8) :
    decode w = withSlot (aField w) fun f => Instr.eldb (regIdx (dField w)) f (immField w) := by
  unfold decode; rw [h]; rfl

theorem decode_estb {w : Word} (h : opField w = 0x16#8) :
    decode w = whenZero (fZero w) (Except.ok (Instr.estb (regIdx (dField w)) (immField w))) := by
  unfold decode; rw [h]; rfl

theorem decode_copy {w : Word} (h : opField w = 0x17#8) :
    decode w = whenZero (bczZero w) (Except.ok (Instr.copy (regIdx (dField w)) (regIdx (aField w)))) := by
  unfold decode; rw [h]; rfl

theorem decode_pdeg {w : Word} (h : opField w = 0x20#8) :
    decode w = whenZero (bczZero w) (Except.ok (Instr.pdeg (regIdx (dField w)) (regIdx (aField w)))) := by
  unfold decode; rw [h]; rfl

theorem decode_plead {w : Word} (h : opField w = 0x21#8) :
    decode w = whenZero (bczZero w) (Except.ok (Instr.plead (regIdx (dField w)) (regIdx (aField w)))) := by
  unfold decode; rw [h]; rfl

theorem decode_pisz {w : Word} (h : opField w = 0x22#8) :
    decode w = whenZero (bczZero w) (Except.ok (Instr.pisz (regIdx (dField w)) (regIdx (aField w)))) := by
  unfold decode; rw [h]; rfl

theorem decode_piso {w : Word} (h : opField w = 0x23#8) :
    decode w = whenZero (bczZero w) (Except.ok (Instr.piso (regIdx (dField w)) (regIdx (aField w)))) := by
  unfold decode; rw [h]; rfl

theorem decode_pnorm {w : Word} (h : opField w = 0x24#8) :
    decode w = whenZero (bczZero w) (Except.ok (Instr.pnorm (regIdx (dField w)) (regIdx (aField w)))) := by
  unfold decode; rw [h]; rfl

theorem decode_padd {w : Word} (h : opField w = 0x30#8) :
    decode w = whenZero (czZero w) (Except.ok (Instr.padd (regIdx (dField w)) (regIdx (aField w)) (regIdx (bField w)))) := by
  unfold decode; rw [h]; rfl

theorem decode_psub {w : Word} (h : opField w = 0x31#8) :
    decode w = whenZero (czZero w) (Except.ok (Instr.psub (regIdx (dField w)) (regIdx (aField w)) (regIdx (bField w)))) := by
  unfold decode; rw [h]; rfl

theorem decode_pmul {w : Word} (h : opField w = 0x32#8) :
    decode w = whenZero (czZero w) (Except.ok (Instr.pmul (regIdx (dField w)) (regIdx (aField w)) (regIdx (bField w)))) := by
  unfold decode; rw [h]; rfl

theorem decode_fnew {w : Word} (h : opField w = 0x40#8) :
    decode w = whenZero (zZero w) (withSlot (dField w) fun f => Instr.fnew f (regIdx (aField w)) (regIdx (bField w)) (regIdx (cField w))) := by
  unfold decode; rw [h]; rfl

theorem decode_ezero {w : Word} (h : opField w = 0x41#8) :
    decode w = whenZero (bczZero w) (withSlot (aField w) fun f => Instr.ezero (regIdx (dField w)) f) := by
  unfold decode; rw [h]; rfl

theorem decode_eone {w : Word} (h : opField w = 0x42#8) :
    decode w = whenZero (bczZero w) (withSlot (aField w) fun f => Instr.eone (regIdx (dField w)) f) := by
  unfold decode; rw [h]; rfl

theorem decode_enew {w : Word} (h : opField w = 0x43#8) :
    decode w = whenZero (czZero w) (withSlot (bField w) fun f => Instr.enew (regIdx (dField w)) (regIdx (aField w)) f) := by
  unfold decode; rw [h]; rfl

theorem decode_enorm {w : Word} (h : opField w = 0x44#8) :
    decode w = whenZero (bczZero w) (Except.ok (Instr.enorm (regIdx (dField w)) (regIdx (aField w)))) := by
  unfold decode; rw [h]; rfl

theorem decode_eadd {w : Word} (h : opField w = 0x50#8) :
    decode w = whenZero (czZero w) (Except.ok (Instr.eadd (regIdx (dField w)) (regIdx (aField w)) (regIdx (bField w)))) := by
  unfold decode; rw [h]; rfl

theorem decode_esub {w : Word} (h : opField w = 0x51#8) :
    decode w = whenZero (czZero w) (Except.ok (Instr.esub (regIdx (dField w)) (regIdx (aField w)) (regIdx (bField w)))) := by
  unfold decode; rw [h]; rfl

theorem decode_emul {w : Word} (h : opField w = 0x52#8) :
    decode w = whenZero (czZero w) (Except.ok (Instr.emul (regIdx (dField w)) (regIdx (aField w)) (regIdx (bField w)))) := by
  unfold decode; rw [h]; rfl

theorem decode_edivmod {w : Word} (h : opField w = 0x53#8) :
    decode w = whenZero (zZero w) (if (regIdx (dField w)) = (regIdx (cField w)) then .error .sameDestinations else Except.ok (Instr.edivmod (regIdx (dField w)) (regIdx (cField w)) (regIdx (aField w)) (regIdx (bField w)))) := by
  unfold decode; rw [h]; rfl

theorem decode_emod {w : Word} (h : opField w = 0x54#8) :
    decode w = whenZero (czZero w) (Except.ok (Instr.emod (regIdx (dField w)) (regIdx (aField w)) (regIdx (bField w)))) := by
  unfold decode; rw [h]; rfl

theorem decode_einv {w : Word} (h : opField w = 0x55#8) :
    decode w = whenZero (bczZero w) (Except.ok (Instr.einv (regIdx (dField w)) (regIdx (aField w)))) := by
  unfold decode; rw [h]; rfl

theorem decode_epow {w : Word} (h : opField w = 0x56#8) :
    decode w = whenZero (czZero w) (Except.ok (Instr.epow (regIdx (dField w)) (regIdx (aField w)) (regIdx (bField w)))) := by
  unfold decode; rw [h]; rfl

theorem decode_eord {w : Word} (h : opField w = 0x57#8) :
    decode w = whenZero (bczZero w) (Except.ok (Instr.eord (regIdx (dField w)) (regIdx (aField w)))) := by
  unfold decode; rw [h]; rfl

/-- Every other opcode is unassigned. -/
theorem decode_unassigned {w : Word}
    (h : opField w ∉ [0x01#8, 0x10#8, 0x11#8, 0x12#8, 0x13#8, 0x14#8, 0x15#8, 0x16#8, 0x17#8, 0x20#8, 0x21#8, 0x22#8,
      0x23#8, 0x24#8, 0x30#8, 0x31#8, 0x32#8, 0x40#8, 0x41#8, 0x42#8, 0x43#8, 0x44#8, 0x50#8, 0x51#8, 0x52#8, 0x53#8,
      0x54#8, 0x55#8, 0x56#8, 0x57#8]) :
    decode w = .error .unassignedOpcode := by
  have key : ∀ x : BitVec 8, x = BitVec.ofNat 8 x.toNat := fun x => by simp
  unfold decode
  split <;> first | rfl | (next hn => exact absurd (key (opField w)) (by rw [hn]; intro e; rw [e] at h; simp at h))

/-! ### The fields of an encoded word -/

theorem extract_ofNat (n k l : Nat) : (BitVec.ofNat 32 n).extractLsb' k l = BitVec.ofNat l (n % 2 ^ 32 / 2 ^ k) := by
  apply BitVec.eq_of_toNat_eq
  simp [BitVec.extractLsb'_toNat, Nat.shiftRight_eq_div_pow]

/-- The fields of an R-format word (R71). -/
theorem fields_rWord {op d a b c : Nat} (hd : d < 16) (ha : a < 16) (hb : b < 16) (hc : c < 16) :
    opField (rWord op d a b c) = BitVec.ofNat 8 op ∧ dField (rWord op d a b c) = BitVec.ofNat 4 d ∧
    aField (rWord op d a b c) = BitVec.ofNat 4 a ∧ bField (rWord op d a b c) = BitVec.ofNat 4 b ∧
    cField (rWord op d a b c) = BitVec.ofNat 4 c ∧ zField (rWord op d a b c) = 0#8 := by
  simp only [rWord, opField, dField, aField, bField, cField, zField, extract_ofNat]
  refine ⟨?_, ?_, ?_, ?_, ?_, ?_⟩ <;>
    (apply BitVec.eq_of_toNat_eq; rw [BitVec.toNat_ofNat, BitVec.toNat_ofNat]; omega)

/-- The fields of an M-format word (R72). -/
theorem fields_mWord {op d f : Nat} (imm : Imm) (hd : d < 16) (hf : f < 16) :
    opField (mWord op d f imm) = BitVec.ofNat 8 op ∧ dField (mWord op d f imm) = BitVec.ofNat 4 d ∧
    aField (mWord op d f imm) = BitVec.ofNat 4 f ∧ immField (mWord op d f imm) = imm := by
  have := imm.isLt
  simp only [mWord, opField, dField, aField, immField, extract_ofNat]
  refine ⟨?_, ?_, ?_, ?_⟩
  · apply BitVec.eq_of_toNat_eq; rw [BitVec.toNat_ofNat, BitVec.toNat_ofNat]; omega
  · apply BitVec.eq_of_toNat_eq; rw [BitVec.toNat_ofNat, BitVec.toNat_ofNat]; omega
  · apply BitVec.eq_of_toNat_eq; rw [BitVec.toNat_ofNat, BitVec.toNat_ofNat]; omega
  · apply BitVec.eq_of_toNat_eq; rw [BitVec.toNat_ofNat]; omega

@[simp] theorem regIdx_toFin (d : Fin 16) : regIdx (BitVec.ofFin (w := 4) d) = d := rfl

theorem regIdx_ofNat (d : Fin 16) : regIdx (BitVec.ofNat 4 d.val) = d := by
  apply Fin.ext
  show d.val % 2 ^ 4 = d.val
  omega

@[simp] theorem withSlot_ofNat (d : FIdx) (next : FIdx → Instr) :
    withSlot (BitVec.ofNat 4 d.val) next = .ok (next d) := by
  have h : (BitVec.ofNat 4 d.val).toNat = d.val := by rw [BitVec.toNat_ofNat]; omega
  simp [withSlot, h]

theorem whenZero_eq_ok {must : Bool} {next : Except Reject Instr} {i : Instr} :
    whenZero must next = .ok i ↔ must = true ∧ next = .ok i := by
  cases must <;> simp [whenZero]

theorem withSlot_eq_ok {x : BitVec 4} {next : FIdx → Instr} {i : Instr} :
    withSlot x next = .ok i ↔ ∃ f : FIdx, x = BitVec.ofNat 4 f.val ∧ next f = i := by
  unfold withSlot
  split
  · next h =>
    simp only [Except.ok.injEq]
    constructor
    · rintro rfl; exact ⟨⟨x.toNat, h⟩, by simp, rfl⟩
    · rintro ⟨f, rfl, rfl⟩
      congr 1
      apply Fin.ext
      show f.val % 2 ^ 4 = f.val
      omega
  · next h =>
    simp only [reduceCtorEq, false_iff]
    rintro ⟨f, rfl, _⟩
    rw [BitVec.toNat_ofNat] at h
    omega

/-- An R-format word is known by its fields (R71). -/
theorem eq_rWord {w : Word} (hz : zField w = 0#8) :
    w = rWord (opField w).toNat (dField w).toNat (aField w).toNat (bField w).toNat (cField w).toNat := by
  have hz := congrArg BitVec.toNat hz
  apply BitVec.eq_of_toNat_eq
  simp only [rWord, opField, dField, aField, bField, cField, zField, BitVec.extractLsb'_toNat, Nat.shiftRight_eq_div_pow,
    BitVec.toNat_ofNat] at *
  omega

/-- An M-format word is known by its fields (R72). -/
theorem eq_mWord (w : Word) : w = mWord (opField w).toNat (dField w).toNat (aField w).toNat (immField w) := by
  apply BitVec.eq_of_toNat_eq
  simp only [mWord, opField, dField, aField, immField, BitVec.extractLsb'_toNat, Nat.shiftRight_eq_div_pow,
    BitVec.toNat_ofNat]
  omega

end Sys2Proof
end

