-- ==== Sys2Proof/Laws/FieldArith.lean ====
section
/-! SUPPORT. What the functions of the element commands can do, said once each: `inv_p`, `divmod` and `emul`. -/

namespace Sys2Proof.Machine

/-! ### The coefficient inverter -/

/-- Euclid's algorithm answers the gcd and a Bézout pair. -/
theorem xgcdLoop_spec (fuel : Nat) (a b : Int) (ha : 0 ≤ a) (hb : 0 ≤ b) (hf : b.toNat < fuel) :
    (xgcdLoop fuel a b).1 = Int.gcd a b ∧
      (xgcdLoop fuel a b).1 = (xgcdLoop fuel a b).2.1 * a + (xgcdLoop fuel a b).2.2 * b := by
  induction fuel generalizing a b with
  | zero => omega
  | succ fuel ih =>
    by_cases hb0 : b = 0
    · subst hb0
      simp [xgcdLoop, Int.natAbs_of_nonneg ha]
    · have hb' : 0 < b := by omega
      have hm := Int.emod_lt_of_pos a hb'
      have hm0 := Int.emod_nonneg a hb0
      obtain ⟨h1, h2⟩ := ih b (a % b) hb hm0 (by omega)
      simp only [xgcdLoop, if_neg hb0]
      refine ⟨by rw [h1, Int.gcd_comm, Int.gcd_emod], ?_⟩
      rw [h2]
      have := Int.emod_add_mul_ediv a b
      generalize (xgcdLoop fuel b (a % b)).2.1 = x at *
      generalize (xgcdLoop fuel b (a % b)).2.2 = y at *
      have e : a % b = a - b * (a / b) := by omega
      rw [e]; ring

/-- `inv_p` answers the inverse in `[0, p)` when there is one, and raises `LeadNotUnit` otherwise (R156). -/
theorem invP_spec {p : Int} (hp : 2 ≤ p) (c : Int) :
    (Int.gcd c p = 1 → ∃ v, invP p c = .ok v ∧ 0 ≤ v ∧ v < p ∧ p ∣ c * v - 1) ∧
    (Int.gcd c p ≠ 1 → invP p c = .error .leadNotUnit) := by
  obtain ⟨h1, h2⟩ := xgcdLoop_spec (p.toNat + 1) (cmod c p) p (cmod_nonneg hp c) (by omega) (by omega)
  have hg : Int.gcd (cmod c p) p = Int.gcd c p := Int.gcd_emod c p
  rw [hg] at h1
  unfold invP extendedGcd
  generalize xgcdLoop (p.toNat + 1) (cmod c p) p = t at *
  obtain ⟨g, x, y⟩ := t
  simp only at h1 h2 ⊢
  constructor
  · intro h
    rw [h] at h1
    rw [if_pos (by simpa using h1)]
    refine ⟨_, rfl, cmod_nonneg hp x, cmod_lt hp x, ?_⟩
    obtain ⟨k, hk⟩ := dvd_sub_cmod c p
    obtain ⟨l, hl⟩ := dvd_sub_cmod x p
    have h3 : x * cmod c p + y * p = 1 := by rw [← h2, h1]; rfl
    refine ⟨x * k - c * l - y, ?_⟩
    have ek : cmod c p = c - p * k := by omega
    have el : cmod x p = x - p * l := by omega
    rw [ek] at h3
    rw [el]
    linear_combination h3
  · intro h
    rw [if_neg]
    rw [h1]
    exact_mod_cast h

/-! ### Division -/

theorem convCo_zero_left (w : Vec) (k : Nat) : convCo [0] w k = 0 := convCo_of_iszero (.inl rfl) k

/-- Setting a quotient coefficient that was 0 adds a shifted multiple of the divisor to the product. -/
theorem convCo_set {q : Vec} {j : Nat} (hj : j < q.length) (h0 : co q j = 0) (t : Int) (b : Vec) (k : Nat) :
    convCo (q.set j t) b k = convCo q b k + t * shiftCo b j k := by
  rw [convCo_eq_sum, convCo_eq_sum]
  have hs : t * shiftCo b j k = ∑ i ∈ Finset.range (k + 1), if i = j then t * co b (k - i) else 0 := by
    rw [Finset.sum_ite_eq' (Finset.range (k + 1)) j]
    simp only [shiftCo, Finset.mem_range]
    by_cases h : k < j
    · rw [if_pos h, if_neg (by omega), mul_zero]
    · rw [if_neg h, if_pos (by omega)]
  rw [hs, ← Finset.sum_add_distrib]
  refine Finset.sum_congr rfl fun i _ => ?_
  rw [co_set]
  by_cases h : i = j
  · subst h; simp [hj, h0]
  · simp [h]

/-- The remainder after one pass: its coefficients, and its degree falls. -/
theorem divPass_spec {p : Int} (hp : 2 ≤ p) {b : Vec} (hb : iszero b = false) {u : Int} (hu : p ∣ lead b * u - 1)
    {q r : Vec} (hr : Trimmed r) (hz : iszero r = false) (hd : degree b ≤ degree r) :
    (divPass p b u q r).1 = q.set (degree r - degree b) (cmod (lead r * u) p) ∧
    Trimmed (divPass p b u q r).2 ∧ Reduced p (divPass p b u q r).2 ∧
    (∀ i, co (divPass p b u q r).2 i =
      cmod (co r i - cmod (lead r * u) p * shiftCo b (degree r - degree b) i) p) ∧
    degm (divPass p b u q r).2 < degree r := by
  have hk : (degm r - degm b).toNat = degree r - degree b := by
    rw [degm_of_not_iszero hz, degm_of_not_iszero hb]; omega
  have hne : ((List.range r.length).map fun i =>
      co r i - cmod (lead r * u) p * shiftCo b (degree r - degree b) i) ≠ [] := by
    simp [hr.1]
  have hco : ∀ i, co (divPass p b u q r).2 i =
      cmod (co r i - cmod (lead r * u) p * shiftCo b (degree r - degree b) i) p := by
    intro i
    simp only [divPass, hk, co_enorm, co_map_range]
    by_cases hi : i < r.length
    · rw [if_pos hi]
    · rw [if_neg hi]
      have hl := hr.length_eq
      rw [co_of_length_le (v := r) (by omega), shiftCo, if_neg (by omega),
        co_of_degree_lt (v := b) (by omega)]
      simp
  refine ⟨by simp only [divPass, hk], ?_, ?_, hco, ?_⟩
  · simp only [divPass, hk]; exact trimmed_enorm p hne
  · simp only [divPass, hk]; exact reduced_enorm hp _
  · refine degm_lt_iff.mpr fun i hi => ?_
    rw [hco, cmod_eq_zero_iff]
    rcases Nat.lt_or_ge (degree r) i with hlt | hge
    · rw [co_of_degree_lt hlt, shiftCo, if_neg (by omega), co_of_degree_lt (v := b) (by omega)]
      simp
    · have hi' : i = degree r := by omega
      subst hi'
      rw [shiftCo, if_neg (by omega), show degree r - (degree r - degree b) = degree b by omega]
      change p ∣ lead r - cmod (lead r * u) p * lead b
      obtain ⟨x, hx⟩ := hu
      obtain ⟨y, hy⟩ := dvd_sub_cmod (lead r * u) p
      have e : cmod (lead r * u) p = lead r * u - p * y := by omega
      refine ⟨y * lead b - lead r * x, ?_⟩
      rw [e]
      linear_combination (-lead r) * hx

/-- The loop keeps `q · b + r` modulo `p` and ends with a remainder below the divisor. -/
theorem divLoop_spec {p : Int} (hp : 2 ≤ p) {b : Vec} (hb : iszero b = false) {u : Int} (hu : p ∣ lead b * u - 1)
    (fuel : Nat) (q r : Vec) (hr : Trimmed r) (hrr : Reduced p r) (hqr : Reduced p q)
    (hfuel : degm r - degree b + 1 ≤ fuel) (hlen : degm r - degree b + 1 ≤ q.length)
    (hzero : ∀ i : Nat, (i : Int) + degree b ≤ degm r → co q i = 0) :
    Trimmed (divLoop p b u fuel q r).2 ∧ Reduced p (divLoop p b u fuel q r).2 ∧
    Reduced p (divLoop p b u fuel q r).1 ∧ (divLoop p b u fuel q r).1.length = q.length ∧
    degm (divLoop p b u fuel q r).2 < degree b ∧
    ∀ k, p ∣ convCo q b k + co r k -
      (convCo (divLoop p b u fuel q r).1 b k + co (divLoop p b u fuel q r).2 k) := by
  induction fuel generalizing q r with
  | zero => exact ⟨hr, hrr, hqr, rfl, by simp only [divLoop]; omega, fun k => by simp [divLoop]⟩
  | succ fuel ih =>
    by_cases hc : iszero r = false ∧ degm b ≤ degm r
    · obtain ⟨hz, hle⟩ := hc
      have hdr := degm_of_not_iszero hz
      have hdb := degm_of_not_iszero hb
      have hd : degree b ≤ degree r := by omega
      obtain ⟨h1, h2, h3, h4, h5⟩ := divPass_spec (q := q) hp hb hu hr hz hd
      have hunf : divLoop p b u (fuel + 1) q r = divLoop p b u fuel (divPass p b u q r).1 (divPass p b u q r).2 := by
        rw [divLoop, if_pos ⟨hz, hle⟩]
      rw [hunf]
      have hjq : degree r - degree b < q.length := by omega
      have hj0 : co q (degree r - degree b) = 0 := hzero _ (by omega)
      have hq1 : Reduced p (divPass p b u q r).1 := by
        rw [h1]
        intro c hc
        rcases List.mem_or_eq_of_mem_set hc with hc | rfl
        · exact hqr c hc
        · exact ⟨cmod_nonneg hp _, cmod_lt hp _⟩
      obtain ⟨g1, g2, g3, g4, g5, g6⟩ := ih (divPass p b u q r).1 (divPass p b u q r).2 h2 h3 hq1 (by omega)
        (by rw [h1, List.length_set]; omega)
        (fun i hi => by rw [h1, co_set, if_neg (by omega)]; exact hzero i (by omega))
      refine ⟨g1, g2, g3, by rw [g4, h1, List.length_set], g5, fun k => ?_⟩
      have hstep : p ∣ convCo q b k + co r k - (convCo (divPass p b u q r).1 b k + co (divPass p b u q r).2 k) := by
        rw [h1, convCo_set hjq hj0, h4]
        obtain ⟨x, hx⟩ := dvd_sub_cmod (co r k - cmod (lead r * u) p * shiftCo b (degree r - degree b) k) p
        exact ⟨x, by linear_combination hx⟩
      obtain ⟨x, hx⟩ := hstep
      obtain ⟨y, hy⟩ := g6 k
      exact ⟨x + y, by linear_combination hx + hy⟩
    · have hunf : divLoop p b u (fuel + 1) q r = (q, r) := by rw [divLoop, if_neg hc]
      rw [hunf]
      refine ⟨hr, hrr, hqr, rfl, (?_ : degm r < degree b), fun k => by simp⟩
      have hdb := degm_of_not_iszero hb
      cases hz : iszero r
      · have := degm_of_not_iszero hz
        by_contra hn
        exact hc ⟨hz, by omega⟩
      · rw [degm_of_iszero hz]; omega

/-- `divmod` raises `DivisionByZero` on the zero divisor (R157). -/
theorem divmod_zero (fd : FieldRec) (a : Vec) {b : Vec} (hb : iszero b = true) :
    divmod fd a b = .error .divisionByZero := by
  have h1 : ¬ isone b = true := by
    intro h
    have := (isone_iff.mp h).1
    rw [iszero_iff.mp hb 0] at this
    exact absurd this (by decide)
  rw [divmod, if_neg h1, if_pos hb]

/-- `divmod` on a dividend below the divisor needs no inverse (R157). -/
theorem divmod_small (fd : FieldRec) {a b : Vec} (ha : Trimmed a) (hb : iszero b = false) (h : degm a < degm b) :
    divmod fd a b = .ok ([0], a) := by
  by_cases h1 : isone b = true
  · have hd : degree b = 0 := by
      have h1 := isone_iff.mp h1
      exact degree_of_isDegree (.inl ⟨by omega, fun i hi => h1.2 i hi⟩)
    rw [degm_of_not_iszero hb, hd] at h
    have hz : iszero a = true := by
      by_contra hz
      rw [degm_of_not_iszero (by simpa using hz)] at h
      omega
    rw [divmod, if_pos h1, ha.eq_zero hz]
  · rw [divmod, if_neg h1, if_neg (by simp [hb]), if_pos h]

/-- `divmod` raises `LeadNotUnit` when it needs an inverse that does not exist (R156, R157). -/
theorem divmod_leadNotUnit {fd : FieldRec} (hp : 2 ≤ fd.p) {a b : Vec} (hb : iszero b = false)
    (h : degm b ≤ degm a) (hg : Int.gcd (lead b) fd.p ≠ 1) : divmod fd a b = .error .leadNotUnit := by
  have h1 : ¬ isone b = true := by
    intro h1
    have h1 := isone_iff.mp h1
    have hd : degree b = 0 := degree_of_isDegree (.inl ⟨by omega, fun i hi => h1.2 i hi⟩)
    rw [lead, hd, h1.1] at hg
    simp at hg
  rw [divmod, if_neg h1, if_neg (by simp [hb]), if_neg (by omega), (invP_spec hp _).2 hg]
  rfl

/-- `divmod` divides when the leading coefficient of the divisor is a unit modulo `p` (R158). -/
theorem divmod_unit {fd : FieldRec} (hp : 2 ≤ fd.p) {a b : Vec} (ha : Trimmed a) (har : Reduced fd.p a)
    (hb : iszero b = false) (hg : Int.gcd (lead b) fd.p = 1) :
    ∃ q r, divmod fd a b = .ok (q, r) ∧ DivSpec fd.p a b q r ∧ (q = [0] ∨ q.length + degree b ≤ a.length) := by
  by_cases h1 : isone b = true
  · refine ⟨a, [0], by rw [divmod, if_pos h1], ⟨ha, har, trimmed_singleton 0, ?_, ?_, fun k => ?_⟩, ?_⟩
    · intro c hc
      simp only [List.mem_singleton] at hc
      subst hc
      omega
    · rw [degm_of_not_iszero hb, degm_of_iszero rfl]; omega
    · have h1 := isone_iff.mp h1
      have : convCo a b k = co a k := by
        rw [convCo_eq_sum, Finset.sum_eq_single k]
        · rw [Nat.sub_self, h1.1, mul_one]
        · intro i hi hne
          rw [h1.2 _ (by have := Finset.mem_range.mp hi; omega), mul_zero]
        · intro hn; exact absurd (Finset.mem_range.mpr (by omega)) hn
      rw [this]
      cases k <;> simp
    · right
      have h1 := isone_iff.mp h1
      have hd : degree b = 0 := degree_of_isDegree (.inl ⟨by omega, fun i hi => h1.2 i hi⟩)
      omega
  · by_cases hlt : degm a < degm b
    · refine ⟨[0], a, divmod_small fd ha hb hlt, ⟨trimmed_singleton 0, ?_, ha, har, hlt, fun k => ?_⟩, .inl rfl⟩
      · intro c hc
        simp only [List.mem_singleton] at hc
        subst hc
        omega
      · rw [convCo_zero_left]; simp
    · obtain ⟨u, hu, _, _, hu1⟩ := (invP_spec hp _).1 hg
      have hdb := degm_of_not_iszero hb
      have hz : iszero a = false := by
        by_contra hz
        rw [degm_of_iszero (by simpa using hz)] at hlt
        omega
      have hda := degm_of_not_iszero hz
      obtain ⟨N, hN⟩ : ∃ N, (degm a - degm b + 1).toNat = N := ⟨_, rfl⟩
      have hspec := divLoop_spec hp hb hu1 N (List.replicate N 0) a ha har
        (by intro c hc; rw [(List.mem_replicate.mp hc).2]; omega) (by omega)
        (by rw [List.length_replicate]; omega) (fun i _ => co_replicate_zero N i)
      obtain ⟨g1, g2, g3, g4, g5, g6⟩ := hspec
      rw [divmod, if_neg h1, if_neg (by simp [hb]), if_neg hlt, hu]
      simp only [Except.ok_bind, hN, Except.pure_eq_ok]
      have hne : (divLoop fd.p b u N (List.replicate N 0) a).1 ≠ [] := by
        intro e
        rw [e, List.length_replicate] at g4
        simp at g4
        omega
      refine ⟨_, _, rfl, ⟨trimmed_enorm _ hne, reduced_enorm hp _, g1, g2, by rw [hdb]; exact g5, fun k => ?_⟩, ?_⟩
      · have h6 := g6 k
        have hz0 : convCo (List.replicate N 0) b k = 0 :=
          convCo_of_iszero (.inl (iszero_iff.mpr fun i => co_replicate_zero N i)) k
        rw [hz0, zero_add] at h6
        generalize divLoop fd.p b u N (List.replicate N 0) a = qr at *
        have hq : fd.p ∣ convCo qr.1 b k - convCo (enorm fd.p qr.1) b k := by
          rw [convCo_eq_sum, convCo_eq_sum, ← Finset.sum_sub_distrib]
          refine Finset.dvd_sum fun i _ => ?_
          rw [co_enorm, ← sub_mul]
          exact Dvd.dvd.mul_right (dvd_sub_cmod _ _) _
        obtain ⟨x, hx⟩ := h6
        obtain ⟨y, hy⟩ := hq
        exact ⟨x + y, by linear_combination hx + hy⟩
      · right
        have := length_enorm_le fd.p (divLoop fd.p b u N (List.replicate N 0) a).1
        rw [g4, List.length_replicate] at this
        have := ha.length_eq
        omega

/-- Whatever `divmod` answers is a quotient and a remainder (R158). -/
theorem divmod_ok {fd : FieldRec} (hp : 2 ≤ fd.p) {a b q r : Vec} (ha : Trimmed a) (har : Reduced fd.p a)
    (h : divmod fd a b = .ok (q, r)) :
    iszero b = false ∧ DivSpec fd.p a b q r ∧ (q = [0] ∨ q.length + degree b ≤ a.length) := by
  cases hb : iszero b
  · refine ⟨rfl, ?_⟩
    by_cases hg : Int.gcd (lead b) fd.p = 1
    · obtain ⟨q', r', h', hs, hl⟩ := divmod_unit hp ha har hb hg
      rw [h] at h'
      cases h'
      exact ⟨hs, hl⟩
    · by_cases hlt : degm a < degm b
      · rw [divmod_small fd ha hb hlt] at h
        cases h
        refine ⟨⟨trimmed_singleton 0, ?_, ha, har, hlt, fun k => by rw [convCo_zero_left]; simp⟩, .inl rfl⟩
        intro c hc
        simp only [List.mem_singleton] at hc
        subst hc
        omega
      · rw [divmod_leadNotUnit hp hb (by omega) hg] at h
        exact absurd h (by simp)
  · rw [divmod_zero fd a hb] at h
    exact absurd h (by simp)

/-- `divmod` raises nothing but `DivisionByZero` and `LeadNotUnit` (R157). -/
theorem divmod_error {fd : FieldRec} (hp : 2 ≤ fd.p) {a b : Vec} {e : Cause} (ha : Trimmed a) (har : Reduced fd.p a)
    (h : divmod fd a b = .error e) :
    (iszero b = true ∧ e = .divisionByZero) ∨
    (iszero b = false ∧ degm b ≤ degm a ∧ Int.gcd (lead b) fd.p ≠ 1 ∧ e = .leadNotUnit) := by
  cases hb : iszero b
  · right
    by_cases hlt : degm a < degm b
    · rw [divmod_small fd ha hb hlt] at h; exact absurd h (by simp)
    · by_cases hg : Int.gcd (lead b) fd.p = 1
      · obtain ⟨q, r, h', _⟩ := divmod_unit hp ha har hb hg
        rw [h'] at h; exact absurd h (by simp)
      · rw [divmod_leadNotUnit hp hb (by omega) hg] at h
        cases h
        exact ⟨rfl, by omega, hg, rfl⟩
  · left
    rw [divmod_zero fd a hb] at h
    cases h
    exact ⟨rfl, rfl⟩

/-! ### Multiplication -/

theorem IsField.degree_mod {fd : FieldRec} (h : IsField fd) : degree fd.mod = fd.n := by
  obtain ⟨_, _, hl, _, hn⟩ := h
  exact degree_of_isDegree (.inl ⟨hn, fun i hi => co_of_length_le (by omega)⟩)

theorem IsField.mod_not_zero {fd : FieldRec} (h : IsField fd) : iszero fd.mod = false :=
  iszero_eq_false_iff.mpr ⟨fd.n, h.2.2.2.2⟩

theorem IsField.lead_mod {fd : FieldRec} (h : IsField fd) : lead fd.mod = co fd.mod fd.n := by
  rw [lead, h.degree_mod]

/-- `emul` answers the reduced product (R149). -/
theorem emul_ok {fd : FieldRec} (hf : IsField fd) {u w r : Vec} (h : emul fd u w = .ok r) : IsProduct fd u w r := by
  unfold emul at h
  obtain ⟨⟨q, r'⟩, hd, he⟩ := Except.bind_eq_ok.mp h
  cases he
  obtain ⟨_, hs, _⟩ := divmod_ok hf.1 (trimmed_enorm _ (pmulExact_ne_nil u w)) (reduced_enorm hf.1 _) hd
  refine ⟨hs.trimmedR, hs.reducedR, ?_, q, fun k => ?_⟩
  · have hsm := hs.small
    rw [degm_of_not_iszero hf.mod_not_zero, hf.degree_mod] at hsm
    have hl := hs.trimmedR.length_eq
    cases hz : iszero r
    · rw [degm_of_not_iszero hz] at hsm; omega
    · rw [hs.trimmedR.eq_zero hz]; exact hf.2.1
  · obtain ⟨x, hx⟩ := hs.congr k
    obtain ⟨y, hy⟩ := dvd_sub_cmod (convCo u w k) fd.p
    rw [co_enorm, co_pmulExact] at hx
    exact ⟨x + y, by linear_combination hx + hy⟩

/-- `emul` answers when the modulus has a unit leading coefficient, or the product needs no reduction (R149). -/
theorem emul_total {fd : FieldRec} (hf : IsField fd) (u w : Vec)
    (h : Int.gcd (co fd.mod fd.n) fd.p = 1 ∨ ∀ k, fd.n ≤ k → fd.p ∣ convCo u w k) :
    ∃ r, emul fd u w = .ok r := by
  have hc : ∃ q r, divmod fd (enorm fd.p (pmulExact u w)) fd.mod = .ok (q, r) := by
    rcases h with h | h
    · obtain ⟨q, r, hd, _⟩ := divmod_unit hf.1 (trimmed_enorm fd.p (pmulExact_ne_nil u w)) (reduced_enorm hf.1 _)
        hf.mod_not_zero (by rw [hf.lead_mod]; exact h)
      exact ⟨q, r, hd⟩
    · refine ⟨[0], _, divmod_small fd (trimmed_enorm fd.p (pmulExact_ne_nil u w)) hf.mod_not_zero ?_⟩
      rw [degm_of_not_iszero hf.mod_not_zero, hf.degree_mod]
      exact degm_lt_iff.mpr fun i hi => by rw [co_enorm, co_pmulExact, cmod_eq_zero_iff]; exact h i hi
  obtain ⟨q, r, hd⟩ := hc
  exact ⟨r, by rw [emul, hd]; rfl⟩

/-- Otherwise it raises `LeadNotUnit` (R149, R150). -/
theorem emul_leadNotUnit {fd : FieldRec} (hf : IsField fd) {u w : Vec} (hg : Int.gcd (co fd.mod fd.n) fd.p ≠ 1)
    (h : ∃ k, fd.n ≤ k ∧ ¬ fd.p ∣ convCo u w k) : emul fd u w = .error .leadNotUnit := by
  obtain ⟨k, hk, hd⟩ := h
  rw [emul, divmod_leadNotUnit hf.1 hf.mod_not_zero ?_ (by rw [hf.lead_mod]; exact hg)]
  · rfl
  · rw [degm_of_not_iszero hf.mod_not_zero, hf.degree_mod]
    by_contra hn
    have := degm_lt_iff.mp (Int.not_le.mp hn) k hk
    rw [co_enorm, co_pmulExact, cmod_eq_zero_iff] at this
    exact hd this

/-- `emul` raises nothing but `LeadNotUnit`. -/
theorem emul_error {fd : FieldRec} (hf : IsField fd) {u w : Vec} {e : Cause} (h : emul fd u w = .error e) :
    e = .leadNotUnit := by
  by_cases hg : Int.gcd (co fd.mod fd.n) fd.p = 1 ∨ ∀ k, fd.n ≤ k → fd.p ∣ convCo u w k
  · obtain ⟨r, hr⟩ := emul_total hf u w hg
    rw [hr] at h; exact absurd h (by simp)
  · push Not at hg
    rw [emul_leadNotUnit hf hg.1 hg.2] at h
    cases h; rfl

/-- Multiplication is commutative, faults included (R151). -/
theorem emul_comm (fd : FieldRec) (u w : Vec) : emul fd u w = emul fd w u := by
  rw [emul, emul, pmulExact_comm]

end Sys2Proof.Machine
end

