-- ==== Sys2Proof/Laws/Poly.lean ====
section
/-! SUPPORT. The bridge from coefficient vectors to polynomials over the integers modulo `p`: congruences between
coefficients are equations between polynomials, and a reduced product is a remainder modulo the modulus. -/

namespace Sys2Proof.Machine

open Polynomial

/-- The polynomial of a vector modulo `n`. -/
noncomputable def toPoly (n : ℕ) (v : Vec) : (ZMod n)[X] := ∑ i ∈ Finset.range v.length, monomial i (co v i : ZMod n)

@[simp] theorem coeff_toPoly (n : ℕ) (v : Vec) (k : ℕ) : (toPoly n v).coeff k = (co v k : ZMod n) := by
  simp only [toPoly, finsetSum_coeff, coeff_monomial, Finset.sum_ite_eq', Finset.mem_range]
  split
  · rfl
  · next h => rw [co_of_length_le (by omega)]; simp

/-- Divisibility by `p` is being 0 modulo `p`. -/
theorem cast_eq_zero_iff {p : Int} (hp : 2 ≤ p) (c : Int) : (c : ZMod p.toNat) = 0 ↔ p ∣ c := by
  rw [ZMod.intCast_zmod_eq_zero_iff_dvd, Int.toNat_of_nonneg (by omega)]

theorem toPoly_ext {n : ℕ} {f : (ZMod n)[X]} {v : Vec} (h : ∀ k, f.coeff k = (co v k : ZMod n)) : f = toPoly n v :=
  Polynomial.ext fun k => by rw [h, coeff_toPoly]

theorem coeff_toPoly_mul (n : ℕ) (u w : Vec) (k : ℕ) : (toPoly n u * toPoly n w).coeff k = (convCo u w k : ZMod n) := by
  rw [coeff_mul, Finset.Nat.sum_antidiagonal_eq_sum_range_succ fun i j => (toPoly n u).coeff i * (toPoly n w).coeff j,
    convCo_eq_sum]
  push_cast
  exact Finset.sum_congr rfl fun i _ => by rw [coeff_toPoly, coeff_toPoly]

/-- Every polynomial modulo `n` is that of a vector. -/
theorem exists_toPoly {n : ℕ} (hn : n ≠ 0) (f : (ZMod n)[X]) : ∃ v : Vec, toPoly n v = f := by
  have : NeZero n := ⟨hn⟩
  refine ⟨(List.range (f.natDegree + 1)).map fun i => ((f.coeff i).val : Int), (toPoly_ext fun k => ?_).symm⟩
  rw [co_map_range]
  split
  · simp
  · next h => rw [coeff_eq_zero_of_natDegree_lt (by omega)]; simp

theorem toPoly_eq_zero_iff {p : Int} (hp : 2 ≤ p) {v : Vec} : toPoly p.toNat v = 0 ↔ ∀ k, p ∣ co v k := by
  rw [Polynomial.ext_iff]
  refine forall_congr' fun k => ?_
  rw [coeff_toPoly, coeff_zero, cast_eq_zero_iff hp]

/-- A reduced vector is known by its polynomial. -/
theorem Reduced.iszero_of_toPoly {p : Int} (hp : 2 ≤ p) {v : Vec} (h : Reduced p v) (hz : toPoly p.toNat v = 0) :
    iszero v = true := by
  refine iszero_iff.mpr fun i => ?_
  obtain ⟨h0, h1⟩ := h.co_bounds hp i
  exact Int.eq_zero_of_dvd_of_nonneg_of_lt h0 h1 ((toPoly_eq_zero_iff hp).mp hz i)

theorem Reduced.eq_of_toPoly {p : Int} (hp : 2 ≤ p) {u w : Vec} (hu : Reduced p u) (hw : Reduced p w) (tu : Trimmed u)
    (tw : Trimmed w) (h : toPoly p.toNat u = toPoly p.toNat w) : u = w := by
  refine tu.ext tw fun i => ?_
  have hi := congrArg (fun f => f.coeff i) h
  simp only [coeff_toPoly] at hi
  rw [← sub_eq_zero, ← Int.cast_sub, cast_eq_zero_iff hp] at hi
  obtain ⟨a0, a1⟩ := hu.co_bounds hp i
  obtain ⟨b0, b1⟩ := hw.co_bounds hp i
  obtain ⟨k, hk⟩ := hi
  have : k = 0 := by
    by_contra hk0
    rcases lt_or_gt_of_ne hk0 with h | h <;> nlinarith
  rw [this] at hk
  omega

theorem toPoly_congr {p : Int} (hp : 2 ≤ p) {a q b r : Vec} (h : ∀ k, p ∣ co a k - convCo q b k - co r k) :
    toPoly p.toNat a = toPoly p.toNat q * toPoly p.toNat b + toPoly p.toNat r := by
  refine Polynomial.ext fun k => ?_
  rw [coeff_add, coeff_toPoly_mul, coeff_toPoly, coeff_toPoly]
  have := (cast_eq_zero_iff hp _).mpr (h k)
  push_cast at this
  linear_combination this

theorem DivSpec.toPoly {p : Int} (hp : 2 ≤ p) {a b q r : Vec} (h : DivSpec p a b q r) :
    toPoly p.toNat a = Machine.toPoly p.toNat q * Machine.toPoly p.toNat b + Machine.toPoly p.toNat r :=
  toPoly_congr hp h.congr

/-- A reduced product is congruent to the product modulo the modulus. -/
theorem IsProduct.toPoly {fd : FieldRec} (hp : 2 ≤ fd.p) {u w r : Vec} (h : IsProduct fd u w r) :
    Machine.toPoly fd.p.toNat fd.mod ∣
      Machine.toPoly fd.p.toNat u * Machine.toPoly fd.p.toNat w - Machine.toPoly fd.p.toNat r := by
  obtain ⟨q, hq⟩ := h.congr
  refine ⟨Machine.toPoly fd.p.toNat q, Polynomial.ext fun k => ?_⟩
  rw [coeff_sub, coeff_toPoly_mul, coeff_toPoly, mul_comm, coeff_toPoly_mul]
  have := (cast_eq_zero_iff hp _).mpr (hq k)
  push_cast at this
  linear_combination this

/-- And what is congruent to the product modulo the modulus, and small, is a reduced product. -/
theorem isProduct_of_toPoly {fd : FieldRec} (hp : 2 ≤ fd.p) {u w r : Vec} (ht : Trimmed r) (hr : Reduced fd.p r)
    (hl : r.length ≤ fd.n)
    (h : toPoly fd.p.toNat fd.mod ∣ toPoly fd.p.toNat u * toPoly fd.p.toNat w - toPoly fd.p.toNat r) :
    IsProduct fd u w r := by
  obtain ⟨f, hf⟩ := h
  obtain ⟨q, rfl⟩ := exists_toPoly (n := fd.p.toNat) (by omega) f
  refine ⟨ht, hr, hl, q, fun k => ?_⟩
  have := congrArg (fun g => g.coeff k) hf
  simp only [coeff_sub, coeff_toPoly_mul, coeff_toPoly, mul_comm (toPoly fd.p.toNat fd.mod)] at this
  rw [← cast_eq_zero_iff hp]
  push_cast
  linear_combination this

theorem toPoly_enorm {p : Int} (hp : 2 ≤ p) (v : Vec) : toPoly p.toNat (enorm p v) = toPoly p.toNat v := by
  refine Polynomial.ext fun k => ?_
  rw [coeff_toPoly, coeff_toPoly, co_enorm, ← sub_eq_zero, ← Int.cast_sub, cast_eq_zero_iff hp, ← neg_sub, dvd_neg]
  exact dvd_sub_cmod _ _

theorem toPoly_esub {fd : FieldRec} (hp : 2 ≤ fd.p) (u w : Vec) :
    toPoly fd.p.toNat (esub fd u w) = toPoly fd.p.toNat u - toPoly fd.p.toNat w := by
  rw [esub, toPoly_enorm hp]
  refine Polynomial.ext fun k => ?_
  rw [coeff_sub, coeff_toPoly, coeff_toPoly, coeff_toPoly, co_diffVec_length]
  push_cast
  rfl

theorem toPoly_eadd {fd : FieldRec} (hp : 2 ≤ fd.p) (u w : Vec) :
    toPoly fd.p.toNat (eadd fd u w) = toPoly fd.p.toNat u + toPoly fd.p.toNat w := by
  rw [eadd, toPoly_enorm hp]
  refine Polynomial.ext fun k => ?_
  rw [coeff_add, coeff_toPoly, coeff_toPoly, coeff_toPoly, co_sumVec_length]
  push_cast
  rfl

@[simp] theorem toPoly_singleton (n : ℕ) (c : Int) : toPoly n [c] = C (c : ZMod n) := by
  simp [toPoly, monomial_zero_left]

/-- Over a modulus with a unit leading coefficient a small multiple of the modulus is 0. -/
theorem eq_zero_of_mod_dvd {fd : FieldRec} (hf : IsField fd) (hg : Int.gcd (co fd.mod fd.n) fd.p = 1)
    {f : (ZMod fd.p.toNat)[X]} (hs : ∀ k, fd.n ≤ k → f.coeff k = 0) (h : toPoly fd.p.toNat fd.mod ∣ f) : f = 0 := by
  obtain ⟨q, rfl⟩ := h
  by_contra hne
  have hq : q ≠ 0 := by rintro rfl; simp at hne
  have hu : IsUnit ((co fd.mod fd.n : Int) : ZMod fd.p.toNat) := by
    obtain ⟨v, _, _, _, hv⟩ := (invP_spec hf.1 (co fd.mod fd.n)).1 hg
    have := (cast_eq_zero_iff hf.1 _).mpr hv
    push_cast at this
    exact IsUnit.of_mul_eq_one _ (sub_eq_zero.mp this)
  have hnat : (toPoly fd.p.toNat fd.mod).natDegree = fd.n := by
    refine natDegree_eq_of_le_of_coeff_ne_zero ?_ ?_
    · refine natDegree_le_iff_coeff_eq_zero.mpr fun k hk => ?_
      rw [coeff_toPoly, co_of_length_le (by have := hf.2.2.1; omega)]
      simp
    · rw [coeff_toPoly]
      have : Fact (1 < fd.p.toNat) := ⟨by have := hf.1; omega⟩
      exact hu.ne_zero
  have hlc : (toPoly fd.p.toNat fd.mod).leadingCoeff * q.leadingCoeff ≠ 0 := by
    rw [leadingCoeff, hnat, coeff_toPoly]
    intro h0
    rw [hu.mul_right_eq_zero] at h0
    exact hq (leadingCoeff_eq_zero.mp h0)
  have hd := natDegree_mul' hlc
  rw [hnat] at hd
  have := hs (fd.n + q.natDegree) (by omega)
  rw [← hd] at this
  exact hne (leadingCoeff_eq_zero.mp this)

/-- Over a modulus with a unit leading coefficient the reduced product is unique (R158). -/
theorem IsProduct.unique {fd : FieldRec} (hf : IsField fd) (hg : Int.gcd (co fd.mod fd.n) fd.p = 1) {u w r r' : Vec}
    (h : IsProduct fd u w r) (h' : IsProduct fd u w r') : r = r' := by
  refine Reduced.eq_of_toPoly hf.1 h.reduced h'.reduced h.trimmed h'.trimmed (sub_eq_zero.mp ?_)
  refine eq_zero_of_mod_dvd hf hg (fun k hk => ?_) ?_
  · rw [coeff_sub, coeff_toPoly, coeff_toPoly, co_of_length_le (h.small.trans hk), co_of_length_le (h'.small.trans hk)]
    simp
  · have := dvd_sub (h'.toPoly hf.1) (h.toPoly hf.1)
    rwa [sub_sub_sub_cancel_left] at this

end Sys2Proof.Machine
end

