-- ==== Sys2Proof/Laws/Inverse.lean ====
section
/-! SUPPORT. Inversion (spec/46_element_inverse.md R171, R173): the loop keeps the ideal of its two vectors, and what it
answers is an inverse. -/

namespace Sys2Proof.Machine

open Polynomial

/-- What every pass of the loop of R171 keeps, as polynomials modulo `p`: the Bézout congruence of `y0` and `y1`, and
that the modulus and the element are combinations of the two vectors. -/
structure EuclidInv (fd : FieldRec) (e : Vec) (v : EuclidVars) : Prop where
  trimmedA : Trimmed v.a
  reducedA : Reduced fd.p v.a
  trimmedB : Trimmed v.b
  reducedB : Reduced fd.p v.b
  bezoutA : toPoly fd.p.toNat fd.mod ∣ toPoly fd.p.toNat v.y0 * toPoly fd.p.toNat e - toPoly fd.p.toNat v.a
  bezoutB : toPoly fd.p.toNat fd.mod ∣ toPoly fd.p.toNat v.y1 * toPoly fd.p.toNat e - toPoly fd.p.toNat v.b
  spanMod : ∃ c d, toPoly fd.p.toNat fd.mod = c * toPoly fd.p.toNat v.a + d * toPoly fd.p.toNat v.b
  spanElem : ∃ c d, toPoly fd.p.toNat e = c * toPoly fd.p.toNat v.a + d * toPoly fd.p.toNat v.b

theorem IsField.trimmed_mod {fd : FieldRec} (h : IsField fd) : Trimmed fd.mod :=
  ⟨fun e => by have := h.2.2.1; rw [e] at this; simp at this, .inr (by rw [h.2.2.1]; exact h.2.2.2.2)⟩

theorem euclidInv_start {fd : FieldRec} (hf : IsField fd) {e : Vec} (ht : Trimmed e) (hr : Reduced fd.p e) :
    EuclidInv fd e { a := fd.mod, b := e, x0 := [1], x1 := [0], y0 := [0], y1 := [1] } where
  trimmedA := hf.trimmed_mod
  reducedA := hf.2.2.2.1
  trimmedB := ht
  reducedB := hr
  bezoutA := by simp
  bezoutB := by simp
  spanMod := ⟨1, 0, by simp⟩
  spanElem := ⟨0, 1, by simp⟩

theorem euclidInv_pass {fd : FieldRec} (hf : IsField fd) {e : Vec} {v w : EuclidVars} (hi : EuclidInv fd e v)
    (h : einvPass fd v = .ok w) : EuclidInv fd e w ∧ degm w.b < degm v.b := by
  unfold einvPass at h
  obtain ⟨⟨q, r⟩, hd, h⟩ := Except.bind_eq_ok.mp h
  obtain ⟨qx, hqx, h⟩ := Except.bind_eq_ok.mp h
  obtain ⟨qy, hqy, h⟩ := Except.bind_eq_ok.mp h
  cases h
  obtain ⟨_, hs, _⟩ := divmod_ok hf.1 hi.trimmedA hi.reducedA hd
  have ha := hs.toPoly hf.1
  refine ⟨?_, hs.small⟩
  refine ⟨hi.trimmedB, hi.reducedB, hs.trimmedR, hs.reducedR, hi.bezoutB, ?_, ?_, ?_⟩
  · obtain ⟨x, hx⟩ := hi.bezoutA
    obtain ⟨y, hy⟩ := hi.bezoutB
    obtain ⟨z, hz⟩ := (emul_ok hf hqy).toPoly hf.1
    refine ⟨x - Machine.toPoly fd.p.toNat q * y + z * Machine.toPoly fd.p.toNat e, ?_⟩
    simp only [toPoly_esub hf.1]
    linear_combination hx - Machine.toPoly fd.p.toNat q * hy + Machine.toPoly fd.p.toNat e * hz + ha
  · obtain ⟨c, d, hc⟩ := hi.spanMod
    exact ⟨c * Machine.toPoly fd.p.toNat q + d, c, by rw [hc, ha]; ring⟩
  · obtain ⟨c, d, hc⟩ := hi.spanElem
    exact ⟨c * Machine.toPoly fd.p.toNat q + d, c, by rw [hc, ha]; ring⟩

theorem euclidInv_loop {fd : FieldRec} (hf : IsField fd) {e : Vec} (fuel : Nat) {v w : EuclidVars}
    (hi : EuclidInv fd e v) (hd : degm v.b < fuel) (h : einvLoop fd fuel v = .ok w) :
    EuclidInv fd e w ∧ iszero w.b = true := by
  induction fuel generalizing v with
  | zero =>
    cases h
    refine ⟨hi, ?_⟩
    by_contra hz
    rw [degm_of_not_iszero (by simpa using hz)] at hd
    omega
  | succ fuel ih =>
    unfold einvLoop at h
    split at h
    · next hz => cases h; exact ⟨hi, hz⟩
    · obtain ⟨v', hv, h⟩ := Except.bind_eq_ok.mp h
      obtain ⟨hi', hlt⟩ := euclidInv_pass hf hi hv
      exact ih hi' (by omega) h

theorem degm_lt_of_isElement {fd : FieldRec} {e : Vec} (h : IsElement fd e) : degm e < (fd.n + 1 : Nat) :=
  degm_lt_iff.mpr fun i hi => co_of_length_le (by have := h.2.2; omega)

/-- Whatever `einv` answers is an inverse modulo the modulus, for any characteristic (R173). -/
theorem einv_ok {fd : FieldRec} (hf : IsField fd) {e v : Vec} (he : IsElement fd e) (h : einv fd e = .ok v) :
    IsProduct fd e v [1] := by
  unfold einv at h
  split at h
  · simp at h
  obtain ⟨w, hw, h⟩ := Except.bind_eq_ok.mp h
  obtain ⟨u, hu, h⟩ := Except.bind_eq_ok.mp h
  obtain ⟨g, hg, h⟩ := Except.bind_eq_ok.mp h
  obtain ⟨hi, hz⟩ := euclidInv_loop hf _ (euclidInv_start hf he.1 he.2.1) (degm_lt_of_isElement he) hw
  rw [raiseIf_eq_ok, not_not] at hu
  have hp : (1 : Int) < fd.p := by have := hf.1; omega
  have hgc : Int.gcd (co w.a 0) fd.p = 1 := by
    by_contra hn
    rw [(invP_spec hf.1 _).2 hn] at hg
    simp at hg
  obtain ⟨g', hg', _, _, hdv⟩ := (invP_spec hf.1 _).1 hgc
  rw [hg] at hg'
  cases hg'
  refine isProduct_of_toPoly hf.1 (trimmed_singleton 1) ?_ hf.2.1 ?_
  · intro c hc
    simp only [List.mem_singleton] at hc
    omega
  · obtain ⟨x, hx⟩ := hi.bezoutA
    obtain ⟨z, hz⟩ := (emul_ok hf h).toPoly hf.1
    have hA : toPoly fd.p.toNat w.a = C ((co w.a 0 : Int) : ZMod fd.p.toNat) := by
      refine Polynomial.ext fun k => ?_
      rw [coeff_toPoly]
      cases k with
      | zero => simp
      | succ k =>
        have hlt : degm w.a < (1 : Nat) := by omega
        rw [degm_lt_iff.mp hlt (k + 1) (by omega), coeff_C_succ]; simp
    have h1 : C ((co w.a 0 : Int) : ZMod fd.p.toNat) * C ((g : Int) : ZMod fd.p.toNat) = 1 := by
      have := (cast_eq_zero_iff hf.1 _).mpr hdv
      push_cast at this
      rw [← C_mul, sub_eq_zero.mp this, C_1]
    simp only [toPoly_singleton, Int.cast_one, C_1] at *
    refine ⟨C ((g : Int) : ZMod fd.p.toNat) * x - z * toPoly fd.p.toNat e, ?_⟩
    rw [hA] at hx
    linear_combination C ((g : Int) : ZMod fd.p.toNat) * hx - toPoly fd.p.toNat e * hz + h1

/-- With a prime characteristic every non-zero reduced coefficient is a unit. -/
theorem gcd_of_prime {fd : FieldRec} (hp : Nat.Prime fd.p.toNat) {c : Int} (h0 : 0 < c) (h1 : c < fd.p) :
    Int.gcd c fd.p = 1 := by
  have h2 := hp.two_le
  have : (fd.p.natAbs).Prime := by rwa [show fd.p.natAbs = fd.p.toNat by omega]
  rw [Int.gcd_comm]
  refine (Nat.Prime.coprime_iff_not_dvd this).mpr fun hd => ?_
  have := Nat.le_of_dvd (by omega) hd
  omega

theorem gcd_lead_of_prime {fd : FieldRec} (hp : Nat.Prime fd.p.toNat) {v : Vec} (hr : Reduced fd.p v)
    (hz : iszero v = false) : Int.gcd (lead v) fd.p = 1 := by
  have h2 : 2 ≤ fd.p := by have := hp.two_le; omega
  have hb := hr.co_bounds h2 (degree v)
  have hn := lead_ne_zero hz
  exact gcd_of_prime hp (by unfold lead at *; omega) hb.2

theorem gcd_mod_of_prime {fd : FieldRec} (hf : IsField fd) (hp : Nat.Prime fd.p.toNat) :
    Int.gcd (co fd.mod fd.n) fd.p = 1 := by
  have := gcd_lead_of_prime hp hf.2.2.2.1 hf.mod_not_zero
  rwa [hf.lead_mod] at this

theorem einvPass_total {fd : FieldRec} (hf : IsField fd) (hp : Nat.Prime fd.p.toNat) {e : Vec} {v : EuclidVars}
    (hi : EuclidInv fd e v) (hz : iszero v.b = false) : ∃ w, einvPass fd v = .ok w := by
  have hg := gcd_mod_of_prime hf hp
  obtain ⟨q, r, hd, _⟩ := divmod_unit hf.1 hi.trimmedA hi.reducedA hz (gcd_lead_of_prime hp hi.reducedB hz)
  obtain ⟨qx, hx⟩ := emul_total hf q v.x1 (.inl hg)
  obtain ⟨qy, hy⟩ := emul_total hf q v.y1 (.inl hg)
  exact ⟨_, by simp [einvPass, hd, hx, hy]; rfl⟩

theorem einvLoop_total {fd : FieldRec} (hf : IsField fd) (hp : Nat.Prime fd.p.toNat) {e : Vec} (fuel : Nat)
    {v : EuclidVars} (hi : EuclidInv fd e v) : ∃ w, einvLoop fd fuel v = .ok w := by
  induction fuel generalizing v with
  | zero => exact ⟨v, rfl⟩
  | succ fuel ih =>
    unfold einvLoop
    split
    · exact ⟨v, rfl⟩
    · next hz =>
      obtain ⟨w, hw⟩ := einvPass_total hf hp hi (by simpa using hz)
      obtain ⟨w', hw'⟩ := ih (euclidInv_pass hf hi hw).1
      exact ⟨w', by rw [hw]; exact hw'⟩

/-- With a prime characteristic `einv` answers on every invertible element, and raises `NotInvertible` on every other
non-zero one (R173). -/
theorem einv_of_prime {fd : FieldRec} (hf : IsField fd) (hp : Nat.Prime fd.p.toNat) {e : Vec} (he : IsElement fd e)
    (hz : iszero e = false) :
    ((∃ v, IsProduct fd e v [1]) → ∃ v, einv fd e = .ok v) ∧
    ((¬ ∃ v, IsProduct fd e v [1]) → einv fd e = .error .notInvertible) := by
  have : Fact (Nat.Prime fd.p.toNat) := ⟨hp⟩
  obtain ⟨w, hw⟩ := einvLoop_total hf hp (fd.n + 1) (euclidInv_start hf he.1 he.2.1)
  obtain ⟨hi, hb⟩ := euclidInv_loop hf _ (euclidInv_start hf he.1 he.2.1) (degm_lt_of_isElement he) hw
  have hB : toPoly fd.p.toNat w.b = 0 :=
    (toPoly_eq_zero_iff hf.1).mpr fun k => by rw [iszero_iff.mp hb]; exact dvd_zero _
  have hall : degm w.a = 0 → ∃ v, einv fd e = .ok v := by
    intro h0
    have hza : iszero w.a = false := by
      by_contra hn; rw [degm_of_iszero (by simpa using hn)] at h0; omega
    have hd : degree w.a = 0 := by rw [degm_of_not_iszero hza] at h0; omega
    have hgc : Int.gcd (co w.a 0) fd.p = 1 := by
      have := gcd_lead_of_prime hp hi.reducedA hza
      rwa [lead, hd] at this
    obtain ⟨g, hg, _⟩ := (invP_spec hf.1 _).1 hgc
    obtain ⟨v, hv⟩ := emul_total hf [g] w.y0 (.inl (gcd_mod_of_prime hf hp))
    exact ⟨v, by rw [einv, if_neg (by simp [hz]), hw]; simp [raiseIf, h0, hg, hv]⟩
  refine ⟨fun ⟨v, hv⟩ => hall ?_, fun hn => ?_⟩
  · obtain ⟨c, d, hc⟩ := hi.spanMod
    obtain ⟨c', d', hc'⟩ := hi.spanElem
    obtain ⟨x, hx⟩ := hv.toPoly hf.1
    rw [hB, mul_zero, add_zero] at hc hc'
    simp only [toPoly_singleton, Int.cast_one, C_1] at hx
    have hu : IsUnit (toPoly fd.p.toNat w.a) := by
      refine IsUnit.of_mul_eq_one (c' * toPoly fd.p.toNat v - c * x) ?_
      rw [hc, hc'] at hx
      linear_combination hx
    have hnd := natDegree_eq_zero_of_isUnit hu
    have hza : iszero w.a = false := by
      by_contra hz'
      have : toPoly fd.p.toNat w.a = 0 :=
        (toPoly_eq_zero_iff hf.1).mpr fun k => by rw [iszero_iff.mp (by simpa using hz')]; exact dvd_zero _
      exact hu.ne_zero this
    have hlt : degm w.a < (1 : Nat) := by
      refine degm_lt_iff.mpr fun i hi' => ?_
      have := coeff_eq_zero_of_natDegree_lt (p := toPoly fd.p.toNat w.a) (n := i) (by omega)
      rw [coeff_toPoly, cast_eq_zero_iff hf.1] at this
      obtain ⟨b0, b1⟩ := hi.reducedA.co_bounds hf.1 i
      exact Int.eq_zero_of_dvd_of_nonneg_of_lt b0 b1 this
    rw [degm_of_not_iszero hza] at hlt ⊢
    omega
  · have h0 : degm w.a ≠ 0 := fun h0 => by
      obtain ⟨v, hv⟩ := hall h0
      exact hn ⟨v, einv_ok hf he hv⟩
    rw [einv, if_neg (by simp [hz]), hw]
    simp [raiseIf, h0]

end Sys2Proof.Machine
end

