-- ==== Sys2Proof/Laws/Step.lean ====
section
/-! SUPPORT. What one step can be, said once: every invariant of the block is a case analysis over `StepCase`. -/

namespace Sys2Proof.Machine

/-- Everything a step that answers `t` can have done. -/
inductive StepCase (s t : State) : Prop where
  /-- The engine executed the decoded command at the head of `Q`. -/
  | command (ts : List Turn) (w : Word) (rest : List Word) (i : Instr) (hf : s.fault = false) (hq : s.q = w :: rest)
      (hd : decode w = .ok i) (h : exec i { s with turns := ts } = .next t)
  /-- The word at the head of `Q` is illegal. -/
  | illegal (ts : List Turn) (w : Word) (rest : List Word) (e : Reject) (hf : s.fault = false) (hq : s.q = w :: rest)
      (hd : decode w = .error e) (h : t = State.takeFault { s with turns := ts } .illegalCommand)
  /-- An engine turn passed, or a host access that changes nothing but what the host has read. -/
  | quiet (ts : List Turn) (b : Option Word) (h : t = { s with turns := ts, busRead := b })
  /-- The host pushed a command. -/
  | push (ts : List Turn) (w : Word) (hf : s.fault = false) (hl : s.q.length < s.cfg.qDepth)
      (h : t = { s with turns := ts, q := s.q ++ [w] })
  /-- The host cleared `DONE`. -/
  | ack (ts : List Turn) (h : t = { s with turns := ts, done := false })
  /-- The host wrote the interrupt enables. -/
  | enables (ts : List Turn) (fie die : Bool) (h : t = { s with turns := ts, fie := fie, die := die })
  /-- The host wrote a word of OMEM. -/
  | store (ts : List Turn) (a : Nat) (w : Word) (hq : s.q = []) (ha : a < s.cfg.memWords)
      (h : t = { s with turns := ts, omem := Memory.write s.omem a w })
  /-- The host asked for a soft reset. -/
  | reset (ts : List Turn) (w : Word) (hs : s.turns = .host (.writeCsr 2 w) :: ts) (hw : w.getLsbD 31 = true)
      (h : t = State.softReset { s with turns := ts })

theorem engineStep_cases {s t : State} (h : engineStep s = .next t) :
    ∃ w rest, s.fault = false ∧ s.q = w :: rest ∧
      ((∃ i, decode w = .ok i ∧ exec i s = .next t) ∨ ∃ e, decode w = .error e ∧ t = s.takeFault .illegalCommand) := by
  unfold engineStep at h
  split at h
  · cases h
  · next hf =>
    split at h
    · cases h
    · next w rest hq =>
      refine ⟨w, rest, by simpa using hf, hq, ?_⟩
      unfold runWord at h
      split at h
      · next i hd => exact .inl ⟨i, hd, h⟩
      · next e hd => cases h; exact .inr ⟨e, hd, rfl⟩

theorem stepCase_of_engine {s t : State} (ts : List Turn) (h : engineStep { s with turns := ts } = .next t) :
    StepCase s t := by
  obtain ⟨w, rest, hf, hq, ⟨i, hd, h⟩ | ⟨e, hd, h⟩⟩ := engineStep_cases h
  · exact .command ts w rest i hf hq hd h
  · exact .illegal ts w rest e hf hq hd h

theorem csrAt_eq_some {k : Nat} {c : Csr} (h : csrAt k = some c) :
    k = match (c : Csr) with
      | .cmd => 0 | .status => 1 | .ctrl => 2 | .ecode => 3 | .ecmd => 4 | .eseq => 5 | .cseq => 6 | .param => 7 := by
  unfold csrAt at h
  split at h <;> cases h <;> rfl

theorem stepCase_of_host {s t : State} {a : HostAccess} {ts : List Turn} (hs : s.turns = .host a :: ts)
    (hh : s.holds a = false) (h : State.hostStep { s with turns := ts } a = .next t) : StepCase s t := by
  cases a with
  | readCsr k =>
    simp only [State.hostStep] at h
    split at h
    · cases h; exact .quiet ts _ rfl
    · cases h
  | writeCsr k w =>
    simp only [State.hostStep] at h
    split at h
    · next c hc =>
      have hk := csrAt_eq_some hc
      cases h
      cases c with
      | cmd =>
        cases hf : s.fault
        · refine .push ts w hf ?_ (by simp [State.writeCsr, State.pushCommand, hf])
          simpa [State.holds, hk, hf] using hh
        · exact .quiet ts s.busRead (by simp [State.writeCsr, State.pushCommand, hf])
      | status =>
        cases hw : w.getLsbD 2
        · exact .quiet ts s.busRead (by simp only [State.writeCsr, State.writeStatus, hw]; rfl)
        · exact .ack ts (by simp only [State.writeCsr, State.writeStatus, hw]; rfl)
      | ctrl =>
        cases hw : w.getLsbD 31
        · exact .enables ts _ _ (by simp only [State.writeCsr, State.writeCtrl, hw]; rfl)
        · exact .reset ts w (by rw [hs, hk]) hw (by simp only [State.writeCsr, State.writeCtrl, hw]; rfl)
      | ecode => exact .quiet ts s.busRead rfl
      | ecmd => exact .quiet ts s.busRead rfl
      | eseq => exact .quiet ts s.busRead rfl
      | cseq => exact .quiet ts s.busRead rfl
      | param => exact .quiet ts s.busRead rfl
    · cases h
  | readOmem a =>
    simp only [State.hostStep] at h
    split at h
    · cases h; exact .quiet ts _ rfl
    · cases h
  | writeOmem a w =>
    simp only [State.hostStep] at h
    split at h
    · next ha =>
      cases h
      exact .store ts a w (by simpa [State.holds, State.busy] using hh) ha rfl
    · cases h

/-- The inversion of the step. -/
theorem step_eq_next {s t : State} (h : step s = .next t) : StepCase s t := by
  rcases step_cases s with h' | ⟨rest, _, h' | h'⟩ | ⟨a, rest, hr, hh, h'⟩
  · exact stepCase_of_engine s.turns (by rw [← h, h'])
  · exact stepCase_of_engine rest (by rw [← h, h'])
  · rw [h'] at h; cases h; exact .quiet rest s.busRead rfl
  · exact stepCase_of_host hr hh (by rw [← h, h'])

end Sys2Proof.Machine
end

