-- ==== Sys2Proof/Laws/Invariant.lean ====
section
/-! SUPPORT. What the invariant of the registers asks of a written value, and that every function of the commands answers
such a value (spec/10_state.md R21, R28; spec/45_element_divmod.md R158). -/

namespace Sys2Proof.Machine

/-! ### Writing keeps the invariant -/

/-- The value fits a register under the tag. -/
structure Fits (s : State) (tag : Option FIdx) (v : Vec) : Prop where
  vector : VectorOk s.cfg v
  element : ∀ f, tag = some f → ∃ fd, s.f[f] = .valid fd ∧ IsElement fd v

theorem dataInv_writeP {s : State} (h : DataInv s) (d : PIdx) {tag : Option FIdx} {v : Vec} (hv : Fits s tag v) :
    DataInv (s.writeP d tag v) where
  cfg := h.cfg
  vectors := fun i tag' v' hi => by
    rw [State.writeP_p] at hi
    by_cases hd : d = i
    · subst hd
      simp at hi
      obtain ⟨rfl, rfl⟩ := hi
      exact hv.vector
    · rw [Fin.getElem_fin, Vector.getElem_set_ne _ _ (fun e => hd (Fin.ext e))] at hi
      exact h.vectors i tag' v' hi
  elements := fun i f v' hi => by
    rw [State.writeP_p] at hi
    by_cases hd : d = i
    · subst hd
      simp at hi
      obtain ⟨rfl, rfl⟩ := hi
      exact hv.element f rfl
    · rw [Fin.getElem_fin, Vector.getElem_set_ne _ _ (fun e => hd (Fin.ext e))] at hi
      exact h.elements i f v' hi
  scalars := h.scalars
  fields := h.fields
  aes := h.aes

theorem dataInv_writeX {s : State} (h : DataInv s) (d : XIdx) {k : Int} (hk : InRange k) : DataInv (s.writeX d k) where
  cfg := h.cfg
  vectors := h.vectors
  elements := h.elements
  scalars := fun i k' hi => by
    rw [State.writeX_x] at hi
    by_cases hd : d = i
    · subst hd
      simp at hi
      subst hi
      exact hk
    · rw [Fin.getElem_fin, Vector.getElem_set_ne _ _ (fun e => hd (Fin.ext e))] at hi
      exact h.scalars i k' hi
  fields := h.fields
  aes := h.aes

/-- A slot that was invalid is no element's slot, so making it valid keeps the invariant. -/
theorem dataInv_writeF {s : State} (h : DataInv s) (d : FIdx) {fd : FieldRec} (hd : s.f[d] = .invalid)
    (hf : FieldOk s.cfg fd) : DataInv (s.writeF d fd) := by
  have key : ∀ f : FIdx, d ≠ f → (s.writeF d fd).f[f] = s.f[f] := fun f hne => by
    rw [State.writeF_f, Fin.getElem_fin, Vector.getElem_set_ne _ _ (fun e => hne (Fin.ext e))]
    rfl
  have hself : (s.writeF d fd).f[d] = .valid fd := by rw [State.writeF_f]; simp
  refine ⟨h.cfg, h.vectors, fun i f v hi => ?_, h.scalars, fun f fd' hv => ?_, ?_⟩
  · obtain ⟨fd', hv, he⟩ := h.elements i f v hi
    exact ⟨fd', by rw [key f (by rintro rfl; rw [hd] at hv; cases hv)]; exact hv, he⟩
  · by_cases hne : d = f
    · subst hne
      rw [hself] at hv
      cases hv
      exact hf
    · rw [key f hne] at hv
      exact h.fields f fd' hv
  · rw [key 0 (by rintro rfl; rw [h.aes] at hd; cases hd)]
    exact h.aes

theorem dataInv_store {s : State} (h : DataInv s) (a : Nat) (ws : List Word) : DataInv (s.store a ws) :=
  ⟨h.cfg, h.vectors, h.elements, h.scalars, h.fields, h.aes⟩

theorem dataInv_complete {s : State} (h : DataInv s) : DataInv s.complete :=
  ⟨h.cfg, h.vectors, h.elements, h.scalars, h.fields, h.aes⟩

theorem dataInv_takeFault {s : State} (h : DataInv s) (c : Cause) : DataInv (s.takeFault c) :=
  ⟨h.cfg, h.vectors, h.elements, h.scalars, h.fields, h.aes⟩

/-! ### Values that fit -/

theorem length_pos_of_ne_nil {v : Vec} (h : v ≠ []) : 1 ≤ v.length := List.length_pos_iff.mpr h

/-- A raw polynomial fits when it is a vector the register file can hold. -/
theorem fits_raw {s : State} {v : Vec} (h : VectorOk s.cfg v) : Fits s none v := ⟨h, fun _ e => by cases e⟩

/-- An element of a valid slot fits: its coefficients lie below `p ≤ INT_MAX`, its length is at most `n + 1 ≤ MAXLEN`. -/
theorem fits_element {s : State} (h : DataInv s) {t : FIdx} {fd : FieldRec} (ht : s.f[t] = .valid fd) {v : Vec}
    (hv : IsElement fd v) : Fits s (some t) v := by
  obtain ⟨_, hp, hn, _⟩ := h.fields t fd ht
  refine ⟨⟨length_pos_of_ne_nil hv.1.1, by have := hv.2.2; omega, fun k hk => ?_⟩, fun f e => by cases e; exact ⟨fd, ht, hv⟩⟩
  have := hv.2.1 k hk
  exact ⟨by unfold intMin; omega, by omega⟩

theorem isElement_of_small {fd : FieldRec} {v : Vec} (ht : Trimmed v) (hr : Reduced fd.p v)
    (hs : ∀ i, fd.n < i → co v i = 0) : IsElement fd v := by
  refine ⟨ht, hr, ?_⟩
  rw [ht.length_eq]
  by_contra hn
  cases hz : iszero v
  · exact lead_ne_zero hz (hs _ (by omega))
  · rw [ht.eq_zero hz] at hn
    have : degree [0] = 0 := rfl
    omega

theorem isElement_enorm {fd : FieldRec} (hp : 2 ≤ fd.p) {v : Vec} (hv : v ≠ []) (hs : ∀ i, fd.n < i → co v i = 0) :
    IsElement fd (enorm fd.p v) :=
  isElement_of_small (trimmed_enorm _ hv) (reduced_enorm hp _) fun i hi => by rw [co_enorm, hs i hi, cmod_zero]

theorem IsElement.co_eq_zero {fd : FieldRec} {v : Vec} (h : IsElement fd v) {i : Nat} (hi : fd.n < i) : co v i = 0 :=
  co_of_length_le (by have := h.2.2; omega)

theorem isElement_eadd {fd : FieldRec} (hp : 2 ≤ fd.p) {u w : Vec} (hu : IsElement fd u) (hw : IsElement fd w) :
    IsElement fd (eadd fd u w) := by
  refine isElement_enorm hp ?_ fun i hi => ?_
  · have := length_pos_of_ne_nil hu.1.1
    exact fun e => by have := congrArg List.length e; rw [length_sumVec, List.length_nil] at this; omega
  · rw [co_sumVec_length, hu.co_eq_zero hi, hw.co_eq_zero hi, add_zero]

theorem isElement_esub {fd : FieldRec} (hp : 2 ≤ fd.p) {u w : Vec} (hu : IsElement fd u) (hw : IsElement fd w) :
    IsElement fd (esub fd u w) := by
  refine isElement_enorm hp ?_ fun i hi => ?_
  · have := length_pos_of_ne_nil hu.1.1
    exact fun e => by have := congrArg List.length e; rw [length_diffVec, List.length_nil] at this; omega
  · rw [co_diffVec_length, hu.co_eq_zero hi, hw.co_eq_zero hi, sub_zero]

theorem IsProduct.isElement {fd : FieldRec} {u w r : Vec} (h : IsProduct fd u w r) : IsElement fd r :=
  ⟨h.trimmed, h.reduced, by have := h.small; omega⟩

theorem isElement_singleton {fd : FieldRec} {c : Int} (h0 : 0 ≤ c) (h1 : c < fd.p) : IsElement fd [c] :=
  ⟨trimmed_singleton c, fun x hx => by simp only [List.mem_singleton] at hx; subst hx; exact ⟨h0, h1⟩, by simp⟩

theorem isElement_divmod {fd : FieldRec} (hp : 2 ≤ fd.p) {a b q r : Vec} (ha : IsElement fd a) (hb : IsElement fd b)
    (h : divmod fd a b = .ok (q, r)) : IsElement fd q ∧ IsElement fd r := by
  obtain ⟨hz, hs, hl⟩ := divmod_ok hp ha.1 ha.2.1 h
  refine ⟨⟨hs.trimmedQ, hs.reducedQ, ?_⟩, isElement_of_small hs.trimmedR hs.reducedR fun i hi => ?_⟩
  · have := ha.2.2
    rcases hl with rfl | hl
    · simp
    · omega
  · have := hs.small
    rw [degm_of_not_iszero hz] at this
    have hb' := hb.2.2
    have hl' := hb.1.length_eq
    exact degm_lt_iff.mp this i (by omega)

theorem isElement_einv {fd : FieldRec} (hf : IsField fd) {e v : Vec} (h : einv fd e = .ok v) : IsElement fd v := by
  unfold einv at h
  split at h
  · simp at h
  obtain ⟨_, _, h⟩ := Except.bind_eq_ok.mp h
  obtain ⟨_, _, h⟩ := Except.bind_eq_ok.mp h
  obtain ⟨_, _, h⟩ := Except.bind_eq_ok.mp h
  exact (emul_ok hf h).isElement

theorem isElement_epowLoop {fd : FieldRec} (hf : IsField fd) {u : Vec} (k : Nat) {r v : Vec} (hr : IsElement fd r)
    (h : epowLoop fd u k r = .ok v) : IsElement fd v := by
  induction k generalizing r with
  | zero => cases h; exact hr
  | succ k ih =>
    unfold epowLoop at h
    split at h
    · next hm => exact ih (emul_ok hf hm).isElement h
    · cases h

/-- The order found lies between 0 and the bound of the search (R184). -/
theorem eordLoop_bounds {fd : FieldRec} {u : Vec} (fuel k : Nat) {r : Vec} {v : Int}
    (h : eordLoop fd u fuel k r = .ok v) : 0 ≤ v ∧ v < k + fuel ∨ v = 0 := by
  induction fuel generalizing k r with
  | zero => cases h; exact .inr rfl
  | succ fuel ih =>
    unfold eordLoop at h
    split at h
    · cases h; exact .inl ⟨by omega, by omega⟩
    · split at h
      · have := ih (k + 1) h; push_cast at this ⊢; omega
      · cases h

end Sys2Proof.Machine
end

