-- ==== Sys2Proof/Laws/Memory.lean ====
section
/-! SUPPORT. The laws of OMEM: what a read answers after a write, and that every memory operation keeps the canonical
form. -/

namespace Sys2Proof.Machine.Memory

@[simp] theorem read_nil (a : Nat) : read [] a = unlisted := rfl

theorem read_cons (b : Nat) (w : Word) (m : Memory) (a : Nat) :
    read ((b, w) :: m) a = if b = a then w else read m a := rfl

/-- What the canonical form says of a non-empty list. -/
theorem wf_cons (a : Nat) (w : Word) (m : Memory) :
    wf ((a, w) :: m) = true ↔ w ≠ unlisted ∧ (∀ e ∈ m, a < e.1) ∧ wf m = true := by
  simp [wf, and_assoc]

/-- An address below every listed one is unlisted. -/
theorem read_of_lt {m : Memory} {a : Nat} (h : ∀ e ∈ m, a < e.1) : read m a = unlisted := by
  induction m with
  | nil => rfl
  | cons e m ih =>
    have h1 := h e (by simp)
    rw [read_cons, if_neg (by omega), ih fun x hx => h x (by simp [hx])]

/-- Read after write, at the same and at every other address. -/
theorem read_write {m : Memory} (hm : wf m = true) (a b : Nat) (w : Word) :
    read (write m a w) b = if b = a then w else read m b := by
  induction m with
  | nil =>
    by_cases hw : w = unlisted <;> by_cases hb : b = a <;>
      simp [write, hw, hb, read_cons, eq_comm]
    intro h; exact absurd h.symm hb
  | cons e m ih =>
    obtain ⟨c, v⟩ := e
    obtain ⟨_, hlt, hm'⟩ := (wf_cons c v m).mp hm
    simp only [write]
    split
    · next hac =>
      have hrest : ∀ e ∈ (c, v) :: m, a < e.1 := by
        intro e he
        rcases List.mem_cons.mp he with rfl | he
        · exact hac
        · exact lt_trans hac (hlt e he)
      split
      · next hw =>
        by_cases hb : b = a
        · rw [if_pos hb, hb, read_of_lt hrest, hw]
        · rw [if_neg hb]
      · rw [read_cons]
        by_cases hb : b = a
        · rw [if_pos hb.symm, if_pos hb]
        · rw [if_neg (Ne.symm hb), if_neg hb]
    · split
      · next hac =>
        subst hac
        split
        · next hw =>
          by_cases hb : b = a
          · rw [if_pos hb, hb, read_of_lt hlt, hw]
          · rw [if_neg hb, read_cons, if_neg (Ne.symm hb)]
        · by_cases hb : b = a
          · rw [if_pos hb, read_cons, if_pos hb.symm]
          · rw [if_neg hb, read_cons, read_cons, if_neg (Ne.symm hb), if_neg (Ne.symm hb)]
      · next hna hne =>
        rw [read_cons, read_cons, ih hm']
        by_cases hcb : c = b
        · have hba : b ≠ a := fun e => hne (by omega)
          rw [if_pos hcb, if_pos hcb, if_neg hba]
        · rw [if_neg hcb, if_neg hcb]

/-- A write lists no address but the old ones and its own. -/
theorem mem_write {m : Memory} {a : Nat} {w : Word} {e : Nat × Word} (h : e ∈ write m a w) : e ∈ m ∨ e.1 = a := by
  induction m with
  | nil =>
    simp only [write] at h
    split at h
    · exact absurd h (by simp)
    · simp only [List.mem_singleton] at h; exact .inr (by rw [h])
  | cons x m ih =>
    obtain ⟨c, v⟩ := x
    simp only [write] at h
    split at h
    · split at h
      · exact .inl h
      · rcases List.mem_cons.mp h with rfl | h
        · exact .inr rfl
        · exact .inl h
    · split at h
      · split at h
        · exact .inl (List.mem_cons_of_mem _ h)
        · rcases List.mem_cons.mp h with rfl | h
          · exact .inr rfl
          · exact .inl (List.mem_cons_of_mem _ h)
      · rcases List.mem_cons.mp h with rfl | h
        · exact .inl (by simp)
        · exact (ih h).imp (List.mem_cons_of_mem _) id

/-- A write keeps the canonical form. -/
theorem write_wf {m : Memory} (hm : wf m = true) (a : Nat) (w : Word) : wf (write m a w) = true := by
  induction m with
  | nil => by_cases hw : w = unlisted <;> simp [write, hw, wf]
  | cons x m ih =>
    obtain ⟨c, v⟩ := x
    obtain ⟨hv, hlt, hm'⟩ := (wf_cons c v m).mp hm
    simp only [write]
    split
    · next hac =>
      split
      · exact hm
      · next hw =>
        refine (wf_cons _ _ _).mpr ⟨hw, fun e he => ?_, hm⟩
        rcases List.mem_cons.mp he with rfl | he
        · exact hac
        · exact lt_trans hac (hlt e he)
    · split
      · next hac =>
        split
        · exact hm'
        · next hw => exact (wf_cons _ _ _).mpr ⟨hw, fun e he => hac ▸ hlt e he, hm'⟩
      · next hna hne =>
        refine (wf_cons _ _ _).mpr ⟨hv, fun e he => ?_, ih hm'⟩
        rcases mem_write he with he | he
        · exact hlt e he
        · omega

/-- Writing a list of words keeps the canonical form. -/
theorem writeList_wf {m : Memory} (hm : wf m = true) (a : Nat) (ws : List Word) : wf (writeList m a ws) = true := by
  induction ws generalizing m a with
  | nil => exact hm
  | cons w ws ih => exact ih (write_wf hm a w) (a + 1)

/-- Read after writing a list of words. -/
theorem read_writeList {m : Memory} (hm : wf m = true) (a : Nat) (ws : List Word) (b : Nat) :
    read (writeList m a ws) b = if a ≤ b ∧ b < a + ws.length then ws.getD (b - a) unlisted else read m b := by
  induction ws generalizing m a with
  | nil => simp [writeList]
  | cons w ws ih =>
    rw [writeList, ih (write_wf hm a w), read_write hm]
    by_cases h : b = a
    · subst h; simp
    · rcases Nat.lt_or_ge b a with hlt | hge
      · rw [if_neg (by omega), if_neg h, if_neg (by simp; omega)]
      · obtain ⟨k, rfl⟩ : ∃ k, b = a + 1 + k := ⟨b - (a + 1), by omega⟩
        have e1 : a + 1 + k - (a + 1) = k := by omega
        have e2 : a + 1 + k - a = k + 1 := by omega
        simp only [e1, e2, List.length_cons, List.getD_cons_succ]
        by_cases hk : k < ws.length
        · rw [if_pos (by omega), if_pos (by omega)]
        · rw [if_neg (by omega), if_neg h, if_neg (by omega)]

/-- Writing a list of words lists no address but the old ones and its own. -/
theorem mem_writeList {m : Memory} {a : Nat} {ws : List Word} {e : Nat × Word} (h : e ∈ writeList m a ws) :
    e ∈ m ∨ (a ≤ e.1 ∧ e.1 < a + ws.length) := by
  induction ws generalizing m a with
  | nil => exact .inl h
  | cons w ws ih =>
    rcases ih h with h | h
    · rcases mem_write h with h | h
      · exact .inl h
      · exact .inr (by simp; omega)
    · exact .inr (by simp; omega)

end Sys2Proof.Machine.Memory
end

