-- ==== Sys2Proof/Laws/PerInstr.lean ====
section
/-! SUPPORT. Statements made per instruction: the opcode field of every command's word (spec/30_encoding.md R75). -/

namespace Sys2Proof.Laws.OpcodeField

/-- The opcode of R75. -/
def opcode : Instr → Nat
  | .nop => 0x01
  | .pld _ _ => 0x10
  | .pst _ _ => 0x11
  | .xld _ _ => 0x12
  | .xst _ _ => 0x13
  | .xli _ _ => 0x14
  | .eldb _ _ _ => 0x15
  | .estb _ _ => 0x16
  | .copy _ _ => 0x17
  | .pdeg _ _ => 0x20
  | .plead _ _ => 0x21
  | .pisz _ _ => 0x22
  | .piso _ _ => 0x23
  | .pnorm _ _ => 0x24
  | .padd _ _ _ => 0x30
  | .psub _ _ _ => 0x31
  | .pmul _ _ _ => 0x32
  | .fnew _ _ _ _ => 0x40
  | .ezero _ _ => 0x41
  | .eone _ _ => 0x42
  | .enew _ _ _ => 0x43
  | .enorm _ _ => 0x44
  | .eadd _ _ _ => 0x50
  | .esub _ _ _ => 0x51
  | .emul _ _ _ => 0x52
  | .edivmod _ _ _ _ => 0x53
  | .emod _ _ _ => 0x54
  | .einv _ _ => 0x55
  | .epow _ _ _ => 0x56
  | .eord _ _ => 0x57

/-- The opcode field of the word of the command is the command's opcode. -/
def Statement (i : Instr) : Prop := opField (encode i) = BitVec.ofNat 8 (opcode i)

theorem slot_lt (f : FIdx) : f.val < 16 := by omega

theorem nop : Statement .nop :=
  rfl

theorem pld (d : PIdx) (addr : Imm) : Statement (.pld d addr) :=
  (fields_mWord addr d.isLt (by decide)).1

theorem pst (d : PIdx) (addr : Imm) : Statement (.pst d addr) :=
  (fields_mWord addr d.isLt (by decide)).1

theorem xld (d : XIdx) (addr : Imm) : Statement (.xld d addr) :=
  (fields_mWord addr d.isLt (by decide)).1

theorem xst (d : XIdx) (addr : Imm) : Statement (.xst d addr) :=
  (fields_mWord addr d.isLt (by decide)).1

theorem xli (d : XIdx) (imm : Imm) : Statement (.xli d imm) :=
  (fields_mWord imm d.isLt (by decide)).1

theorem eldb (d : PIdx) (f : FIdx) (addr : Imm) : Statement (.eldb d f addr) :=
  (fields_mWord addr d.isLt (slot_lt f)).1

theorem estb (d : PIdx) (addr : Imm) : Statement (.estb d addr) :=
  (fields_mWord addr d.isLt (by decide)).1

theorem copy (d : PIdx) (a : PIdx) : Statement (.copy d a) :=
  (fields_rWord d.isLt a.isLt (by decide) (by decide)).1

theorem pdeg (d : XIdx) (a : PIdx) : Statement (.pdeg d a) :=
  (fields_rWord d.isLt a.isLt (by decide) (by decide)).1

theorem plead (d : XIdx) (a : PIdx) : Statement (.plead d a) :=
  (fields_rWord d.isLt a.isLt (by decide) (by decide)).1

theorem pisz (d : XIdx) (a : PIdx) : Statement (.pisz d a) :=
  (fields_rWord d.isLt a.isLt (by decide) (by decide)).1

theorem piso (d : XIdx) (a : PIdx) : Statement (.piso d a) :=
  (fields_rWord d.isLt a.isLt (by decide) (by decide)).1

theorem pnorm (d : PIdx) (a : PIdx) : Statement (.pnorm d a) :=
  (fields_rWord d.isLt a.isLt (by decide) (by decide)).1

theorem padd (d : PIdx) (a : PIdx) (b : PIdx) : Statement (.padd d a b) :=
  (fields_rWord d.isLt a.isLt b.isLt (by decide)).1

theorem psub (d : PIdx) (a : PIdx) (b : PIdx) : Statement (.psub d a b) :=
  (fields_rWord d.isLt a.isLt b.isLt (by decide)).1

theorem pmul (d : PIdx) (a : PIdx) (b : PIdx) : Statement (.pmul d a b) :=
  (fields_rWord d.isLt a.isLt b.isLt (by decide)).1

theorem fnew (d : FIdx) (a : XIdx) (b : XIdx) (c : PIdx) : Statement (.fnew d a b c) :=
  (fields_rWord (slot_lt d) a.isLt b.isLt c.isLt).1

theorem ezero (d : PIdx) (a : FIdx) : Statement (.ezero d a) :=
  (fields_rWord d.isLt (slot_lt a) (by decide) (by decide)).1

theorem eone (d : PIdx) (a : FIdx) : Statement (.eone d a) :=
  (fields_rWord d.isLt (slot_lt a) (by decide) (by decide)).1

theorem enew (d : PIdx) (a : PIdx) (b : FIdx) : Statement (.enew d a b) :=
  (fields_rWord d.isLt a.isLt (slot_lt b) (by decide)).1

theorem enorm (d : PIdx) (a : PIdx) : Statement (.enorm d a) :=
  (fields_rWord d.isLt a.isLt (by decide) (by decide)).1

theorem eadd (d : PIdx) (a : PIdx) (b : PIdx) : Statement (.eadd d a b) :=
  (fields_rWord d.isLt a.isLt b.isLt (by decide)).1

theorem esub (d : PIdx) (a : PIdx) (b : PIdx) : Statement (.esub d a b) :=
  (fields_rWord d.isLt a.isLt b.isLt (by decide)).1

theorem emul (d : PIdx) (a : PIdx) (b : PIdx) : Statement (.emul d a b) :=
  (fields_rWord d.isLt a.isLt b.isLt (by decide)).1

theorem edivmod (d : PIdx) (c : PIdx) (a : PIdx) (b : PIdx) : Statement (.edivmod d c a b) :=
  (fields_rWord d.isLt a.isLt b.isLt c.isLt).1

theorem emod (d : PIdx) (a : PIdx) (b : PIdx) : Statement (.emod d a b) :=
  (fields_rWord d.isLt a.isLt b.isLt (by decide)).1

theorem einv (d : PIdx) (a : PIdx) : Statement (.einv d a) :=
  (fields_rWord d.isLt a.isLt (by decide) (by decide)).1

theorem epow (d : PIdx) (a : PIdx) (b : XIdx) : Statement (.epow d a b) :=
  (fields_rWord d.isLt a.isLt b.isLt (by decide)).1

theorem eord (d : XIdx) (a : PIdx) : Statement (.eord d a) :=
  (fields_rWord d.isLt a.isLt (by decide) (by decide)).1

end Sys2Proof.Laws.OpcodeField
end

