-- ==== Sys2Proof/Machine/Assembler.lean ====
section
/-! DEFINITION. The assembler syntax of a command (spec/30_encoding.md R79): mnemonic, destinations, sources. The
pseudo-instructions of R80 are abbreviations in Sys2Proof/Syntax.lean. -/

namespace Sys2Proof.Machine

/-- `P0`..`P15`. -/
def pName (i : PIdx) : String := "P" ++ toString i.val
/-- `X0`..`X15`. -/
def xName (i : XIdx) : String := "X" ++ toString i.val
/-- `F0`..`F3`. -/
def fName (i : FIdx) : String := "F" ++ toString i.val
/-- `[n]`, decimal. -/
def addrName (a : Imm) : String := "[" ++ toString a.toNat ++ "]"

/-- The operands of a command, in the order R79 lists them. -/
def operandNames : Instr → List String
  | .nop => []
  | .pld d a => [pName d, addrName a]
  | .pst d a => [pName d, addrName a]
  | .xld d a => [xName d, addrName a]
  | .xst d a => [xName d, addrName a]
  | .xli d k => [xName d, toString k.toInt]
  | .eldb d f a => [pName d, fName f, addrName a]
  | .estb d a => [pName d, addrName a]
  | .copy d a => [pName d, pName a]
  | .pdeg d a => [xName d, pName a]
  | .plead d a => [xName d, pName a]
  | .pisz d a => [xName d, pName a]
  | .piso d a => [xName d, pName a]
  | .pnorm d a => [pName d, pName a]
  | .padd d a b => [pName d, pName a, pName b]
  | .psub d a b => [pName d, pName a, pName b]
  | .pmul d a b => [pName d, pName a, pName b]
  | .fnew d a b c => [fName d, xName a, xName b, pName c]
  | .ezero d a => [pName d, fName a]
  | .eone d a => [pName d, fName a]
  | .enew d a b => [pName d, pName a, fName b]
  | .enorm d a => [pName d, pName a]
  | .eadd d a b => [pName d, pName a, pName b]
  | .esub d a b => [pName d, pName a, pName b]
  | .emul d a b => [pName d, pName a, pName b]
  | .edivmod d c a b => [pName d, pName c, pName a, pName b]
  | .emod d a b => [pName d, pName a, pName b]
  | .einv d a => [pName d, pName a]
  | .epow d a b => [pName d, pName a, xName b]
  | .eord d a => [xName d, pName a]

/-- The line of assembler text of a command (R79). -/
def assemblerText (i : Instr) : String :=
  i.mnemonic ++ (if (operandNames i).isEmpty then "" else " ") ++ String.intercalate ", " (operandNames i)

end Sys2Proof.Machine
end

