-- ==== Sys2Proof/Tests/Slice0.lean ====
section
/-! SUPPORT. The model's own tests. Expected results are the spec's: the words of spec/30_encoding.md R81 and of the
examples of files 40 to 48, and the vectors of spec/95_test_vectors.md (V numbers in the comments). A theorem
`witness_<Name>` shows, clause by clause, concrete values that meet the hypotheses of `Obligations.<Name>`. -/

namespace Sys2Proof.Tests

open Sys2Proof Sys2Proof.Machine Sys2Proof.Claims

/-! ### Helpers -/

/-- The next state, if the answer is one. -/
def nextOf : Answer → Option State
  | .next t => some t
  | .fault _ => none
  | .refused _ => none

theorem eq_next_of_nextOf {o : Answer} {t : State} (h : nextOf o = some t) : o = .next t := by
  cases o <;> simp_all [nextOf]

/-- Right after reset, with one word queued. -/
def base : State := { State.reset with q := [0x01000000#32] }

/-- The same block with 9 coefficients a register, 8 words of OMEM and a queue of 2. -/
def tiny : State := { base with cfg := { maxLen := 9, memWords := 8, qDepth := 2 } }

/-- GF(5, 2, 3x^2 + 4x + 1), the source's example field (its modulus is reducible; R134). -/
def fieldG : FieldRec := { p := 5, n := 2, mod := [1, 4, 3], ord := some 24 }

/-- The ring of V172: `p = 4`, with a modulus whose leading coefficient 2 is no unit. -/
def ringZ4 : FieldRec := { p := 4, n := 1, mod := [1, 2], ord := some 3 }

/-- The field of V171, whose order does not fit 32 bits. -/
def fieldBig : FieldRec := { p := 46341, n := 2, mod := [1, 0, 1], ord := none }

/-- `x^2` over GF(2): a ring in which `x` is nilpotent. -/
def ringNil : FieldRec := { p := 2, n := 2, mod := [0, 0, 1], ord := some 3 }

/-- F1 = G, F2 = Z4, F3 = the big field. -/
def rings : State := withF (withF (withF base 1 fieldG) 2 ringZ4) 3 fieldBig

/-- A state in which the host moves next. -/
def hostTurn (s : State) (a : HostAccess) : State := { s with turns := [.host a] }

/-! ### Well-formed commands and the decoder -/

/-- EDIVMOD with one register as both destinations has no encoding (R76); every other pair has one. -/
theorem test_wellFormed_refuses_equal_destinations :
    Instr.wellFormed (.edivmod 5 5 1 2) = false ∧ Instr.wellFormed (.edivmod 5 6 1 2) = true := by decide

/-- Data movement and NOP (examples of R91 to R98, R190). -/
theorem test_decode_data_movement :
    decode 0x01000000#32 = .ok .nop ∧ decode 0x10100100#32 = .ok (.pld 1 0x100#16) ∧
    decode 0x11200200#32 = .ok (.pst 2 0x200#16) ∧ decode 0x12000010#32 = .ok (.xld 0 0x10#16) ∧
    decode 0x13300020#32 = .ok (.xst 3 0x20#16) ∧ decode 0x1420FFFF#32 = .ok (.xli 2 0xFFFF#16) ∧
    decode 0x15400010#32 = .ok (.eldb 4 0 16#16) ∧ decode 0x16600012#32 = .ok (.estb 6 18#16) ∧
    decode 0x17910000#32 = .ok (.copy 9 1) := ⟨rfl, rfl, rfl, rfl, rfl, rfl, rfl, rfl, rfl⟩

/-- Queries and raw arithmetic (examples of R111 to R124). -/
theorem test_decode_polynomials :
    decode 0x20010000#32 = .ok (.pdeg 0 1) ∧ decode 0x21110000#32 = .ok (.plead 1 1) ∧
    decode 0x22220000#32 = .ok (.pisz 2 2) ∧ decode 0x23330000#32 = .ok (.piso 3 3) ∧
    decode 0x24550000#32 = .ok (.pnorm 5 5) ∧ decode 0x30312000#32 = .ok (.padd 3 1 2) ∧
    decode 0x31312000#32 = .ok (.psub 3 1 2) ∧ decode 0x32312000#32 = .ok (.pmul 3 1 2) :=
  ⟨rfl, rfl, rfl, rfl, rfl, rfl, rfl, rfl⟩

/-- Fields and elements (examples of R133 to R183). -/
theorem test_decode_fields_and_elements :
    decode 0x40101200#32 = .ok (.fnew 1 0 1 2) ∧ decode 0x41000000#32 = .ok (.ezero 0 0) ∧
    decode 0x42710000#32 = .ok (.eone 7 1) ∧ decode 0x43441000#32 = .ok (.enew 4 4 1) ∧
    decode 0x44540000#32 = .ok (.enorm 5 4) ∧ decode 0x50312000#32 = .ok (.eadd 3 1 2) ∧
    decode 0x51312000#32 = .ok (.esub 3 1 2) ∧ decode 0x52312000#32 = .ok (.emul 3 1 2) ∧
    decode 0x53512600#32 = .ok (.edivmod 5 6 1 2) ∧ decode 0x54312000#32 = .ok (.emod 3 1 2) ∧
    decode 0x55210000#32 = .ok (.einv 2 1) ∧ decode 0x56210000#32 = .ok (.epow 2 1 0) ∧
    decode 0x57110000#32 = .ok (.eord 1 1) := ⟨rfl, rfl, rfl, rfl, rfl, rfl, rfl, rfl, rfl, rfl, rfl, rfl, rfl⟩

/-- Illegal words (R77; V59 to V66): opcode, must-be-zero fields, slot indexes, equal destinations. -/
theorem test_decode_rejects :
    decode 0x00000000#32 = .error .unassignedOpcode ∧ decode 0xFFFFFFFF#32 = .error .unassignedOpcode ∧
    decode 0x01000001#32 = .error .nonzeroField ∧ decode 0x52312001#32 = .error .nonzeroField ∧
    decode 0x10110000#32 = .error .nonzeroField ∧ decode 0x14010005#32 = .error .nonzeroField ∧
    decode 0x16610012#32 = .error .nonzeroField ∧ decode 0x41040000#32 = .error .fieldSlotRange ∧
    decode 0x43114000#32 = .error .fieldSlotRange ∧ decode 0x40401200#32 = .error .fieldSlotRange ∧
    decode 0x15140010#32 = .error .fieldSlotRange ∧ decode 0x53511500#32 = .error .sameDestinations :=
  ⟨rfl, rfl, rfl, rfl, rfl, rfl, rfl, rfl, rfl, rfl, rfl, rfl⟩

/-- Assembler text (R79) and the pseudo-instructions (R80). -/
theorem test_assembler :
    assemblerText (.edivmod 5 6 1 2) = "EDIVMOD P5, P6, P1, P2" ∧ assemblerText (.pld 1 0x100#16) = "PLD P1, [256]" ∧
    assemblerText (.xli 2 0xFFFF#16) = "XLI X2, -1" ∧ assemblerText .nop = "NOP" ∧
    assemblerText (.fnew 1 0 1 2) = "FNEW F1, X0, X1, P2" ∧
    Instr.esqr 3 1 = .emul 3 1 1 ∧ Instr.psqr 3 1 = .pmul 3 1 1 ∧ Instr.mov 9 1 = .copy 9 1 := by decide

/-! ### Data movement -/

/-- R190: three NOPs from reset leave `CSEQ = 3` and nothing else changed but `DONE`, as V420 has it (R33; log 20). -/
theorem test_nop :
    nextOf (exec .nop base) = some (counted base) ∧ (counted (counted (counted base))).cseq = 3#32 := by decide

def pldState : State := withOmem base [(0x100, 5#32), (0x103, 4#32), (0x105, 456#32), (0x138, 33#32), (0xFFFF, 1#32)]

/-- V67, V71, V72, V74, and the address at MEMWORDS. -/
theorem witness_PldLoadsVector :
    (tiny.fault = false ∧ tiny.cfg.memWords ≤ (8#16).toNat ∧
      nextOf (exec (.pld 1 8#16) tiny) = some (faulted tiny 15#5)) ∧
    ((0x130#16).toNat < pldState.cfg.memWords ∧ (Memory.read pldState.omem 0x130).toInt < 1 ∧
      nextOf (exec (.pld 1 0x130#16) pldState) = some (faulted pldState 1#5)) ∧
    ((pldState.cfg.maxLen : Int) < (Memory.read pldState.omem 0x138).toInt ∧
      nextOf (exec (.pld 1 0x138#16) pldState) = some (faulted pldState 1#5)) ∧
    ((Memory.read pldState.omem 0xFFFF).toInt = (1 : Nat) ∧ pldState.cfg.memWords ≤ (0xFFFF#16).toNat + 1 ∧
      nextOf (exec (.pld 1 0xFFFF#16) pldState) = some (faulted pldState 15#5)) ∧
    ((Memory.read pldState.omem 0x100).toInt = (5 : Nat) ∧ (0x100#16).toNat + 5 < pldState.cfg.memWords ∧
      nextOf (exec (.pld 1 0x100#16) pldState) = some (counted (withP pldState 1 none [0, 0, 4, 0, 456]))) := by
  decide

def pstState : State := withP base 3 (some 1) [4, 2]

/-- V76, V80 (one word too far), V81. -/
theorem witness_PstStoresVector :
    (base.fault = false ∧ base.p[(5 : PIdx)] = .unwritten ∧
      nextOf (exec (.pst 5 0#16) base) = some (faulted base 10#5)) ∧
    (pstState.fault = false ∧ pstState.p[(3 : PIdx)] = .held (some 1) [4, 2] ∧
      pstState.cfg.memWords ≤ (0xFFFE#16).toNat + [4, 2].length ∧
      nextOf (exec (.pst 3 0xFFFE#16) pstState) = some (faulted pstState 15#5)) ∧
    ((0xFFFD#16).toNat + [4, 2].length < pstState.cfg.memWords ∧ Memory.wf pstState.omem = true ∧
      nextOf (exec (.pst 3 0xFFFD#16) pstState) =
        some (counted (withOmem pstState [(0xFFFD, 2#32), (0xFFFE, 4#32), (0xFFFF, 2#32)]))) := by decide

def xldState : State := withOmem base [(0x61, 0xFFFFFE38#32)]

/-- V83, V87, V89, and the address at MEMWORDS. -/
theorem witness_XldXliLoadScalar :
    (tiny.fault = false ∧ tiny.cfg.memWords ≤ (8#16).toNat ∧
      nextOf (exec (.xld 1 8#16) tiny) = some (faulted tiny 15#5)) ∧
    (xldState.fault = false ∧ (0x61#16).toNat < xldState.cfg.memWords ∧
      nextOf (exec (.xld 4 0x61#16) xldState) = some (counted (withX xldState 4 (-456)))) ∧
    nextOf (exec (.xli 2 0xFFFF#16) base) = some (counted (withX base 2 (-1))) ∧
    nextOf (exec (.xli 2 0x8000#16) base) = some (counted (withX base 2 (-32768))) := by decide

/-- V84, V85, and the address at MEMWORDS; XST of 0 leaves nothing listed. -/
theorem witness_XstStoresScalar :
    (base.fault = false ∧ base.x[(5 : XIdx)] = .unwritten ∧
      nextOf (exec (.xst 5 0#16) base) = some (faulted base 10#5)) ∧
    ((withX tiny 1 7).fault = false ∧ (withX tiny 1 7).x[(1 : XIdx)] = .held 7 ∧ tiny.cfg.memWords ≤ (8#16).toNat ∧
      nextOf (exec (.xst 1 8#16) (withX tiny 1 7)) = some (faulted (withX tiny 1 7) 15#5)) ∧
    ((0x221#16).toNat < base.cfg.memWords ∧ Memory.wf base.omem = true ∧
      nextOf (exec (.xst 1 0x221#16) (withX base 1 (-456))) =
        some (counted (withOmem (withX base 1 (-456)) [(0x221, 0xFFFFFE38#32)]))) ∧
    nextOf (exec (.xst 1 0x61#16) (withX xldState 1 0)) =
      some (counted (withOmem (withX xldState 1 0) [])) := by decide

def eldbState : State := withOmem rings [(0x10, 0xA3#32), (0x11, 0x100#32), (0x13, 0xFF#32)]

/-- V90, V94, V95, V96, the byte 0xFF, and the address at MEMWORDS. -/
theorem witness_EldbLoadsByte :
    (base.fault = false ∧ base.f[(2 : FIdx)] = .invalid ∧
      nextOf (exec (.eldb 1 2 0x10#16) base) = some (faulted base 12#5)) ∧
    (eldbState.fault = false ∧ eldbState.f[(1 : FIdx)] = .valid fieldG ∧ ¬ (fieldG.p = 2 ∧ fieldG.n = 8) ∧
      nextOf (exec (.eldb 1 1 0x10#16) eldbState) = some (faulted eldbState 12#5)) ∧
    (tiny.f[(0 : FIdx)] = .valid aesField ∧ aesField.p = 2 ∧ aesField.n = 8 ∧ tiny.cfg.memWords ≤ (8#16).toNat ∧
      nextOf (exec (.eldb 1 0 8#16) tiny) = some (faulted tiny 15#5)) ∧
    ((0x11#16).toNat < eldbState.cfg.memWords ∧ 256 ≤ (Memory.read eldbState.omem 0x11).toNat ∧
      nextOf (exec (.eldb 1 0 0x11#16) eldbState) = some (faulted eldbState 1#5)) ∧
    ((Memory.read eldbState.omem 0x13).toNat < 256 ∧
      nextOf (exec (.eldb 1 0 0x13#16) eldbState) =
        some (counted (withP eldbState 1 (some 0) [1, 1, 1, 1, 1, 1, 1, 1]))) ∧
    nextOf (exec (.eldb 1 0 0x10#16) eldbState) =
      some (counted (withP eldbState 1 (some 0) [1, 1, 0, 0, 0, 1, 0, 1])) := by decide

def estbState : State :=
  withP (withP (withP (withP rings 0 none [1, 4, 3]) 1 (some 1) [1]) 3 (some 0) [1, 1, 1, 0, 0, 1, 1, 1])
    4 (some 0) [1, 1, 0, 1, 1, 0, 0, 0, 1]

/-- The coefficients of a list of at most `n` entries are 0 from `n` up. -/
theorem co_zero_from {v : Vec} {n : Nat} (h : v.length ≤ n) : ∀ k, n ≤ k → co v k = 0 :=
  fun _ hk => co_of_length_le (h.trans hk)

/-- V97, V99, V100, V101 (degree 8, the least that does not fit), and the address at MEMWORDS. -/
theorem witness_EstbStoresByte :
    (estbState.fault = false ∧ estbState.p[(5 : PIdx)] = .unwritten ∧
      nextOf (exec (.estb 5 0x20#16) estbState) = some (faulted estbState 10#5)) ∧
    (estbState.p[(0 : PIdx)] = .held none [1, 4, 3] ∧
      nextOf (exec (.estb 0 0x20#16) estbState) = some (faulted estbState 11#5)) ∧
    (estbState.p[(1 : PIdx)] = .held (some 1) [1] ∧ estbState.f[(1 : FIdx)] = .valid fieldG ∧
      ¬ (fieldG.p = 2 ∧ fieldG.n = 8) ∧ nextOf (exec (.estb 1 0x20#16) estbState) = some (faulted estbState 12#5)) ∧
    (estbState.p[(4 : PIdx)] = .held (some 0) [1, 1, 0, 1, 1, 0, 0, 0, 1] ∧ estbState.f[(0 : FIdx)] = .valid aesField ∧
      (∃ k, IsDegree [1, 1, 0, 1, 1, 0, 0, 0, 1] k ∧ 7 < k) ∧
      nextOf (exec (.estb 4 0x20#16) estbState) = some (faulted estbState 5#5)) ∧
    ((∀ k, 7 < k → co [0, 1] k = 0) ∧ tiny.cfg.memWords ≤ (8#16).toNat ∧
      nextOf (exec (.estb 3 8#16) (withP tiny 3 (some 0) [0, 1])) = some (faulted (withP tiny 3 (some 0) [0, 1]) 15#5)) ∧
    (estbState.p[(3 : PIdx)] = .held (some 0) [1, 1, 1, 0, 0, 1, 1, 1] ∧
      (∀ k, 7 < k → co [1, 1, 1, 0, 0, 1, 1, 1] k = 0) ∧ (0x20#16).toNat < estbState.cfg.memWords ∧
      Memory.wf estbState.omem = true ∧
      nextOf (exec (.estb 3 0x20#16) estbState) = some (counted (withOmem estbState [(0x20, 0xE7#32)]))) :=
  ⟨by decide, by decide, by decide, ⟨by decide, by decide, ⟨8, isDegree_degree _, by decide⟩, by decide⟩,
    ⟨co_zero_from (by decide), by decide, by decide⟩, ⟨by decide, co_zero_from (by decide), by decide, by decide, by decide⟩⟩

/-- V102, V104. -/
theorem witness_CopyCopiesTagAndVector :
    (base.fault = false ∧ base.p[(1 : PIdx)] = .unwritten ∧
      nextOf (exec (.copy 2 1) base) = some (faulted base 10#5)) ∧
    ((withP base 0 (some 1) [4, 2]).p[(0 : PIdx)] = .held (some 1) [4, 2] ∧
      nextOf (exec (.copy 15 0) (withP base 0 (some 1) [4, 2])) =
        some (counted (withP (withP base 0 (some 1) [4, 2]) 15 (some 1) [4, 2]))) := by decide

/-! ### Queries, trimming and raw arithmetic -/

/-- P1 to P6 as in the examples of file 41 and 42. -/
def polys : State :=
  withP (withP (withP (withP (withP (withP base 1 none [0, 0, 4, 0, 456]) 2 (some 0) [0]) 3 none [1, 0]) 4 none [7, 0, 0])
    5 none [3, -2, 0, 0]) 6 none [2147483647]

/-- R111, R112: degree 4, lead 456; an untrimmed constant has degree 0. -/
theorem witness_PdegPleadAnswerDegreeAndLead :
    (base.fault = false ∧ base.p[(1 : PIdx)] = .unwritten ∧
      nextOf (exec (.pdeg 0 1) base) = some (faulted base 10#5)) ∧
    (polys.fault = false ∧ polys.p[(1 : PIdx)] = .held none [0, 0, 4, 0, 456] ∧
      nextOf (exec (.pdeg 0 1) polys) = some (counted (withX polys 0 4)) ∧
      nextOf (exec (.plead 1 1) polys) = some (counted (withX polys 1 456))) ∧
    nextOf (exec (.pdeg 0 4) polys) = some (counted (withX polys 0 0)) := by decide

/-- R113, R114. -/
theorem witness_PiszPisoAnswerZeroAndOne :
    (base.fault = false ∧ base.p[(1 : PIdx)] = .unwritten ∧
      nextOf (exec (.pisz 0 1) base) = some (faulted base 10#5)) ∧
    (polys.fault = false ∧ polys.p[(2 : PIdx)] = .held (some 0) [0] ∧ (∀ i, co [0] i = 0) ∧
      nextOf (exec (.pisz 2 2) polys) = some (counted (withX polys 2 1))) ∧
    ((∃ i, co [7, 0, 0] i ≠ 0) ∧ nextOf (exec (.pisz 2 4) polys) = some (counted (withX polys 2 0))) ∧
    (polys.p[(3 : PIdx)] = .held none [1, 0] ∧ co [1, 0] 0 = 1 ∧ (∀ i, 0 < i → co [1, 0] i = 0) ∧
      nextOf (exec (.piso 3 3) polys) = some (counted (withX polys 3 1))) ∧
    (co [7, 0, 0] 0 ≠ 1 ∧ nextOf (exec (.piso 3 4) polys) = some (counted (withX polys 3 0))) ∧
    ((∃ i, 0 < i ∧ co [0, 0, 4, 0, 456] i ≠ 0) ∧
      nextOf (exec (.piso 3 1) polys) = some (counted (withX polys 3 0))) :=
  ⟨by decide, ⟨by decide, by decide, iszero_iff.mp (by decide), by decide⟩, ⟨⟨0, by decide⟩, by decide⟩,
    ⟨by decide, by decide, fun i hi => by rcases i with _ | _ | i; · omega
                                          · rfl
                                          · exact co_zero_from (n := 2) (by decide) _ (by omega), by decide⟩,
    by decide, ⟨⟨2, by decide⟩, by decide⟩⟩

/-- R115. -/
theorem witness_PnormTrims :
    (base.fault = false ∧ base.p[(5 : PIdx)] = .unwritten ∧
      nextOf (exec (.pnorm 5 5) base) = some (faulted base 10#5)) ∧
    (polys.fault = false ∧ polys.p[(5 : PIdx)] = .held none [3, -2, 0, 0] ∧ ([3, -2, 0, 0] : Vec) ≠ [] ∧
      nextOf (exec (.pnorm 5 5) polys) = some (counted (withP polys 5 none [3, -2]))) := by decide

/-- A property of two coefficients that holds of the listed ones and of 0, 0 holds of all. -/
theorem forall_co {P : Int → Int → Prop} (u w : Vec) (n : Nat) (hu : u.length ≤ n) (hw : w.length ≤ n)
    (h : ∀ i, i < n → P (co u i) (co w i)) (h0 : P 0 0) (i : Nat) : P (co u i) (co w i) := by
  rcases Nat.lt_or_ge i n with hi | hi
  · exact h i hi
  · rw [co_of_length_le (hu.trans hi), co_of_length_le (hw.trans hi)]
    exact h0

def sums : State := withP (withP (withP (withP base 1 none [0, 1]) 2 none [0, -1]) 3 none [2147483647]) 4 none [1]

/-- R121: untrimmed cancellation, and the overflow at `INT_MAX + 1`. -/
theorem witness_PaddAddsUntrimmed :
    (base.fault = false ∧ base.p[(1 : PIdx)] = .unwritten ∧
      nextOf (exec (.padd 5 1 2) base) = some (faulted base 10#5)) ∧
    (sums.fault = false ∧ sums.p[(3 : PIdx)] = .held none [2147483647] ∧ sums.p[(4 : PIdx)] = .held none [1] ∧
      IsDegree [2147483647] 0 ∧ IsDegree [1] 0 ∧ (∃ i, ¬ InRange (co [2147483647] i + co [1] i)) ∧
      nextOf (exec (.padd 5 3 4) sums) = some (faulted sums 13#5)) ∧
    (sums.p[(1 : PIdx)] = .held none [0, 1] ∧ sums.p[(2 : PIdx)] = .held none [0, -1] ∧ IsDegree [0, 1] 1 ∧
      IsDegree [0, -1] 1 ∧ (∀ i, InRange (co [0, 1] i + co [0, -1] i)) ∧
      nextOf (exec (.padd 5 1 2) sums) = some (counted (withP sums 5 none [0, 0]))) :=
  ⟨by decide,
    ⟨by decide, by decide, by decide, isDegree_degree _, isDegree_degree _, ⟨0, by decide⟩, by decide⟩,
    ⟨by decide, by decide, isDegree_degree _, isDegree_degree _,
      forall_co (P := fun a b => InRange (a + b)) _ _ 2 (by decide) (by decide) (by decide) (by decide), by decide⟩⟩

def diffs : State :=
  withP (withP (withP (withP base 1 none [0]) 2 none [-2147483648]) 3 none [-1]) 4 none [1, 2, 3]

/-- R122: `0 - INT_MIN` overflows, `-1 - INT_MIN` is `INT_MAX`, and `u - u` is trimmed to `[0]`. -/
theorem witness_PsubSubtractsTrimmed :
    (base.fault = false ∧ base.p[(2 : PIdx)] = .unwritten ∧
      nextOf (exec (.psub 5 1 2) base) = some (faulted base 10#5)) ∧
    (diffs.fault = false ∧ diffs.p[(1 : PIdx)] = .held none [0] ∧ diffs.p[(2 : PIdx)] = .held none [-2147483648] ∧
      (∃ i, ¬ InRange (co [0] i - co [-2147483648] i)) ∧
      nextOf (exec (.psub 5 1 2) diffs) = some (faulted diffs 13#5)) ∧
    (diffs.p[(3 : PIdx)] = .held none [-1] ∧ (∀ i, InRange (co [-1] i - co [-2147483648] i)) ∧
      nextOf (exec (.psub 5 3 2) diffs) = some (counted (withP diffs 5 none [2147483647]))) ∧
    nextOf (exec (.psub 4 4 4) diffs) = some (counted (withP diffs 4 none [0])) :=
  ⟨by decide, ⟨by decide, by decide, by decide, ⟨0, by decide⟩, by decide⟩,
    ⟨by decide, forall_co (P := fun a b => InRange (a - b)) _ _ 1 (by decide) (by decide) (by decide) (by decide),
      by decide⟩, by decide⟩

/-- Degree 4 and degree 5: 10 coefficients, one more than `MAXLEN = 9`. -/
def prods : State :=
  withP (withP (withP (withP (withP tiny 1 none [0, 0, 0, 0, 1]) 2 none [0, 0, 0, 0, 0, 1]) 3 none [0, 0])
    4 none [65536]) 5 none [32768]

/-- The coefficients of a product are 0 beyond the sum of the degrees. -/
theorem forall_convCo {P : Int → Prop} (u w : Vec) (n : Nat) (hn : degree u + degree w < n)
    (h : ∀ k, k < n → P (convCo u w k)) (h0 : P 0) (k : Nat) : P (convCo u w k) := by
  rcases Nat.lt_or_ge k n with hk | hk
  · exact h k hk
  · rw [convCo_eq_zero (by omega)]
    exact h0

/-- R124: the zero short cut, `Capacity` at `MAXLEN + 1` coefficients, the greatest product that fits, `Overflow`. -/
theorem witness_PmulMultiplies :
    (base.fault = false ∧ base.p[(1 : PIdx)] = .unwritten ∧
      nextOf (exec (.pmul 6 1 2) base) = some (faulted base 10#5)) ∧
    (prods.fault = false ∧ prods.p[(3 : PIdx)] = .held none [0, 0] ∧ (∀ i, co [0, 0] i = 0) ∧
      nextOf (exec (.pmul 6 3 2) prods) = some (counted (withP prods 6 none [0]))) ∧
    (IsDegree [0, 0, 0, 0, 1] 4 ∧ IsDegree [0, 0, 0, 0, 0, 1] 5 ∧ prods.cfg.maxLen < 4 + 5 + 1 ∧
      nextOf (exec (.pmul 6 1 2) prods) = some (faulted prods 14#5)) ∧
    (IsDegree [65536] 0 ∧ IsDegree [32768] 0 ∧ 0 + 0 + 1 ≤ prods.cfg.maxLen ∧ (∃ k, ¬ InRange (convCo [65536] [32768] k)) ∧
      nextOf (exec (.pmul 6 4 5) prods) = some (faulted prods 13#5)) ∧
    (4 + 4 + 1 ≤ prods.cfg.maxLen ∧ (∀ k, InRange (convCo [0, 0, 0, 0, 1] [0, 0, 0, 0, 1] k)) ∧
      nextOf (exec (.pmul 6 1 1) prods) = some (counted (withP prods 6 none [0, 0, 0, 0, 0, 0, 0, 0, 1]))) :=
  ⟨by decide, ⟨by decide, by decide, iszero_iff.mp (by decide), by decide⟩,
    ⟨isDegree_degree _, isDegree_degree _, by decide, by decide⟩,
    ⟨isDegree_degree _, isDegree_degree _, by decide, ⟨0, by decide⟩, by decide⟩,
    ⟨by decide, forall_convCo (P := fun c => InRange c) _ _ 9 (by decide) (by decide) (by decide), by decide⟩⟩

/-! ### Fields and elements -/

/-- X0 = 5, X1 = 2, X2 = 1, X3 = 0, X4 = 3; P0 = 3x^2 + 4x + 1, P1 its multiple by 2 with `-1` for 4. -/
def fnewState : State :=
  withP (withP (withX (withX (withX (withX (withX base 0 5) 1 2) 2 1) 3 0) 4 3) 0 none [1, 4, 3]) 1 none [6, -1, 8]

/-- V163, V165, V174, V175, V176, V178, V179, V180, and the least characteristic (V167). -/
theorem witness_FnewConstructsField :
    (base.fault = false ∧ base.x[(0 : XIdx)] = .unwritten ∧
      nextOf (exec (.fnew 1 0 1 0) base) = some (faulted base 10#5)) ∧
    (fnewState.fault = false ∧ fnewState.x[(0 : XIdx)] = .held 5 ∧ fnewState.x[(1 : XIdx)] = .held 2 ∧
      fnewState.p[(0 : PIdx)] = .held none [1, 4, 3] ∧ IsDegree [1, 4, 3] 2 ∧ fnewState.f[(0 : FIdx)] ≠ .invalid ∧
      nextOf (exec (.fnew 0 0 1 0) fnewState) = some (faulted fnewState 12#5)) ∧
    (fnewState.x[(2 : XIdx)] = .held 1 ∧ nextOf (exec (.fnew 1 2 1 0) fnewState) = some (faulted fnewState 12#5)) ∧
    (fnewState.f[(1 : FIdx)] = .invalid ∧ (2 : Int) ≤ 5 ∧ fnewState.x[(3 : XIdx)] = .held 0 ∧
      nextOf (exec (.fnew 1 0 3 0) fnewState) = some (faulted fnewState 4#5)) ∧
    nextOf (exec (.fnew 1 0 4 0) fnewState) = some (faulted fnewState 4#5) ∧
    ((3 : Int) ∣ co [1, 4, 3] 2 ∧ nextOf (exec (.fnew 1 4 1 0) fnewState) = some (faulted fnewState 4#5)) ∧
    (¬ (5 : Int) ∣ co [1, 4, 3] 2 ∧ fieldG.ord = (if (5 : Int) ^ 2 ≤ intMax then some (5 ^ 2 - 1) else none) ∧
      nextOf (exec (.fnew 1 0 1 0) fnewState) = some (counted (withF fnewState 1 fieldG)) ∧
      nextOf (exec (.fnew 3 0 1 1) fnewState) = some (counted (withF fnewState 3 fieldG))) ∧
    nextOf (exec (.fnew 1 1 2 2) (withP fnewState 2 none [0, 1])) =
      some (counted (withF (withP fnewState 2 none [0, 1]) 1 { p := 2, n := 1, mod := [0, 1], ord := some 1 })) :=
  ⟨by decide, ⟨by decide, by decide, by decide, by decide, isDegree_degree _, by decide, by decide⟩, by decide, by decide,
    by decide, by decide, by decide, by decide⟩

/-- V182, V184, V185. -/
theorem witness_EzeroEoneGiveIdentities :
    (base.fault = false ∧ base.f[(3 : FIdx)] = .invalid ∧
      nextOf (exec (.ezero 1 3) base) = some (faulted base 12#5) ∧
      nextOf (exec (.eone 1 3) base) = some (faulted base 12#5)) ∧
    (rings.fault = false ∧ rings.f[(1 : FIdx)] = .valid fieldG ∧
      nextOf (exec (.ezero 2 1) rings) = some (counted (withP rings 2 (some 1) [0])) ∧
      nextOf (exec (.eone 1 0) rings) = some (counted (withP rings 1 (some 0) [1]))) := by decide

/-- P1 = x^2 + 2x + 3 over 5 (raw, degree `n`), P2 of degree `n + 1`. -/
def enewState : State := withP (withP rings 1 none [5, 0, 4]) 2 none [1, 2, 3, 4]

/-- V187, V192, V196, V197. -/
theorem witness_EnewBindsReduced :
    (base.fault = false ∧ base.p[(1 : PIdx)] = .unwritten ∧
      nextOf (exec (.enew 1 1 3) base) = some (faulted base 10#5)) ∧
    ((withP base 1 none [1, 2]).p[(1 : PIdx)] = .held none [1, 2] ∧ (withP base 1 none [1, 2]).f[(3 : FIdx)] = .invalid ∧
      nextOf (exec (.enew 1 1 3) (withP base 1 none [1, 2])) = some (faulted (withP base 1 none [1, 2]) 12#5)) ∧
    (enewState.fault = false ∧ enewState.p[(2 : PIdx)] = .held none [1, 2, 3, 4] ∧
      enewState.f[(1 : FIdx)] = .valid fieldG ∧ IsDegree [1, 2, 3, 4] 3 ∧ fieldG.n < 3 ∧
      nextOf (exec (.enew 2 2 1) enewState) = some (faulted enewState 5#5)) ∧
    (enewState.p[(1 : PIdx)] = .held none [5, 0, 4] ∧ IsDegree [5, 0, 4] 2 ∧ 2 ≤ fieldG.n ∧ ([5, 0, 4] : Vec) ≠ [] ∧
      nextOf (exec (.enew 1 1 1) enewState) = some (counted (withP enewState 1 (some 1) [0, 0, 4]))) :=
  ⟨by decide, by decide, ⟨by decide, by decide, by decide, isDegree_degree _, by decide, by decide⟩,
    ⟨by decide, isDegree_degree _, by decide, by decide, by decide⟩⟩

/-- Elements of G (V198, V403 to V411, V428) and of Z4, raw P0. -/
def elems : State :=
  withP (withP (withP (withP (withP (withP (withP (withP rings 0 none [1, 4, 3]) 1 (some 1) [1, 0, 1]) 2 (some 1) [1, 4, 3])
    3 (some 1) [0]) 4 (some 1) [1, 2]) 5 (some 0) [1, 1, 0, 0, 0, 1, 0, 1]) 6 (some 2) [0, 1]) 7 (some 2) [0, 2]

/-- V198, V199. -/
theorem witness_EnormNormalizes :
    (base.fault = false ∧ base.p[(1 : PIdx)] = .unwritten ∧
      nextOf (exec (.enorm 2 1) base) = some (faulted base 10#5)) ∧
    (elems.fault = false ∧ elems.p[(0 : PIdx)] = .held none [1, 4, 3] ∧
      nextOf (exec (.enorm 1 0) elems) = some (faulted elems 11#5)) ∧
    (elems.p[(1 : PIdx)] = .held (some 1) [1, 0, 1] ∧ elems.f[(1 : FIdx)] = .valid fieldG ∧ IsElement fieldG [1, 0, 1] ∧
      nextOf (exec (.enorm 2 1) elems) = some (counted (withP elems 2 (some 1) [1, 0, 1]))) := by decide

/-- V404 to V407: unwritten before raw before the slots; and the sum and the difference modulo 5, the sum cancelling in
the top coefficient. -/
theorem witness_EaddEsubReduceModP :
    (elems.fault = false ∧ elems.p[(9 : PIdx)] = .unwritten ∧
      nextOf (exec (.eadd 8 9 0) elems) = some (faulted elems 10#5) ∧
      nextOf (exec (.esub 8 0 9) elems) = some (faulted elems 10#5)) ∧
    (elems.p[(0 : PIdx)] = .held none [1, 4, 3] ∧ elems.p[(5 : PIdx)] = .held (some 0) [1, 1, 0, 0, 0, 1, 0, 1] ∧
      nextOf (exec (.eadd 8 0 5) elems) = some (faulted elems 11#5) ∧
      nextOf (exec (.esub 8 5 0) elems) = some (faulted elems 11#5)) ∧
    (elems.p[(3 : PIdx)] = .held (some 1) [0] ∧ (0 : FIdx) ≠ 1 ∧
      nextOf (exec (.eadd 8 5 3) elems) = some (faulted elems 6#5) ∧
      nextOf (exec (.esub 8 5 3) elems) = some (faulted elems 6#5)) ∧
    (elems.p[(4 : PIdx)] = .held (some 1) [1, 2] ∧ elems.p[(2 : PIdx)] = .held (some 1) [1, 4, 3] ∧
      elems.f[(1 : FIdx)] = .valid fieldG ∧
      nextOf (exec (.eadd 8 4 2) elems) = some (counted (withP elems 8 (some 1) [2, 1, 3])) ∧
      nextOf (exec (.esub 8 2 2) elems) = some (counted (withP elems 8 (some 1) [0])) ∧
      nextOf (exec (.esub 8 4 2) elems) = some (counted (withP elems 8 (some 1) [0, 3, 2]))) := by decide

/-- Z4's modulus has no invertible leading coefficient, and `x · x` needs a reduction. -/
theorem noTimes_ringZ4 : NoTimes ringZ4 [0, 1] [0, 1] :=
  ⟨by unfold UnitModulus; decide, fun h => absurd (h 2 (by decide)) (by decide)⟩

theorem not_noTimes_fieldG (u w : Vec) : ¬ NoTimes fieldG u w := fun h => h.1 (by unfold UnitModulus; decide)

/-- A product that vanishes from degree `n` up modulo `p` is small. -/
theorem smallProduct_of {fd : FieldRec} (u w : Vec) (h : ∀ k, k < degree u + degree w + 1 → fd.n ≤ k → fd.p ∣ convCo u w k) :
    SmallProduct fd u w := fun k hk => by
  rcases Nat.lt_or_ge k (degree u + degree w + 1) with hd | hd
  · exact h k hd hk
  · rw [convCo_eq_zero (by omega)]; exact dvd_zero _

/-- `2x · 2x` is 0 modulo 4. -/
theorem not_noTimes_ringZ4 : ¬ NoTimes ringZ4 [0, 2] [0, 2] := fun h => h.2 (smallProduct_of _ _ (by decide))

/-- V429; in Z4 `x · x` raises `LeadNotUnit` and `2x · 2x` is 0. -/
theorem witness_EmulReducesByModulus :
    (elems.fault = false ∧ elems.p[(9 : PIdx)] = .unwritten ∧
      nextOf (exec (.emul 8 9 0) elems) = some (faulted elems 10#5)) ∧
    (elems.p[(0 : PIdx)] = .held none [1, 4, 3] ∧ elems.p[(5 : PIdx)] = .held (some 0) [1, 1, 0, 0, 0, 1, 0, 1] ∧
      nextOf (exec (.emul 8 0 5) elems) = some (faulted elems 11#5)) ∧
    (elems.p[(3 : PIdx)] = .held (some 1) [0] ∧ nextOf (exec (.emul 8 5 3) elems) = some (faulted elems 6#5)) ∧
    (elems.p[(6 : PIdx)] = .held (some 2) [0, 1] ∧ elems.f[(2 : FIdx)] = .valid ringZ4 ∧ IsField ringZ4 ∧
      NoTimes ringZ4 [0, 1] [0, 1] ∧ nextOf (exec (.emul 8 6 6) elems) = some (faulted elems 16#5)) ∧
    (elems.p[(7 : PIdx)] = .held (some 2) [0, 2] ∧ ¬ NoTimes ringZ4 [0, 2] [0, 2] ∧
      nextOf (exec (.emul 8 7 7) elems) = some (counted (withP elems 8 (some 2) [0]))) ∧
    (elems.p[(4 : PIdx)] = .held (some 1) [1, 2] ∧ elems.f[(1 : FIdx)] = .valid fieldG ∧ IsField fieldG ∧
      ¬ NoTimes fieldG [1, 2] [1, 2] ∧
      nextOf (exec (.emul 4 4 4) elems) = some (counted (withP elems 4 (some 1) [3, 2]))) :=
  ⟨by decide, by decide, by decide, ⟨by decide, by decide, by decide, noTimes_ringZ4, by decide⟩,
    ⟨by decide, not_noTimes_ringZ4, by decide⟩, ⟨by decide, by decide, by decide, not_noTimes_fieldG _ _, by decide⟩⟩

/-- The operand checks of EDIVMOD and EMOD, and the least values of each clause of R160: `d = c` (V433), unwritten, raw,
two slots (V407), zero divisor (V408), a division with a unit (V428), a divisor of greater degree and a non-unit
divisor that needs no inverse, a non-unit divisor that does. -/
theorem witness_EdivmodDivides :
    ((8 : PIdx) ≠ 9 ∧ elems.fault = false ∧ nextOf (exec (.edivmod 5 5 1 2) elems) = some (faulted elems 9#5)) ∧
    (elems.p[(9 : PIdx)] = .unwritten ∧ nextOf (exec (.edivmod 8 9 9 0) elems) = some (faulted elems 10#5)) ∧
    (elems.p[(0 : PIdx)] = .held none [1, 4, 3] ∧ elems.p[(5 : PIdx)] = .held (some 0) [1, 1, 0, 0, 0, 1, 0, 1] ∧
      nextOf (exec (.edivmod 8 9 0 5) elems) = some (faulted elems 11#5)) ∧
    (elems.p[(3 : PIdx)] = .held (some 1) [0] ∧ nextOf (exec (.edivmod 8 9 5 3) elems) = some (faulted elems 6#5)) ∧
    (elems.p[(1 : PIdx)] = .held (some 1) [1, 0, 1] ∧ elems.f[(1 : FIdx)] = .valid fieldG ∧ IsField fieldG ∧
      IsElement fieldG [1, 0, 1] ∧ IsElement fieldG [0] ∧ (∀ i, co [0] i = 0) ∧
      nextOf (exec (.edivmod 8 9 1 3) elems) = some (faulted elems 7#5)) ∧
    (elems.p[(2 : PIdx)] = .held (some 1) [1, 4, 3] ∧ IsElement fieldG [1, 4, 3] ∧ IsDegree [1, 4, 3] 2 ∧
      Int.gcd (co [1, 4, 3] 2) fieldG.p = 1 ∧
      nextOf (exec (.edivmod 1 2 1 2) elems) =
        some (counted (withP (withP elems 1 (some 1) [2]) 2 (some 1) [4, 2]))) ∧
    ((∀ i, 2 ≤ i → co [1, 2] i = 0) ∧ elems.p[(4 : PIdx)] = .held (some 1) [1, 2] ∧
      nextOf (exec (.edivmod 8 9 4 2) elems) =
        some (counted (withP (withP elems 8 (some 1) [0]) 9 (some 1) [1, 2]))) ∧
    (elems.p[(7 : PIdx)] = .held (some 2) [0, 2] ∧ elems.f[(2 : FIdx)] = .valid ringZ4 ∧ IsField ringZ4 ∧
      IsElement ringZ4 [0, 2] ∧ IsElement ringZ4 [0, 1] ∧ Int.gcd (co [0, 2] 1) ringZ4.p ≠ 1 ∧
      (∃ i, 1 ≤ i ∧ co [0, 1] i ≠ 0) ∧ nextOf (exec (.edivmod 8 9 6 7) elems) = some (faulted elems 16#5)) :=
  ⟨by decide, by decide, by decide, by decide,
    ⟨by decide, by decide, by decide, by decide, by decide, iszero_iff.mp (by decide), by decide⟩,
    ⟨by decide, by decide, isDegree_degree _, by decide, by decide⟩, ⟨co_zero_from (by decide), by decide, by decide⟩,
    ⟨by decide, by decide, by decide, by decide, by decide, by decide, ⟨1, by decide⟩, by decide⟩⟩

/-- The same clauses of R161 (V407, V409, the remainder of V428). -/
theorem witness_EmodGivesRemainder :
    (elems.fault = false ∧ elems.p[(9 : PIdx)] = .unwritten ∧
      nextOf (exec (.emod 8 9 0) elems) = some (faulted elems 10#5)) ∧
    (elems.p[(0 : PIdx)] = .held none [1, 4, 3] ∧ elems.p[(5 : PIdx)] = .held (some 0) [1, 1, 0, 0, 0, 1, 0, 1] ∧
      nextOf (exec (.emod 8 0 5) elems) = some (faulted elems 11#5)) ∧
    (elems.p[(3 : PIdx)] = .held (some 1) [0] ∧ nextOf (exec (.emod 8 5 3) elems) = some (faulted elems 6#5)) ∧
    (elems.f[(1 : FIdx)] = .valid fieldG ∧ IsField fieldG ∧ IsElement fieldG [0] ∧ (∀ i, co [0] i = 0) ∧
      nextOf (exec (.emod 8 3 3) elems) = some (faulted elems 7#5)) ∧
    (elems.p[(1 : PIdx)] = .held (some 1) [1, 0, 1] ∧ elems.p[(2 : PIdx)] = .held (some 1) [1, 4, 3] ∧
      IsElement fieldG [1, 0, 1] ∧ IsElement fieldG [1, 4, 3] ∧ IsDegree [1, 4, 3] 2 ∧
      Int.gcd (co [1, 4, 3] 2) fieldG.p = 1 ∧
      nextOf (exec (.emod 8 1 2) elems) = some (counted (withP elems 8 (some 1) [4, 2]))) ∧
    ((∀ i, 2 ≤ i → co [1, 2] i = 0) ∧ elems.p[(4 : PIdx)] = .held (some 1) [1, 2] ∧
      nextOf (exec (.emod 8 4 2) elems) = some (counted (withP elems 8 (some 1) [1, 2]))) ∧
    (elems.p[(7 : PIdx)] = .held (some 2) [0, 2] ∧ elems.f[(2 : FIdx)] = .valid ringZ4 ∧ IsField ringZ4 ∧
      IsElement ringZ4 [0, 2] ∧ IsElement ringZ4 [0, 1] ∧ Int.gcd (co [0, 2] 1) ringZ4.p ≠ 1 ∧
      (∃ i, 1 ≤ i ∧ co [0, 1] i ≠ 0) ∧ nextOf (exec (.emod 8 6 7) elems) = some (faulted elems 16#5)) :=
  ⟨by decide, by decide, by decide, ⟨by decide, by decide, by decide, iszero_iff.mp (by decide), by decide⟩,
    ⟨by decide, by decide, by decide, by decide, isDegree_degree _, by decide, by decide⟩,
    ⟨co_zero_from (by decide), by decide, by decide⟩,
    ⟨by decide, by decide, by decide, by decide, by decide, by decide, ⟨1, by decide⟩, by decide⟩⟩

/-- An answer of `einv` is an inverse in the words of `Inverse`. -/
theorem inverse_of_einv {fd : FieldRec} (hf : IsField fd) {e v : Vec} (he : IsElement fd e) (h : einv fd e = .ok v)
    (hv : Trimmed v ∧ Reduced fd.p v ∧ v.length ≤ fd.n) : Inverse fd e v :=
  ⟨hv.1, hv.2.1, hv.2.2, einv_ok hf he h⟩

/-- An element whose `x + 1` divides both it and the modulus of G has no inverse: evaluate at `-1` modulo 5. -/
theorem no_inverse_x_plus_one : ¬ ∃ v, IsProduct fieldG [1, 1] v [1] := by
  rintro ⟨v, h⟩
  have hp : toPoly 5 fieldG.mod ∣ toPoly 5 [1, 1] * toPoly 5 v - toPoly 5 [1] := h.toPoly (by decide)
  have h2 := Polynomial.eval_dvd (x := (4 : ZMod 5)) hp
  have h1 : toPoly 5 [1, 1] = (Polynomial.X + 1 : Polynomial (ZMod 5)) := by
    simp [toPoly, Finset.sum_range_succ, Polynomial.monomial_zero_left, ← Polynomial.C_mul_X_eq_monomial, add_comm]
  have h3 : Polynomial.eval (4 : ZMod 5) (toPoly 5 fieldG.mod) = 0 := by
    simp [toPoly, Finset.sum_range_succ, fieldG]; decide
  have h4 : (4 : ZMod 5) + 1 = 0 := by decide
  rw [h3, h1] at h2
  simp [h4] at h2
  exact absurd h2 (by decide)

/-- V410, V411, V430, and the AES inverse of 0x53 is 0xCA. -/
theorem witness_EinvInverts :
    (elems.fault = false ∧ elems.p[(9 : PIdx)] = .unwritten ∧
      nextOf (exec (.einv 8 9) elems) = some (faulted elems 10#5)) ∧
    (elems.p[(0 : PIdx)] = .held none [1, 4, 3] ∧ nextOf (exec (.einv 8 0) elems) = some (faulted elems 11#5)) ∧
    (elems.p[(3 : PIdx)] = .held (some 1) [0] ∧ elems.f[(1 : FIdx)] = .valid fieldG ∧ IsField fieldG ∧
      IsElement fieldG [0] ∧ (∀ i, co [0] i = 0) ∧ nextOf (exec (.einv 8 3) elems) = some (faulted elems 7#5)) ∧
    (elems.p[(4 : PIdx)] = .held (some 1) [1, 2] ∧ IsElement fieldG [1, 2] ∧ Nat.Prime fieldG.p.toNat ∧
      (∃ v, IsProduct fieldG [1, 2] v [1]) ∧
      nextOf (exec (.einv 4 4) elems) = some (counted (withP elems 4 (some 1) [0, 1]))) ∧
    ((withP elems 1 (some 1) [1, 1]).p[(1 : PIdx)] = .held (some 1) [1, 1] ∧ IsElement fieldG [1, 1] ∧
      (∃ i, co [1, 1] i ≠ 0) ∧ (¬ ∃ v, IsProduct fieldG [1, 1] v [1]) ∧
      nextOf (exec (.einv 2 1) (withP elems 1 (some 1) [1, 1])) = some (faulted (withP elems 1 (some 1) [1, 1]) 8#5)) ∧
    nextOf (exec (.einv 2 1) (withP base 1 (some 0) [1, 1, 0, 0, 1, 0, 1])) =
      some (counted (withP (withP base 1 (some 0) [1, 1, 0, 0, 1, 0, 1]) 2 (some 0) [0, 1, 0, 1, 0, 0, 1, 1])) :=
  ⟨by decide, by decide, ⟨by decide, by decide, by decide, by decide, iszero_iff.mp (by decide), by decide⟩,
    ⟨by decide, by decide, by show Nat.Prime 5; norm_num, ⟨[0, 1], einv_ok (by decide) (by decide) (by rfl)⟩, by decide⟩,
    ⟨by decide, by decide, ⟨0, by decide⟩, no_inverse_x_plus_one, by decide⟩, by decide⟩

/-- V317 (Z4, no field: `LeadNotUnit`) and an inverse in G (V430). -/
theorem witness_EinvIsSoundInAnyRing :
    ((withP elems 1 (some 2) [3]).fault = false ∧ (withP elems 1 (some 2) [3]).p[(1 : PIdx)] = .held (some 2) [3] ∧
      (withP elems 1 (some 2) [3]).f[(2 : FIdx)] = .valid ringZ4 ∧ IsField ringZ4 ∧ IsElement ringZ4 [3] ∧
      nextOf (exec (.einv 8 1) (withP elems 1 (some 2) [3])) = some (faulted (withP elems 1 (some 2) [3]) 16#5)) ∧
    (elems.p[(4 : PIdx)] = .held (some 1) [1, 2] ∧ elems.f[(1 : FIdx)] = .valid fieldG ∧ IsField fieldG ∧
      IsElement fieldG [1, 2] ∧ nextOf (exec (.einv 8 4) elems) = some (counted (withP elems 8 (some 1) [0, 1]))) := by
  decide

/-- GF(2) as the quotient by `x`, an irreducible modulus (V167). -/
def fieldX : FieldRec := { p := 2, n := 1, mod := [0, 1], ord := some 1 }

/-- The product of two polynomials of degree 1 or more modulo 2 has degree 2 or more. -/
theorem irreducible_fieldX : IrreducibleModulus fieldX := by
  intro u w hu hw ⟨i, hi, hui⟩ ⟨j, hj, hwj⟩
  have one : ∀ v : Vec, Reduced fieldX.p v → ∀ i, 1 ≤ i → co v i ≠ 0 → 1 ≤ degree v ∧ lead v = 1 := fun v hv i hi h => by
    have hz : iszero v = false := iszero_eq_false_iff.mpr ⟨i, h⟩
    have hb := hv.co_bounds (by decide) (degree v)
    have hl := lead_ne_zero hz
    refine ⟨?_, ?_⟩
    · by_contra hn
      exact h (co_of_degree_lt (by omega))
    · have h2 : fieldX.p = 2 := rfl
      rw [lead]
      omega
  obtain ⟨du, lu⟩ := one u hu i hi hui
  obtain ⟨dw, lw⟩ := one w hw j hj hwj
  refine ⟨degree u + degree w, ?_⟩
  rw [convCo_degree, lu, lw, co_zero_from (v := fieldX.mod) (n := 2) (by decide) _ (by omega)]
  decide

/-- 1 inverts to itself there. -/
theorem witness_EinvTotalInAField :
    IsField fieldX ∧ IsElement fieldX [1] ∧ Nat.Prime fieldX.p.toNat ∧ IrreducibleModulus fieldX ∧ (∃ i, co [1] i ≠ 0) ∧
    (∀ i, fieldX.n ≤ i → co [1] i = 0) ∧ (withP (withF base 1 fieldX) 1 (some 1) [1]).fault = false ∧
    (withP (withF base 1 fieldX) 1 (some 1) [1]).p[(1 : PIdx)] = .held (some 1) [1] ∧
    (withP (withF base 1 fieldX) 1 (some 1) [1]).f[(1 : FIdx)] = .valid fieldX ∧
    nextOf (exec (.einv 2 1) (withP (withF base 1 fieldX) 1 (some 1) [1])) =
      some (counted (withP (withP (withF base 1 fieldX) 1 (some 1) [1]) 2 (some 1) [1])) :=
  ⟨by decide, by decide, Nat.prime_two, irreducible_fieldX, ⟨0, by decide⟩, co_zero_from (by decide), by decide, by decide,
    by decide, by decide⟩

/-- A product the model computes is one in the words of `Times`. -/
theorem times_of_emul {fd : FieldRec} (hf : IsField fd) (hu : UnitModulus fd) {u w r : Vec} (h : emul fd u w = .ok r) :
    Times fd u w r := .inl ⟨hu, emul_ok hf h⟩

theorem unitModulus_fieldG : UnitModulus fieldG := by unfold UnitModulus; decide

theorem noTimes_ringZ4_one : NoTimes ringZ4 [1] [0, 1] :=
  ⟨by unfold UnitModulus; decide, fun h => absurd (h 1 (by decide)) (by decide)⟩

/-- The first powers of `2x + 1` in G. -/
theorem powers_fieldG : Powers fieldG [1, 2] (fun k => if k = 0 then [1] else [1, 2]) 1 :=
  ⟨rfl, fun k hk => by
    obtain rfl : k = 0 := by omega
    exact times_of_emul (by decide) unitModulus_fieldG (by rfl)⟩

/-- Exponents: X0 = -23, X1 = 24, X2 = 1. -/
def powState : State := withP (withX (withX (withX elems 0 (-23)) 1 24) 2 1) 8 (some 3) [1]

/-- V412 to V414, the order that does not fit (V171), V358, and in G the first power of `2x + 1` by the exponents 1 and
`-23`, and its 0th power by the exponent 24. -/
theorem witness_EpowMultipliesRepeatedly :
    (powState.fault = false ∧ powState.x[(9 : XIdx)] = .unwritten ∧
      nextOf (exec (.epow 2 1 9) powState) = some (faulted powState 10#5)) ∧
    (powState.x[(2 : XIdx)] = .held 1 ∧ powState.p[(0 : PIdx)] = .held none [1, 4, 3] ∧
      nextOf (exec (.epow 1 0 2) powState) = some (faulted powState 11#5)) ∧
    (powState.p[(8 : PIdx)] = .held (some 3) [1] ∧ powState.f[(3 : FIdx)] = .valid fieldBig ∧ IsField fieldBig ∧
      fieldBig.ord = none ∧ nextOf (exec (.epow 1 8 2) powState) = some (faulted powState 13#5)) ∧
    (powState.p[(4 : PIdx)] = .held (some 1) [1, 2] ∧ powState.f[(1 : FIdx)] = .valid fieldG ∧ IsField fieldG ∧
      UnitModulus fieldG ∧ fieldG.ord = some (24 : Nat) ∧ ((1 : Nat) : Int) = (if 2 ≤ 24 then (1 : Int) % 24 else 0) ∧
      ((1 : Nat) : Int) = (if 2 ≤ 24 then (-23 : Int) % 24 else 0) ∧ (∃ rs, Powers fieldG [1, 2] rs 1) ∧
      nextOf (exec (.epow 9 4 2) powState) = some (counted (withP powState 9 (some 1) [1, 2])) ∧
      nextOf (exec (.epow 9 4 0) powState) = some (counted (withP powState 9 (some 1) [1, 2]))) ∧
    (powState.x[(1 : XIdx)] = .held 24 ∧ ((0 : Nat) : Int) = (if 2 ≤ 24 then (24 : Int) % 24 else 0) ∧
      Powers fieldG [1, 2] (fun _ => [1]) 0 ∧
      nextOf (exec (.epow 9 4 1) powState) = some (counted (withP powState 9 (some 1) [1]))) ∧
    (powState.p[(6 : PIdx)] = .held (some 2) [0, 1] ∧ powState.f[(2 : FIdx)] = .valid ringZ4 ∧ IsField ringZ4 ∧
      ringZ4.ord = some (3 : Nat) ∧ ((1 : Nat) : Int) = (if 2 ≤ 3 then (1 : Int) % 3 else 0) ∧
      Powers ringZ4 [0, 1] (fun _ => [1]) 0 ∧ NoTimes ringZ4 [1] [0, 1] ∧
      nextOf (exec (.epow 9 6 2) powState) = some (faulted powState 16#5)) :=
  ⟨by decide, by decide, by decide,
    ⟨by decide, by decide, by decide, unitModulus_fieldG, by decide, by decide, by decide, ⟨_, powers_fieldG⟩, by decide,
      by decide⟩,
    ⟨by decide, by decide, ⟨rfl, fun k hk => absurd hk (by omega)⟩, by decide⟩,
    ⟨by decide, by decide, by decide, by decide, by decide, ⟨rfl, fun k hk => absurd hk (by omega)⟩, noTimes_ringZ4_one,
      by decide⟩⟩

/-- The powers of 4 in G: `4·4 = 16` is 1 modulo 5. -/
theorem powers_four : Powers fieldG [4] (fun k => if k % 2 = 0 then [1] else [4]) 2 :=
  ⟨rfl, fun k hk => by
    rcases (by omega : k = 0 ∨ k = 1) with rfl | rfl
    · exact times_of_emul (by decide) unitModulus_fieldG (by rfl)
    · exact times_of_emul (by decide) unitModulus_fieldG (by rfl)⟩

/-- The powers of `x` modulo `x^2`: 1, x, 0, 0, ... -/
theorem powers_nilpotent : Powers ringNil [0, 1] (fun k => if k = 0 then [1] else if k = 1 then [0, 1] else [0]) 4 :=
  ⟨rfl, fun k hk => by
    have hu : UnitModulus ringNil := by unfold UnitModulus; decide
    rcases (by omega : k = 0 ∨ k = 1 ∨ k = 2 ∨ k = 3) with rfl | rfl | rfl | rfl
    · exact times_of_emul (by decide) hu (by rfl)
    · exact times_of_emul (by decide) hu (by rfl)
    · exact times_of_emul (by decide) hu (by rfl)
    · exact times_of_emul (by decide) hu (by rfl)⟩

def ordState : State := withP (withP (withF (withF (withF base 1 fieldG) 2 ringZ4) 3 ringNil) 1 (some 1) [4]) 2 (some 3) [0, 1]

/-- Order 2, no order (a nilpotent element), the order of 0, V400, V401, V414. -/
theorem witness_EordFindsOrder :
    (powState.fault = false ∧ powState.p[(9 : PIdx)] = .unwritten ∧
      nextOf (exec (.eord 2 9) powState) = some (faulted powState 10#5)) ∧
    (powState.p[(0 : PIdx)] = .held none [1, 4, 3] ∧ nextOf (exec (.eord 2 0) powState) = some (faulted powState 11#5)) ∧
    (powState.p[(8 : PIdx)] = .held (some 3) [1] ∧ powState.f[(3 : FIdx)] = .valid fieldBig ∧ IsField fieldBig ∧
      fieldBig.ord = none ∧ nextOf (exec (.eord 1 8) powState) = some (faulted powState 13#5)) ∧
    (powState.p[(3 : PIdx)] = .held (some 1) [0] ∧ powState.f[(1 : FIdx)] = .valid fieldG ∧ IsField fieldG ∧
      fieldG.ord = some (24 : Nat) ∧ (∀ i, co [0] i = 0) ∧
      nextOf (exec (.eord 2 3) powState) = some (counted (withX powState 2 0))) ∧
    (ordState.p[(1 : PIdx)] = .held (some 1) [4] ∧ ordState.f[(1 : FIdx)] = .valid fieldG ∧ (∃ i, co [4] i ≠ 0) ∧
      UnitModulus fieldG ∧ (∃ rs, Powers fieldG [4] rs 2 ∧ rs 2 = [1] ∧ ∀ j, 1 ≤ j → j < 2 → rs j ≠ [1]) ∧
      nextOf (exec (.eord 2 1) ordState) = some (counted (withX ordState 2 2))) ∧
    (ordState.fault = false ∧ ordState.p[(2 : PIdx)] = .held (some 3) [0, 1] ∧ ordState.f[(3 : FIdx)] = .valid ringNil ∧
      IsField ringNil ∧ ringNil.ord = some (3 : Nat) ∧ (∃ i, co [0, 1] i ≠ 0) ∧
      (∃ rs, Powers ringNil [0, 1] rs (3 + 1) ∧ ∀ j, 1 ≤ j → j ≤ 3 → rs j ≠ [1]) ∧
      nextOf (exec (.eord 2 2) ordState) = some (counted (withX ordState 2 0))) ∧
    (powState.p[(6 : PIdx)] = .held (some 2) [0, 1] ∧ powState.f[(2 : FIdx)] = .valid ringZ4 ∧ IsField ringZ4 ∧
      ringZ4.ord = some (3 : Nat) ∧ Powers ringZ4 [0, 1] (fun _ => [1]) 0 ∧ NoTimes ringZ4 [1] [0, 1] ∧
      nextOf (exec (.eord 2 6) powState) = some (faulted powState 16#5)) :=
  ⟨by decide, by decide, by decide, ⟨by decide, by decide, by decide, by decide, iszero_iff.mp (by decide), by decide⟩,
    ⟨by decide, by decide, ⟨0, by decide⟩, unitModulus_fieldG,
      ⟨_, powers_four, by decide, fun j h1 h2 => by obtain rfl : j = 1 := by omega
                                                    decide⟩, by decide⟩,
    ⟨by decide, by decide, by decide, by decide, by decide, ⟨1, by decide⟩,
      ⟨_, powers_nilpotent, fun j h1 h2 => by rcases (by omega : j = 1 ∨ j = 2 ∨ j = 3) with rfl | rfl | rfl <;> decide⟩,
      by decide⟩,
    ⟨by decide, by decide, by decide, by decide, ⟨rfl, fun k hk => absurd hk (by omega)⟩, noTimes_ringZ4_one, by decide⟩⟩

/-! ### Decoding and the step -/

/-- The greatest value of every field, and EDIVMOD's destinations distinct. -/
theorem witness_DecodeOfEncode :
    Instr.wellFormed (.edivmod 15 14 15 15) = true ∧ encode (.edivmod 15 14 15 15) = 0x53FFFE00#32 ∧
    Instr.wellFormed (.eldb 15 3 0xFFFF#16) = true ∧ encode (.eldb 15 3 0xFFFF#16) = 0x15F3FFFF#32 ∧
    encode (.fnew 3 15 15 15) = 0x403FFF00#32 := by decide

theorem witness_EncodeOfDecode : decode 0x53FFFE00#32 = .ok (.edivmod 15 14 15 15) := rfl

/-- One word of the table that decodes, one row that leaves EDIVMOD's equal destinations out. -/
theorem witness_DecoderAcceptsExactlyTheTable :
    decode 0x53512600#32 = .ok (.edivmod 5 6 1 2) ∧
    ("EDIVMOD", 0x53000000#32, 0xFF0000FF#32) ∈ opcodeTable ∧ 0x53512600#32 &&& 0xFF0000FF#32 = 0x53000000#32 ∧
    dField 0x53512600#32 ≠ cField 0x53512600#32 ∧ dField 0x53512500#32 = cField 0x53512500#32 :=
  ⟨rfl, by decide, by decide, by decide, by decide⟩

/-- `base` with a full queue of two NOPs and two host turns to come. -/
def full : State := { tiny with q := [0x01000000#32, 0x01000000#32] }

/-- The three turns in which the engine runs the queued word: none listed, its own, a held access. -/
theorem witness_StepRunsDecodedCommand :
    full.fault = false ∧ full.q = 0x01000000#32 :: [0x01000000#32] ∧ decode 0x01000000#32 = .ok .nop ∧ full.turns = [] ∧
    nextOf (step full) = some (counted full) ∧
    (withTurns full [.engine]).turns = .engine :: [] ∧
    nextOf (step (withTurns full [.engine])) = some (counted full) ∧
    HeldWhileBusy full (.writeCsr 0 1#32) ∧ HeldWhileBusy full (.readOmem 0) ∧
    nextOf (step (hostTurn full (.writeCsr 0 1#32))) = some (counted (hostTurn full (.writeCsr 0 1#32))) ∧
    nextOf (step (hostTurn full (.readOmem 0))) = some (counted (hostTurn full (.readOmem 0))) :=
  ⟨by decide, by decide, rfl, by decide, by decide, by decide, by decide, ⟨rfl, by decide⟩, trivial, by decide, by decide⟩

def illegal : State := { base with q := [0x52312001#32, 0x01000000#32] }

/-- V402, in the engine's three turns. -/
theorem witness_IllegalWordFaults :
    illegal.fault = false ∧ illegal.q = 0x52312001#32 :: [0x01000000#32] ∧
    decode 0x52312001#32 = .error .nonzeroField ∧ illegal.turns = [] ∧
    nextOf (step illegal) = some (faulted illegal 9#5) ∧
    nextOf (step (withTurns illegal [.engine])) = some (faulted illegal 9#5) ∧
    HeldWhileBusy illegal (.writeOmem 0 1#32) ∧
    nextOf (step (hostTurn illegal (.writeOmem 0 1#32))) = some (faulted (hostTurn illegal (.writeOmem 0 1#32)) 9#5) :=
  ⟨by decide, by decide, rfl, by decide, by decide, by decide, trivial, by decide⟩

def stoppedState : State := faulted base 9#5

theorem witness_EngineStepsExactlyWhenQueued :
    (base.turns = [] ∧ base.fault = false ∧ base.q ≠ [] ∧ nextOf (step base) = some (counted base)) ∧
    (State.reset.turns = [] ∧ State.reset.fault = false ∧ State.reset.q = [] ∧ step State.reset = .fault .idle) ∧
    (stoppedState.turns = [] ∧ stoppedState.fault = true ∧ step stoppedState = .fault .stopped) :=
  ⟨by decide, ⟨by decide, by decide, by decide, rfl⟩, ⟨by decide, by decide, rfl⟩⟩

theorem witness_EngineDrainsQueue :
    full.turns = [] ∧ full.fault = false ∧ full.q.length = 2 ∧
    nextOf (Host.Core.run Sys2Proof.core 2 full) = some (counted (counted full)) ∧ (counted (counted full)).q = [] := by
  decide

/-- A command that completes and one that faults. -/
theorem witness_EveryCommandEndsAndIsCounted :
    base.fault = false ∧ nextOf (exec .nop base) = some (counted base) ∧
    nextOf (exec (.pdeg 0 0) base) = some (faulted base 10#5) := by decide

theorem witness_FaultsArePrecise :
    base.fault = false ∧ exec (.pdeg 0 0) base = .next (faulted base 10#5) ∧ (faulted base 10#5).fault = true :=
  ⟨by decide, eq_next_of_nextOf (by decide), by decide⟩

/-! ### Invariants -/

/-- A register of a vector built by `Vector.replicate` is the replicated value. -/
theorem reset_p (i : PIdx) : State.reset.p[i] = .unwritten := by
  rw [State.reset, State.resetWith, Fin.getElem_fin, Vector.getElem_replicate]

theorem reset_x (i : XIdx) : State.reset.x[i] = .unwritten := by
  rw [State.reset, State.resetWith, Fin.getElem_fin, Vector.getElem_replicate]

theorem reset_f (f : FIdx) (fd : FieldRec) (h : State.reset.f[f] = .valid fd) : fd = aesField := by
  revert h
  revert f
  have : ∀ f : FIdx, State.reset.f[f] = .valid aesField ∨ State.reset.f[f] = .invalid := by decide
  intro f h
  rcases this f with h' | h' <;> rw [h'] at h
  · cases h; rfl
  · cases h

/-- The invariant of the registers holds right after reset, also with words queued. -/
theorem dataInv_reset : DataInv State.reset where
  cfg := by decide
  vectors := fun i tag v h => by rw [reset_p] at h; cases h
  elements := fun i f v h => by rw [reset_p] at h; cases h
  scalars := fun i k h => by rw [reset_x] at h; cases h
  fields := fun f fd h => by rw [reset_f f fd h]; decide
  aes := by decide

theorem dataInv_base : DataInv base :=
  ⟨dataInv_reset.cfg, dataInv_reset.vectors, dataInv_reset.elements, dataInv_reset.scalars, dataInv_reset.fields,
    dataInv_reset.aes⟩

/-- A raw 1 in P1, an element of the AES field in P2 and a scalar in X1, with one word queued. -/
theorem dataInv_written : DataInv (withX (withP (withP base 1 none [1]) 2 (some 0) [0, 1]) 1 5) :=
  dataInv_writeX (dataInv_writeP (dataInv_writeP dataInv_base 1 (fits_raw (by decide))) 2
    (fits_element (dataInv_writeP dataInv_base 1 (fits_raw (by decide))) (fd := aesField) (by decide) (by decide))) 1 (by decide)

theorem controlInv_base : ControlInv base :=
  ⟨by decide, fun _ => by decide, fun h => absurd h (by decide), fun h => absurd h (by decide)⟩

theorem controlInv_stopped : ControlInv stoppedState :=
  ⟨by decide, fun h => absurd h (by decide), fun _ => by decide,
    fun _ => ⟨.illegalCommand, by decide, by decide, by decide⟩⟩

theorem memoryInv_xld : MemoryInv { xldState with q := [0x13100061#32], x := xldState.x.set 1 (.held 7) } :=
  ⟨by decide, by decide⟩

theorem witness_StepKeepsMemoryInv :
    nextOf (step { xldState with q := [0x13100061#32], x := xldState.x.set 1 (.held 7) }) =
      some (counted { xldState with q := [0x13100061#32], x := xldState.x.set 1 (.held 7), omem := [(0x61, 7#32)] }) ∧
    MemoryInv { xldState with q := [0x13100061#32], x := xldState.x.set 1 (.held 7) } := ⟨by decide, memoryInv_xld⟩

theorem witness_StepKeepsControlInv :
    ControlInv base ∧ nextOf (step base) = some (counted base) ∧ ControlInv stoppedState ∧
    nextOf (step (hostTurn stoppedState (.writeCsr 0 1#32))) = some stoppedState :=
  ⟨controlInv_base, by decide, controlInv_stopped, by decide⟩

theorem witness_StepKeepsDataInv :
    DataInv (withX (withP (withP base 1 none [1]) 2 (some 0) [0, 1]) 1 5) ∧
    nextOf (step (withX (withP (withP base 1 none [1]) 2 (some 0) [0, 1]) 1 5)) =
      some (counted (withX (withP (withP base 1 none [1]) 2 (some 0) [0, 1]) 1 5)) := ⟨dataInv_written, by decide⟩

theorem witness_CommandsRaiseOnlyTheirFaults :
    DataInv base ∧ Instr.wellFormed (.pdeg 0 0) = true ∧ base.fault = false ∧
    exec (.pdeg 0 0) base = .next (faulted base 10#5) ∧ (faulted base 10#5).fault = true ∧ 10#5 ∈ faultsOf (.pdeg 0 0) :=
  ⟨dataInv_base, by decide, by decide, eq_next_of_nextOf (by decide), by decide, by decide⟩

theorem noSoftReset {s : State} (h : s.turns = []) : ¬ SoftResetTurn s := fun ⟨_, _, e, _⟩ => by rw [h] at e; cases e

/-- An unwritten P source and an unwritten X source; a step that is no soft reset. -/
theorem witness_UnwrittenRegistersFault :
    (Instr.wellFormed (.eadd 1 2 3) = true ∧ elems.fault = false ∧
      (∃ a ∈ pSources (.eadd 1 2 9), elems.p[a] = .unwritten) ∧
      nextOf (exec (.eadd 1 2 9) elems) = some (faulted elems 10#5)) ∧
    ((∃ a ∈ xSources (.epow 1 2 15), elems.x[a] = .unwritten) ∧
      nextOf (exec (.epow 1 2 15) elems) = some (faulted elems 10#5)) ∧
    nextOf (step elems) = some (counted elems) ∧ ¬ SoftResetTurn elems ∧ elems.p[(1 : PIdx)] ≠ .unwritten :=
  ⟨by decide, by decide, by decide, noSoftReset rfl, by decide⟩

theorem witness_FieldSlotsAreImmutable :
    nextOf (step { fnewState with q := [0x40101000#32] }) =
      some (counted { withF fnewState 1 fieldG with q := [0x40101000#32] }) ∧
    ¬ SoftResetTurn { fnewState with q := [0x40101000#32] } ∧ fnewState.f[(1 : FIdx)] = .invalid ∧
    decode 0x40101000#32 = .ok (.fnew 1 0 1 0) ∧ fnewState.f[(0 : FIdx)] = .valid aesField :=
  ⟨by decide, noSoftReset rfl, by decide, rfl, by decide⟩

/-- V426: a push in the faulted state. -/
theorem witness_FaultedStateOnlyLeftByReset :
    (stoppedState.fault = true ∧ stoppedState.q = [] ∧ stoppedState.turns = [] ∧ step stoppedState = .fault .stopped) ∧
    nextOf (step (hostTurn stoppedState (.writeCsr 0 0x01000000#32))) = some stoppedState ∧
    ¬ SoftResetTurn (hostTurn stoppedState (.writeCsr 0 0x01000000#32)) :=
  ⟨⟨by decide, by decide, by decide, rfl⟩, by decide, fun ⟨w, ts, h, _⟩ => by cases h⟩

/-- EDIVMOD writes P8 and P9 and leaves P7. -/
theorem witness_FrameOfRegisters :
    exec (.edivmod 8 9 1 2) elems = .next (counted (withP (withP elems 8 (some 1) [2]) 9 (some 1) [4, 2])) ∧
    (7 : PIdx) ∉ pDests (.edivmod 8 9 1 2) := ⟨eq_next_of_nextOf (by decide), by decide⟩

/-- PST of two coefficients at 0xFFFD stores to the last three words and not below. -/
theorem witness_FrameOfMemory :
    Memory.wf pstState.omem = true ∧
    exec (.pst 3 0xFFFD#16) pstState =
      .next (counted (withOmem pstState [(0xFFFD, 2#32), (0xFFFE, 4#32), (0xFFFF, 2#32)])) ∧
    ¬ StoresTo pstState 0xFFFC (.pst 3 0xFFFD#16) ∧ StoresTo pstState 0xFFFF (.pst 3 0xFFFD#16) :=
  ⟨by decide, eq_next_of_nextOf (by decide), fun h => absurd h.1 (by decide), ⟨by decide, by decide⟩⟩

theorem witness_OmemDoesNotMatter :
    usesMemory (.eadd 8 4 2) = false ∧ exec (.eadd 8 4 2) elems = .next (counted (withP elems 8 (some 1) [2, 1, 3])) ∧
    nextOf (exec (.eadd 8 4 2) (withOmem elems [(0, 1#32)])) =
      some (withOmem (counted (withP elems 8 (some 1) [2, 1, 3])) [(0, 1#32)]) :=
  ⟨by decide, eq_next_of_nextOf (by decide), by decide⟩

/-- The least and the greatest parameters of R5, with the last word of OMEM written. -/
theorem witness_InvariantsHoldAtReset :
    Config.Admissible { maxLen := 9, memWords := 1, qDepth := 1 } ∧
    Config.Admissible { maxLen := 32768, memWords := 65536, qDepth := 16 } ∧
    Memory.wf [(65535, 1#32)] = true ∧ (∀ e ∈ [(65535, 1#32)], e.1 < 65536) := by decide

/-! ### Reset and the host -/

/-- Any state and any content of OMEM meet the hypothesis; here a faulted block with a word in OMEM. -/
theorem witness_ResetValues :
    (withOmem stoppedState [(7, 7#32)]).hardReset [(3, 3#32)] =
      { State.reset with omem := [(3, 3#32)] } ∧
    (withOmem stoppedState [(7, 7#32)]).softReset = { State.reset with omem := [(7, 7#32)] } := by decide

/-- V427. -/
theorem witness_SoftResetIsAHardResetKeepingOmem :
    (0x80000003#32).getLsbD 31 = true ∧
    (hostTurn (withOmem stoppedState [(7, 7#32)]) (.writeCsr 2 0x80000003#32)).turns =
      .host (.writeCsr 2 0x80000003#32) :: [] ∧
    nextOf (step (hostTurn (withOmem stoppedState [(7, 7#32)]) (.writeCsr 2 0x80000003#32))) =
      some { State.reset with omem := [(7, 7#32)] } := by decide

/-- A push while stopped, into the last free entry, and into a full queue. -/
theorem witness_HostPushesCommands :
    (stoppedState.fault = true ∧ nextOf (step (hostTurn stoppedState (.writeCsr 0 1#32))) = some stoppedState) ∧
    (tiny.fault = false ∧ tiny.q.length + 1 = tiny.cfg.qDepth ∧
      nextOf (step (hostTurn tiny (.writeCsr 0 5#32))) = some { tiny with q := [0x01000000#32, 5#32] }) ∧
    (full.cfg.qDepth ≤ full.q.length ∧ full.q ≠ [] ∧ full.fault = false ∧
      nextOf (step (hostTurn full (.writeCsr 0 5#32))) = some (counted (hostTurn full (.writeCsr 0 5#32)))) := by decide

/-- V421, V422, a read-only register, and the first offset outside the block. -/
theorem witness_HostWritesCsrs :
    nextOf (step (hostTurn (counted base) (.writeCsr 1 4#32))) = some { counted base with done := false } ∧
    ((3#32).getLsbD 31 = false ∧
      nextOf (step (hostTurn base (.writeCsr 2 3#32))) = some { base with fie := true, die := true }) ∧
    nextOf (step (hostTurn base (.writeCsr 3 1#32))) = some base ∧
    nextOf (step (hostTurn base (.writeCsr 7 1#32))) = some base ∧
    step (hostTurn base (.writeCsr 8 1#32)) = .refused .csrOutside := ⟨by decide, by decide, by decide, by decide, rfl⟩

/-- V418, V419, V424 and PARAM for the greatest `MAXLEN` its field can say and the next. -/
theorem witness_HostReadsCsrs :
    nextOf (step (hostTurn base (.readCsr 0))) = some { base with busRead := some 0#32 } ∧
    nextOf (step (hostTurn base (.readCsr 1))) = some { base with busRead := some 1#32 } ∧
    nextOf (step (hostTurn { base with fie := true } (.readCsr 2))) =
      some { base with fie := true, busRead := some 1#32 } ∧
    nextOf (step (hostTurn stoppedState (.readCsr 1))) = some { stoppedState with busRead := some 6#32 } ∧
    nextOf (step (hostTurn stoppedState (.readCsr 3))) = some { stoppedState with busRead := some 9#32 } ∧
    nextOf (step (hostTurn stoppedState (.readCsr 4))) = some { stoppedState with busRead := some 0x01000000#32 } ∧
    nextOf (step (hostTurn (counted base) (.readCsr 6))) = some { counted base with busRead := some 1#32 } ∧
    nextOf (step (hostTurn base (.readCsr 7))) = some { base with busRead := some 0x01F41010#32 } ∧
    Config.paramWord { base.cfg with maxLen := 4096 } = 0xFFF41010#32 ∧
    Config.paramWord { base.cfg with maxLen := 4097 } = 0xFFF41010#32 := by decide

/-- The last word of OMEM, read and written while the engine is idle, and waiting while it is not. -/
theorem witness_HostAccessesOmemWhenIdle :
    (State.reset.q = [] ∧ 65535 < State.reset.cfg.memWords ∧
      nextOf (step (hostTurn State.reset (.readOmem 65535))) = some { State.reset with busRead := some 0#32 }) ∧
    (Memory.wf State.reset.omem = true ∧
      nextOf (step (hostTurn State.reset (.writeOmem 65535 9#32))) = some { State.reset with omem := [(65535, 9#32)] }) ∧
    (base.fault = false ∧ base.q ≠ [] ∧
      nextOf (step (hostTurn base (.readOmem 0))) = some (counted (hostTurn base (.readOmem 0))) ∧
      nextOf (step (hostTurn base (.writeOmem 0 9#32))) = some (counted (hostTurn base (.writeOmem 0 9#32)))) := by decide

/-- V422, V423, V425. -/
theorem witness_InterruptLine :
    ({ base with done := true, die := true } : State).irq = true ∧
    nextOf (step (hostTurn { base with done := true, die := true } (.writeCsr 1 4#32))) =
      some { base with done := false, die := true } ∧
    ({ base with done := false, die := true } : State).irq = false ∧
    nextOf (step (hostTurn { base with done := true } (.writeCsr 2 2#32))) = some { base with done := true, die := true } ∧
    nextOf (step (hostTurn { stoppedState with fie := true } (.writeCsr 1 4#32))) =
      some { stoppedState with fie := true, done := false } ∧
    ({ stoppedState with fie := true, done := false } : State).irq = true ∧
    nextOf (exec .nop { base with die := true }) = some (counted { base with die := true }) ∧
    (counted { base with die := true }).irq = true ∧ (faulted { base with fie := true } 9#5).irq = true := by decide

/-- The host pushes a NOP and the engine runs it (V419, V420): how a program comes to run (log 6). -/
theorem test_run_from_reset :
    nextOf (Host.Core.run Sys2Proof.core 2 (hostTurn State.reset (.writeCsr 0 0x01000000#32))) = some (counted base) ∧
    (counted base).statusWord = 4#32 ∧ nextOf (step (State.reset.withFetchWord 32 0x01000000)) = some (counted base) := by
  decide

/-! ### Laws of the arithmetic -/

theorem witness_RawPolynomialLaws :
    padd [1, 2] [0, 3] = .ok [1, 5] ∧ psub [1, 5] [0, 3] = .ok [1, 2] ∧ pmul 32 [1, 1] [1, 5] = .ok [1, 6, 5] ∧
    pmul 32 [1, 1] [1, 2] = .ok [1, 3, 2] ∧ pmul 32 [1, 1] [0, 3] = .ok [0, 3, 3] ∧
    padd [1, 3, 2] [0, 3, 3] = .ok [1, 6, 5] ∧ co [1, 1] 1 ≠ 0 ∧ co [1, 5] 1 ≠ 0 ∧ IsDegree [1, 1] 1 ∧ IsDegree [1, 5] 1 :=
  ⟨rfl, rfl, rfl, rfl, rfl, rfl, by decide, by decide, isDegree_degree _, isDegree_degree _⟩

theorem witness_ElementRingLaws :
    IsField fieldG ∧ UnitModulus fieldG ∧ IsElement fieldG [1, 2] ∧ IsElement fieldG [1, 0, 1] ∧ IsElement fieldG [4] ∧
    (∀ i, fieldG.n ≤ i → co [1, 2] i = 0) ∧ emul fieldG [1, 2] [1] = .ok [1, 2] :=
  ⟨by decide, unitModulus_fieldG, by decide, by decide, by decide, co_zero_from (by decide), rfl⟩

theorem witness_ElementMultiplicationAssociative : IsField fieldG ∧ UnitModulus fieldG := ⟨by decide, unitModulus_fieldG⟩

end Sys2Proof.Tests
end

/-! PROOFS. What a completed command has written, sorted by kind of destination, and what follows at once: the frame of a
command, OMEM's canonical form, immutable slots, registers that stay written (spec/10_state.md R22, R24, R26, R40). -/

namespace Sys2Proof.Machine

open Sys2Proof.Claims

/-- The kinds of destination of a completed command: six in place of the thirty rows of `Writes`. -/
inductive Written (s u : State) (i : Instr) : Prop where
  /-- NOP. -/
  | nothing (h : u = s)
  /-- One polynomial register. -/
  | poly (d : PIdx) (hd : d ∈ pDests i) (tag : Option FIdx) (v : Vec) (h : u = s.writeP d tag v)
  /-- The two destinations of EDIVMOD. -/
  | pair (d c : PIdx) (hd : d ∈ pDests i) (hc : c ∈ pDests i) (tag : Option FIdx) (q r : Vec)
      (h : u = (s.writeP d tag q).writeP c tag r)
  /-- One scalar register. -/
  | scalar (d : XIdx) (hd : d ∈ xDests i) (k : Int) (h : u = s.writeX d k)
  /-- A field slot, which was invalid. -/
  | slot (d : FIdx) (a b : XIdx) (c : PIdx) (hi : i = .fnew d a b c) (hs : s.f[d] = .invalid) (r : FieldRec)
      (h : u = s.writeF d r)
  /-- Consecutive words of OMEM, all inside it. -/
  | words (a : Nat) (ws : List Word) (ha : a + ws.length ≤ s.cfg.memWords) (h : u = s.store a ws)

theorem length_vectorWords (v : Vec) : (vectorWords v).length = v.length + 1 := by simp [vectorWords]

theorem Writes.written {s u : State} {i : Instr} (h : Writes s u i) : Written s u i := by
  cases i with
  | nop => exact .nothing h
  | pld | eldb | pnorm | padd | psub | pmul | enew =>
    obtain ⟨_, h⟩ := h
    exact .poly _ (List.mem_singleton_self _) _ _ h
  | enorm | eadd | esub | emul | emod | einv | epow =>
    obtain ⟨_, _, h⟩ := h
    exact .poly _ (List.mem_singleton_self _) _ _ h
  | ezero | eone => exact .poly _ (List.mem_singleton_self _) _ _ h
  | copy =>
    obtain ⟨_, _, _, h⟩ := h
    exact .poly _ (List.mem_singleton_self _) _ _ h
  | edivmod =>
    obtain ⟨_, _, _, h⟩ := h
    exact .pair _ _ (List.mem_pair.mpr (.inl rfl)) (List.mem_pair.mpr (.inr rfl)) _ _ _ h
  | xld | pdeg | plead | pisz | piso | eord =>
    obtain ⟨_, h⟩ := h
    exact .scalar _ (List.mem_singleton_self _) _ h
  | xli => exact .scalar _ (List.mem_singleton_self _) _ h
  | fnew =>
    obtain ⟨_, hs, h⟩ := h
    exact .slot _ _ _ _ rfl hs _ h
  | pst =>
    obtain ⟨_, _, _, ha, h⟩ := h
    exact .words _ _ (by rw [length_vectorWords]; omega) h
  | xst =>
    obtain ⟨_, _, ha, h⟩ := h
    exact .words _ [_] ha h
  | estb =>
    obtain ⟨_, _, _, ha, h⟩ := h
    exact .words _ [_] ha h

/-! ### The frame of a command -/

theorem Written.p_frame {s u : State} {i : Instr} (h : Written s u i) {j : PIdx} (hj : j ∉ pDests i) :
    u.p[j] = s.p[j] := by
  cases h with
  | poly d hd _ _ h => rw [h, State.getElem_writeP_ne _ _ _ (ne_of_mem_of_not_mem hd hj).symm]
  | pair d c hd hc _ _ _ h =>
    rw [h, State.getElem_writeP_ne _ _ _ (ne_of_mem_of_not_mem hc hj).symm,
      State.getElem_writeP_ne _ _ _ (ne_of_mem_of_not_mem hd hj).symm]
  | nothing h | scalar _ _ _ h | slot _ _ _ _ _ _ _ h | words _ _ _ h =>
    subst h
    rfl

theorem Written.x_frame {s u : State} {i : Instr} (h : Written s u i) {j : XIdx} (hj : j ∉ xDests i) :
    u.x[j] = s.x[j] := by
  cases h with
  | scalar d hd _ h => rw [h, State.getElem_writeX_ne _ _ (ne_of_mem_of_not_mem hd hj).symm]
  | nothing h | poly _ _ _ _ h | pair _ _ _ _ _ _ _ h | slot _ _ _ _ _ _ _ h | words _ _ _ h =>
    subst h
    rfl

theorem Written.f_frame {s u : State} {i : Instr} (h : Written s u i) {j : FIdx} (hj : j ∉ fDests i) :
    u.f[j] = s.f[j] := by
  cases h with
  | slot d _ _ _ hi _ _ h =>
    subst hi
    rw [h, State.getElem_writeF_ne _ _ fun e => hj (List.mem_singleton.mpr e)]
  | nothing h | poly _ _ _ _ h | pair _ _ _ _ _ _ _ h | scalar _ _ _ h | words _ _ _ h =>
    subst h
    rfl

theorem writeP_stays_written {s : State} {j : PIdx} (d : PIdx) (tag : Option FIdx) (v : Vec)
    (hj : s.p[j] ≠ .unwritten) : (s.writeP d tag v).p[j] ≠ .unwritten := by
  by_cases hd : j = d
  · subst hd
    rw [State.getElem_writeP_self]
    exact nofun
  · rwa [State.getElem_writeP_ne _ _ _ hd]

/-- A command writes no register back to `unwritten`. -/
theorem Written.p_stays_written {s u : State} {i : Instr} (h : Written s u i) {j : PIdx} (hj : s.p[j] ≠ .unwritten) :
    u.p[j] ≠ .unwritten := by
  cases h with
  | poly _ _ _ _ h => exact h ▸ writeP_stays_written _ _ _ hj
  | pair _ _ _ _ _ _ _ h => exact h ▸ writeP_stays_written _ _ _ (writeP_stays_written _ _ _ hj)
  | nothing h | scalar _ _ _ h | slot _ _ _ _ _ _ _ h | words _ _ _ h => exact h ▸ hj

theorem Written.x_stays_written {s u : State} {i : Instr} (h : Written s u i) {j : XIdx} (hj : s.x[j] ≠ .unwritten) :
    u.x[j] ≠ .unwritten := by
  cases h with
  | scalar d _ _ h =>
    by_cases hd : j = d
    · subst hd; rw [h, State.getElem_writeX_self]; exact nofun
    · rwa [h, State.getElem_writeX_ne _ _ hd]
  | nothing h | poly _ _ _ _ h | pair _ _ _ _ _ _ _ h | slot _ _ _ _ _ _ _ h | words _ _ _ h => exact h ▸ hj

/-- A command changes a slot only from invalid, and only when it is FNEW of that slot. -/
theorem Written.slot_changes {s u : State} {i : Instr} (h : Written s u i) (j : FIdx) :
    u.f[j] = s.f[j] ∨ (s.f[j] = .invalid ∧ ∃ a b c, i = .fnew j a b c) := by
  cases h with
  | slot d a b c hi hs _ h =>
    by_cases hd : j = d
    · subst hd; exact .inr ⟨hs, a, b, c, hi⟩
    · exact .inl (by rw [h, State.getElem_writeF_ne _ _ hd])
  | nothing h | poly _ _ _ _ h | pair _ _ _ _ _ _ _ h | scalar _ _ _ h | words _ _ _ h => exact .inl (by subst h; rfl)

/-- What a command's next state holds in the registers and slots is what it wrote, or what was there: a fault changes
none of them (spec/60_exceptions.md R206). -/
theorem exec_written {i : Instr} {s t : State} (h : exec i s = .next t) :
    ∃ u, Written s u i ∧ OnlyData s u ∧ t.p = u.p ∧ t.x = u.x ∧ t.f = u.f ∧ t.omem = u.omem := by
  rcases exec_cases h with ⟨u, hu, rfl⟩ | ⟨c, _, rfl⟩
  · exact ⟨u, hu.written, hu.onlyData, rfl, rfl, rfl, rfl⟩
  · exact ⟨s, .nothing rfl, onlyData_refl s, rfl, rfl, rfl, rfl⟩

/-- Neither a completion nor a fault changes the parameters, the interrupt enables or the host's two fields. -/
theorem exec_keeps_host {i : Instr} {s t : State} (h : exec i s = .next t) :
    t.cfg = s.cfg ∧ t.fie = s.fie ∧ t.die = s.die ∧ t.turns = s.turns ∧ t.busRead = s.busRead := by
  rcases exec_cases h with ⟨u, hu, rfl⟩ | ⟨c, _, rfl⟩
  · have hd := hu.onlyData
    exact ⟨hd.cfg, hd.fie, hd.die, hd.turns, hd.busRead⟩
  · exact ⟨rfl, rfl, rfl, rfl, rfl⟩

/-- Settles O42: each kind of destination leaves the other registers and slots alone, and a fault leaves all of them. -/
theorem frameOfRegisters : Obligations.FrameOfRegisters := by
  intro i s t h
  obtain ⟨u, hu, _, hp, hx, hf, _⟩ := exec_written h
  refine ⟨fun j hj => ?_, fun j hj => ?_, fun j hj => ?_, exec_keeps_host h⟩
  · rw [hp, hu.p_frame hj]
  · rw [hx, hu.x_frame hj]
  · rw [hf, hu.f_frame hj]

/-! ### OMEM -/

theorem memoryInv_of_eq {s t : State} (h : MemoryInv s) (hm : t.omem = s.omem) (hc : t.cfg = s.cfg) : MemoryInv t :=
  ⟨hm ▸ h.canonical, hm ▸ hc ▸ h.inside⟩

/-- Storing words inside OMEM keeps its canonical form and lists no address outside. -/
theorem memoryInv_store {s : State} (h : MemoryInv s) {a : Nat} {ws : List Word} (ha : a + ws.length ≤ s.cfg.memWords) :
    MemoryInv (s.store a ws) where
  canonical := Memory.writeList_wf h.canonical a ws
  inside := fun e he => by
    rcases Memory.mem_writeList he with he | ⟨_, he⟩
    · exact h.inside e he
    · exact lt_of_lt_of_le he ha

theorem Written.memoryInv {s u : State} {i : Instr} (hu : Written s u i) (h : MemoryInv s) : MemoryInv u := by
  cases hu with
  | words a ws ha hu => exact hu ▸ memoryInv_store h ha
  | nothing hu | poly _ _ _ _ hu | pair _ _ _ _ _ _ _ hu | scalar _ _ _ hu | slot _ _ _ _ _ _ _ hu =>
    exact memoryInv_of_eq h (hu ▸ rfl) (hu ▸ rfl)

theorem exec_keeps_memoryInv {i : Instr} {s t : State} (hs : MemoryInv s) (h : exec i s = .next t) : MemoryInv t := by
  obtain ⟨u, hu, hd, _, _, _, hm⟩ := exec_written h
  have hc : t.cfg = u.cfg := (exec_keeps_host h).1.trans hd.cfg.symm
  exact memoryInv_of_eq (hu.memoryInv hs) hm hc

/-- Settles O45, by the cases of a step: a command or the host stores canonically and inside OMEM, and every other step,
the soft reset included, leaves OMEM as it is. -/
theorem stepKeepsMemoryInv : Obligations.StepKeepsMemoryInv := by
  intro s t hs h
  cases step_eq_next h with
  | command ts w rest i _ _ _ h => exact exec_keeps_memoryInv (s := { s with turns := ts }) ⟨hs.canonical, hs.inside⟩ h
  | store ts a w _ ha h =>
    subst h
    exact memoryInv_of_eq (memoryInv_store hs (ws := [w]) ha) rfl rfl
  | illegal _ _ _ _ _ _ _ h | quiet _ _ h | push _ _ _ _ h | ack _ h | enables _ _ _ h | reset _ _ _ _ h =>
    subst h
    exact memoryInv_of_eq hs rfl rfl

/-! ### Slots and registers over a step -/

/-- The registers and slots of a step that is no soft reset: those of the command at the head of `Q`, or unchanged. -/
theorem step_registers {s t : State} (h : step s = .next t) (hr : ¬ SoftResetTurn s) :
    (t.p = s.p ∧ t.x = s.x ∧ t.f = s.f) ∨
      ∃ i ts u, decode (s.q.headD 0#32) = .ok i ∧ Written { s with turns := ts } u i ∧
        t.p = u.p ∧ t.x = u.x ∧ t.f = u.f := by
  cases step_eq_next h with
  | command ts w rest i _ hq hd h =>
    obtain ⟨u, hu, _, hp, hx, hf, _⟩ := exec_written h
    exact .inr ⟨i, ts, u, by rw [hq]; exact hd, hu, hp, hx, hf⟩
  | reset ts w hs hw _ => exact absurd ⟨w, ts, hs, hw⟩ hr
  | illegal _ _ _ _ _ _ _ h | quiet _ _ h | push _ _ _ _ h | ack _ h | enables _ _ _ h | store _ _ _ _ _ h =>
    subst h
    exact .inl ⟨rfl, rfl, rfl⟩

/-- Settles O40: only FNEW writes a slot, and it faults on a valid one. -/
theorem fieldSlotsAreImmutable : Obligations.FieldSlotsAreImmutable := by
  intro s t h hr j
  rcases step_registers h hr with ⟨_, _, hf⟩ | ⟨i, ts, u, hd, hu, _, _, hf⟩
  · rw [hf]
    exact ⟨fun _ hv => hv, fun hi hn => absurd hi hn⟩
  · rw [hf]
    rcases hu.slot_changes j with hj | ⟨hj, a, b, c, rfl⟩
    · rw [hj]
      exact ⟨fun _ hv => hv, fun hi hn => absurd hi hn⟩
    · exact ⟨fun fd hv => absurd (hv.symm.trans hj) nofun, fun _ _ => ⟨a, b, c, hd⟩⟩

theorem step_keeps_written {s t : State} (h : step s = .next t) (hr : ¬ SoftResetTurn s) :
    (∀ j : PIdx, s.p[j] ≠ .unwritten → t.p[j] ≠ .unwritten) ∧
      ∀ j : XIdx, s.x[j] ≠ .unwritten → t.x[j] ≠ .unwritten := by
  rcases step_registers h hr with ⟨hp, hx, _⟩ | ⟨i, ts, u, _, hu, hp, hx, _⟩
  · rw [hp, hx]
    exact ⟨fun _ hj => hj, fun _ hj => hj⟩
  · rw [hp, hx]
    exact ⟨fun _ hj => hu.p_stays_written hj, fun _ hj => hu.x_stays_written hj⟩

end Sys2Proof.Machine

/-! PROOFS. How commands end, the queue, the fault record and the host's turns (spec/10_state.md R29 to R41;
spec/60_exceptions.md R203 to R207). -/

namespace Sys2Proof.Machine

open Sys2Proof.Claims

/-! ### Whose turn it is -/

theorem step_of_no_turns {s : State} (h : s.turns = []) : step s = engineStep s := by
  simp only [step, takeTurn, h]

theorem step_of_engine_turn {s : State} {ts : List Turn} (h : s.turns = .engine :: ts) (hr : s.engineReady = true) :
    step s = engineStep { s with turns := ts } := by
  simp only [step, takeTurn, h, hr, if_true]

theorem step_of_held {s : State} {a : HostAccess} {ts : List Turn} (h : s.turns = .host a :: ts)
    (hh : s.holds a = true) : step s = engineStep s := by
  simp only [step, takeTurn, h, hh, if_true]

theorem step_of_host {s : State} {a : HostAccess} {ts : List Turn} (h : s.turns = .host a :: ts)
    (hh : s.holds a = false) : step s = State.hostStep { s with turns := ts } a := by
  simp only [step, takeTurn, h, hh, Bool.false_eq_true, if_false]

theorem engineReady_of_queued {s : State} (hf : s.fault = false) (hq : s.q ≠ []) : s.engineReady = true := by
  simp [State.engineReady, State.busy, hf, hq]

theorem holds_of_heldWhileBusy {s : State} {a : HostAccess} (hf : s.fault = false) (hq : s.q ≠ [])
    (h : HeldWhileBusy s a) : s.holds a = true := by
  cases a with
  | readCsr => exact h.elim
  | writeCsr k w =>
    obtain ⟨rfl, hl⟩ := h
    simp [State.holds, hf, hl]
  | readOmem | writeOmem => simp [State.holds, State.busy, hq]

/-- A CSR write is held only when it is a push into a full queue. -/
theorem holds_writeCsr_of_ne_zero (s : State) {k : Nat} (hk : k ≠ 0) (w : Word) : s.holds (.writeCsr k w) = false := by
  simp [State.holds, hk]

/-- Settles O32: in each of the three turns the step is the engine's, on the word at the head of `Q`. -/
theorem stepRunsDecodedCommand : Obligations.StepRunsDecodedCommand := by
  intro s w rest i hf hq hd
  have hne : s.q ≠ [] := by rw [hq]; exact List.cons_ne_nil w rest
  have run (ts : List Turn) : engineStep { s with turns := ts } = exec i { s with turns := ts } :=
    (engineStep_of_head (s := { s with turns := ts }) hf hq).trans (runWord_of_decode hd)
  refine ⟨fun ht => ?_, fun ts ht => ?_, fun a ts ht hh => ?_⟩
  · rw [step_of_no_turns ht]
    exact run s.turns
  · rw [step_of_engine_turn ht (engineReady_of_queued hf hne)]
    exact run ts
  · rw [step_of_held ht (holds_of_heldWhileBusy hf hne hh)]
    exact run s.turns

/-! ### How a command ends -/

theorem exec_ends (i : Instr) (s : State) : ∃ t, exec i s = .next t := by
  obtain ⟨r, hr, _, _⟩ := exec_eq_finish i s
  rw [hr]
  cases r with
  | ok u => exact ⟨_, finish_ok s u⟩
  | error c => exact ⟨_, finish_error s c⟩

/-- Settles O36: a completion counts and unqueues, a fault records and empties the queue. -/
theorem everyCommandEndsAndIsCounted : Obligations.EveryCommandEndsAndIsCounted := by
  intro i s hf
  obtain ⟨t, ht⟩ := exec_ends i s
  refine ⟨t, ht, ?_⟩
  rcases exec_cases ht with ⟨u, hu, rfl⟩ | ⟨c, _, rfl⟩
  · have hd := hu.onlyData
    left
    simp [hd.fault, hf, hd.cseq, hd.q, hd.done, hd.ecode, hd.ecmd, hd.eseq]
  · right
    simp [hf]

/-- The engine's step on a queued word takes that word off, or empties the queue, and leaves the turns to come. -/
theorem engineStep_unqueues {s : State} (hf : s.fault = false) (hq : s.q ≠ []) :
    ∃ t, engineStep s = .next t ∧ t.turns = s.turns ∧ (t.q = s.q.tail ∨ t.q = []) := by
  obtain ⟨w, rest, hw⟩ := List.exists_cons_of_ne_nil hq
  rw [engineStep_of_head hf hw]
  cases hd : decode w with
  | ok i =>
    obtain ⟨t, ht⟩ := exec_ends i s
    refine ⟨t, (runWord_of_decode hd).trans ht, ?_⟩
    rcases exec_cases ht with ⟨u, hu, rfl⟩ | ⟨c, _, rfl⟩
    · exact ⟨hu.onlyData.turns, .inl (congrArg List.tail hu.onlyData.q)⟩
    · exact ⟨rfl, .inr rfl⟩
  | error e => exact ⟨_, runWord_of_reject hd, rfl, .inr rfl⟩

/-- Settles O34: with no turn listed the step is the engine's. -/
theorem engineStepsExactlyWhenQueued : Obligations.EngineStepsExactlyWhenQueued := by
  intro s ht
  rw [step_of_no_turns ht]
  refine ⟨fun hf hq => ?_, fun hf hq => ?_, fun hf => ?_⟩
  · obtain ⟨t, h, _, hq⟩ := engineStep_unqueues hf hq
    exact ⟨t, h, hq⟩
  · simp only [engineStep, hf, hq, Bool.false_eq_true, if_false]
  · simp only [engineStep, hf, if_true]

/-! ### The queue and the fault record -/

theorem controlInv_takeFault {s : State} (hf : s.fault = false) {c : Cause} (hc : Raisable c) :
    ControlInv (s.takeFault c) where
  fits := Nat.zero_le _
  clear := nofun
  stopped := fun _ => ⟨rfl, by simp [hf]⟩
  code := fun _ => ⟨c, hc.1, hc.2, by simp [hf]⟩

theorem exec_keeps_controlInv {i : Instr} {s t : State} (hf : s.fault = false) (hs : ControlInv s)
    (h : exec i s = .next t) : ControlInv t := by
  rcases exec_cases h with ⟨u, hu, rfl⟩ | ⟨c, hc, rfl⟩
  · have hd := hu.onlyData
    have running : u.complete.fault = false := hd.fault.trans hf
    refine ⟨?_, fun _ => ?_, fun ht => absurd (ht.symm.trans running) nofun,
      fun ht => absurd (ht.symm.trans running) nofun⟩
    · have := hs.fits
      simp only [State.complete_q, State.complete_cfg, hd.q, hd.cfg, List.length_tail]
      omega
    · simpa [hd.ecode, hd.ecmd, hd.eseq] using hs.clear hf
  · exact controlInv_takeFault hf hc

theorem controlInv_resetWith (cfg : Config) (m : Memory) : ControlInv (State.resetWith cfg m) :=
  ⟨Nat.zero_le _, fun _ => ⟨rfl, rfl, rfl⟩, nofun, nofun⟩

/-- The invariant speaks of seven fields. -/
theorem controlInv_of_eq {s t : State} (h : ControlInv s) (hq : t.q = s.q) (hc : t.cfg = s.cfg)
    (hf : t.fault = s.fault) (hn : t.cseq = s.cseq) (he : t.ecode = s.ecode) (hw : t.ecmd = s.ecmd)
    (hm : t.eseq = s.eseq) : ControlInv t where
  fits := by rw [hq, hc]; exact h.fits
  clear := by rw [hf, he, hw, hm]; exact h.clear
  stopped := by rw [hf, hq, hn, hm]; exact h.stopped
  code := by rw [hf, he]; exact h.code

/-- Settles O46, by the cases of a step: only a command, an illegal word, a push into a queue with room and a soft reset
touch the queue or the fault record. -/
theorem stepKeepsControlInv : Obligations.StepKeepsControlInv := by
  intro s t hs h
  cases step_eq_next h with
  | command ts w rest i hf _ _ h =>
    exact exec_keeps_controlInv (s := { s with turns := ts }) hf ⟨hs.fits, hs.clear, hs.stopped, hs.code⟩ h
  | illegal ts w rest e hf _ _ h =>
    have hc : Raisable .illegalCommand := by decide
    subst h
    exact controlInv_takeFault (s := { s with turns := ts }) hf hc
  | push ts w hf hl h =>
    subst h
    refine ⟨?_, hs.clear, fun ht => absurd (ht.symm.trans hf) nofun, hs.code⟩
    simpa using hl
  | reset ts w _ _ h =>
    subst h
    exact controlInv_of_eq (controlInv_resetWith s.cfg s.omem) rfl rfl rfl rfl rfl rfl rfl
  | quiet _ _ h | ack _ h | enables _ _ _ h | store _ _ _ _ _ h =>
    subst h
    exact controlInv_of_eq hs rfl rfl rfl rfl rfl rfl rfl

/-! ### Unwritten sources -/

theorem elems1_of_unwritten {s : State} {a : PIdx} (h : s.p[a] = .unwritten) :
    s.elems1 a = .error .unwrittenRegister := elems1_eq_error.mpr (.inl ⟨h, rfl⟩)

/-- A read, then something that raises `UnwrittenRegister` whatever was read, raises it. -/
theorem bind_of_unwritten {α β : Type} {x : Except Cause α} {f : α → Except Cause β}
    (hx : ∀ e, x = .error e → e = .unwrittenRegister) (hf : ∀ a, f a = .error .unwrittenRegister) :
    (x >>= f) = .error .unwrittenRegister := by
  cases x with
  | ok a => exact hf a
  | error e => rw [hx e rfl, Except.error_bind]

theorem readP_error {s : State} {a : PIdx} {e : Cause} (h : s.readP a = .error e) : e = .unwrittenRegister :=
  (readP_eq_error.mp h).2.symm

theorem readVec_error {s : State} {a : PIdx} {e : Cause} (h : s.readVec a = .error e) : e = .unwrittenRegister :=
  (readVec_eq_error.mp h).2.symm

theorem readX_error {s : State} {a : XIdx} {e : Cause} (h : s.readX a = .error e) : e = .unwrittenRegister :=
  (readX_eq_error.mp h).2.symm

/-- Both reads stand before the tests of the tags. -/
theorem elems2_of_unwritten {s : State} {a b : PIdx} (h : s.p[a] = .unwritten ∨ s.p[b] = .unwritten) :
    s.elems2 a b = .error .unwrittenRegister := by
  rcases h with h | h
  · rw [State.elems2, readP_of_unwritten h, Except.error_bind]
  · exact bind_of_unwritten (fun _ => readP_error) fun ⟨_, _⟩ => by simp only [readP_of_unwritten h, Except.error_bind]

theorem query_of_unwritten (d : XIdx) {a : PIdx} (f : Vec → Int) {s : State} (h : s.p[a] = .unwritten) :
    query d a f s = finish s (.error .unwrittenRegister) := by
  rw [query, readVec_of_unwritten h, Except.error_bind]

theorem rawBinary_of_unwritten (d : PIdx) {a b : PIdx} (f : Vec → Vec → Except Cause Vec) {s : State}
    (h : s.p[a] = .unwritten ∨ s.p[b] = .unwritten) : rawBinary d a b f s = finish s (.error .unwrittenRegister) := by
  rw [rawBinary]
  congr 1
  rcases h with h | h
  · rw [readVec_of_unwritten h, Except.error_bind]
  · exact bind_of_unwritten (fun _ => readVec_error) fun _ => by rw [readVec_of_unwritten h, Except.error_bind]

theorem elementBinary_of_unwritten (d : PIdx) {a b : PIdx} (f : FieldRec → Vec → Vec → Except Cause Vec) {s : State}
    (h : s.p[a] = .unwritten ∨ s.p[b] = .unwritten) :
    elementBinary d a b f s = finish s (.error .unwrittenRegister) := by
  rw [elementBinary, elems2_of_unwritten h, Except.error_bind]

/-- FNEW reads its three sources before every check (spec/43_field.md R133). -/
theorem execFnew_of_unwritten (d : FIdx) {a b : XIdx} {c : PIdx} {s : State}
    (h : s.x[a] = .unwritten ∨ s.x[b] = .unwritten ∨ s.p[c] = .unwritten) :
    execFnew d a b c s = finish s (.error .unwrittenRegister) := by
  rw [execFnew]
  congr 1
  rcases h with h | h | h
  · rw [readX_of_unwritten h, Except.error_bind]
  · exact bind_of_unwritten (fun _ => readX_error) fun _ => by rw [readX_of_unwritten h, Except.error_bind]
  · exact bind_of_unwritten (fun _ => readX_error) fun _ => bind_of_unwritten (fun _ => readX_error) fun _ => by
      rw [readVec_of_unwritten h, Except.error_bind]

/-- EPOW reads both sources before the test of the tag (spec/47_element_pow_order.md R181). -/
theorem execEpow_of_unwritten (d : PIdx) {a : PIdx} {b : XIdx} {s : State}
    (h : s.p[a] = .unwritten ∨ s.x[b] = .unwritten) :
    execEpow d a b s = finish s (.error .unwrittenRegister) := by
  rw [execEpow]
  congr 1
  rcases h with h | h
  · rw [readP_of_unwritten h, Except.error_bind]
  · exact bind_of_unwritten (fun _ => readP_error) fun ⟨_, _⟩ => by simp only [readX_of_unwritten h, Except.error_bind]

theorem unwritten_of_mem_pair {s : State} {a b r : PIdx} (hr : r ∈ [a, b]) (h : s.p[r] = .unwritten) :
    s.p[a] = .unwritten ∨ s.p[b] = .unwritten := by
  rcases List.mem_pair.mp hr with rfl | rfl
  · exact .inl h
  · exact .inr h

theorem exec_of_unwritten_p {i : Instr} {s : State} (hw : i.wellFormed = true) {r : PIdx} (hr : r ∈ pSources i)
    (h : s.p[r] = .unwritten) : exec i s = finish s (.error .unwrittenRegister) := by
  cases i with
  | nop | pld | xld | xst | xli | eldb | ezero | eone => exact absurd hr List.not_mem_nil
  | pst | pnorm | enew =>
    obtain rfl := List.mem_singleton.mp hr
    simp only [exec, execPst, execPnorm, execEnew, readVec_of_unwritten h, Except.error_bind]
  | copy =>
    obtain rfl := List.mem_singleton.mp hr
    simp only [exec, execCopy, readP_of_unwritten h, Except.error_bind]
  | estb | enorm | einv | eord =>
    obtain rfl := List.mem_singleton.mp hr
    simp only [exec, execEstb, execEnorm, execEinv, execEord, elems1_of_unwritten h, Except.error_bind]
  | pdeg | plead | pisz | piso =>
    obtain rfl := List.mem_singleton.mp hr
    exact query_of_unwritten _ _ h
  | padd | psub | pmul =>
    exact rawBinary_of_unwritten _ _ (unwritten_of_mem_pair hr h)
  | eadd | esub | emul | emod =>
    have hab := unwritten_of_mem_pair hr h
    simp only [exec, execEadd, execEsub, execEmul, execEmod, elementBinary_of_unwritten _ _ hab]
  | edivmod d c a b =>
    have hdc : d ≠ c := of_decide_eq_true hw
    have hab := unwritten_of_mem_pair hr h
    simp only [exec, execEdivmod, raiseIf_neg hdc, elems2_of_unwritten hab, Except.ok_bind, Except.error_bind]
  | fnew =>
    obtain rfl := List.mem_singleton.mp hr
    exact execFnew_of_unwritten _ (.inr (.inr h))
  | epow =>
    obtain rfl := List.mem_singleton.mp hr
    exact execEpow_of_unwritten _ (.inl h)

theorem exec_of_unwritten_x {i : Instr} {s : State} {r : XIdx} (hr : r ∈ xSources i) (h : s.x[r] = .unwritten) :
    exec i s = finish s (.error .unwrittenRegister) := by
  cases i with
  | xst =>
    obtain rfl := List.mem_singleton.mp hr
    simp only [exec, execXst, readX_of_unwritten h, Except.error_bind]
  | fnew _ a b =>
    exact execFnew_of_unwritten _ ((List.mem_pair.mp hr).elim (fun e => .inl (e ▸ h)) fun e => .inr (.inl (e ▸ h)))
  | epow =>
    obtain rfl := List.mem_singleton.mp hr
    exact execEpow_of_unwritten _ (.inr h)
  | _ => exact absurd hr List.not_mem_nil

/-- The fault taken is the first one. -/
theorem takeFault_eq_faulted {s : State} (hf : s.fault = false) (c : Cause) : s.takeFault c = faulted s c.code := by
  simp [State.takeFault, faulted, hf, State.commandWord]

/-- Settles O39: every source is read before any other check, and only a soft reset writes `unwritten`. -/
theorem unwrittenRegistersFault : Obligations.UnwrittenRegistersFault := by
  refine ⟨fun i s hw hf h => ?_, fun s t h hr => step_keeps_written h hr⟩
  have raised : exec i s = finish s (.error .unwrittenRegister) := by
    rcases h with ⟨r, hr, h⟩ | ⟨r, hr, h⟩
    · exact exec_of_unwritten_p hw hr h
    · exact exec_of_unwritten_x hr h
  rw [raised, finish_error, takeFault_eq_faulted hf]
  rfl

/-! ### The host's accesses to the CSRs -/

/-- Settles O51: the push by the fault flag and the room in the queue. -/
theorem hostPushesCommands : Obligations.HostPushesCommands := by
  intro s w ts ht
  refine ⟨fun hf => ?_, fun hf hl => ?_, fun hf hl hq => ?_⟩
  · rw [step_of_host ht (by simp [State.holds, hf])]
    exact congrArg Host.Outcome.next (if_pos hf)
  · rw [step_of_host ht (by simp [State.holds, hl])]
    simp only [State.hostStep, csrAt, State.writeCsr, State.pushCommand, hf, Bool.false_eq_true, if_false]
  · rw [step_of_held ht (holds_of_heldWhileBusy hf hq ⟨rfl, hl⟩)]
    exact engineStep_unqueues hf hq

/-- Exactly the offsets 0 to 7 are registers (R31). -/
theorem csrAt_of_ge {k : Nat} (h : 8 ≤ k) : csrAt k = none := by
  obtain ⟨n, rfl⟩ := Nat.exists_eq_add_of_le' h
  rfl

theorem csrAt_readOnly {k : Nat} (h3 : 3 ≤ k) (h7 : k ≤ 7) :
    ∃ c, csrAt k = some c ∧ ∀ (s : State) (w : Word), s.writeCsr c w = s := by
  interval_cases k
  · exact ⟨.ecode, rfl, fun _ _ => rfl⟩
  · exact ⟨.ecmd, rfl, fun _ _ => rfl⟩
  · exact ⟨.eseq, rfl, fun _ _ => rfl⟩
  · exact ⟨.cseq, rfl, fun _ _ => rfl⟩
  · exact ⟨.param, rfl, fun _ _ => rfl⟩

theorem writeStatus_eq (s : State) (w : Word) : s.writeStatus w = { s with done := s.done && !w.getLsbD 2 } := by
  cases hw : w.getLsbD 2
  · simp only [State.writeStatus, hw, Bool.false_eq_true, if_false, Bool.not_false, Bool.and_true]
  · simp only [State.writeStatus, hw, if_true, Bool.not_true, Bool.and_false]

/-- Settles O52: one case per CSR, and none at 8 or above. -/
theorem hostWritesCsrs : Obligations.HostWritesCsrs := by
  intro s k w ts ht
  refine ⟨fun hk => ?_, fun hk hw => ?_, fun h3 h7 => ?_, fun h8 => ?_⟩
  · subst hk
    rw [step_of_host ht (holds_writeCsr_of_ne_zero s (by decide) w)]
    exact congrArg Host.Outcome.next (writeStatus_eq { s with turns := ts } w)
  · subst hk
    rw [step_of_host ht (holds_writeCsr_of_ne_zero s (by decide) w)]
    simp only [State.hostStep, csrAt, State.writeCsr, State.writeCtrl, hw, Bool.false_eq_true, if_false]
  · obtain ⟨c, hc, keep⟩ := csrAt_readOnly h3 h7
    rw [step_of_host ht (holds_writeCsr_of_ne_zero s (by omega) w)]
    simp only [State.hostStep, hc, keep]
    rfl
  · rw [step_of_host ht (holds_writeCsr_of_ne_zero s (by omega) w)]
    simp only [State.hostStep, csrAt_of_ge h8]

theorem getLsbD_bitAt (i : Nat) (b : Bool) (j : Nat) :
    (bitAt i b).getLsbD j = (b && decide (j < 32) && decide (j = i)) := by
  cases b with
  | false => simp [bitAt]
  | true =>
    simp only [bitAt, if_true, BitVec.getLsbD_shiftLeft, BitVec.getLsbD_one, Bool.true_and, ← Bool.decide_and,
      ← decide_not, decide_eq_decide]
    omega

/-- Bit 0 is `BUSY`, bit 1 `FAULT`, bit 2 `DONE`, the rest 0 (R33). -/
theorem statusWord_bits (s : State) :
    (s.statusWord.getLsbD 0 = true ↔ s.q ≠ []) ∧ s.statusWord.getLsbD 1 = s.fault ∧ s.statusWord.getLsbD 2 = s.done ∧
      ∀ i, 3 ≤ i → s.statusWord.getLsbD i = false := by
  simp only [State.statusWord, BitVec.getLsbD_or, getLsbD_bitAt]
  refine ⟨by simp [State.busy], by simp, by simp, fun i hi => ?_⟩
  have h : i ≠ 0 ∧ i ≠ 1 ∧ i ≠ 2 := by omega
  simp [h]

/-- Bit 0 is `FIE`, bit 1 `DIE`, the rest 0 (R34). -/
theorem ctrlWord_bits (s : State) :
    s.ctrlWord.getLsbD 0 = s.fie ∧ s.ctrlWord.getLsbD 1 = s.die ∧ ∀ i, 2 ≤ i → s.ctrlWord.getLsbD i = false := by
  simp only [State.ctrlWord, BitVec.getLsbD_or, getLsbD_bitAt]
  refine ⟨by simp, by simp, fun i hi => ?_⟩
  have h : i ≠ 0 ∧ i ≠ 1 := by omega
  simp [h]

theorem toNat_ecodeWord (s : State) : s.ecodeWord.toNat = s.ecode.toNat := by
  have := s.ecode.isLt
  rw [State.ecodeWord, BitVec.toNat_setWidth, Nat.mod_eq_of_lt (by omega)]

/-- The fields of PARAM do not overlap (R39). -/
theorem paramWord_fields (c : Config) :
    (Config.paramWord c).toNat % 2 ^ 8 = 16 ∧ (Config.paramWord c).toNat / 2 ^ 8 % 2 ^ 8 = 16 ∧
      (Config.paramWord c).toNat / 2 ^ 16 % 2 ^ 4 = 4 ∧
      (c.maxLen ≤ 4096 → (Config.paramWord c).toNat / 2 ^ 20 = c.maxLen - 1) ∧
      (4096 < c.maxLen → (Config.paramWord c).toNat / 2 ^ 20 = 0xFFF) := by
  have key : ∃ l, l ≤ 0xFFF ∧ (Config.paramWord c).toNat = 16 + 16 * 2 ^ 8 + 4 * 2 ^ 16 + l * 2 ^ 20 ∧
      (c.maxLen ≤ 4096 → l = c.maxLen - 1) ∧ (4096 < c.maxLen → l = 0xFFF) := by
    refine ⟨if c.maxLen ≤ 4096 then c.maxLen - 1 else 0xFFF, by split <;> omega, ?_, fun h => if_pos h,
      fun h => if_neg (by omega)⟩
    simp only [Config.paramWord, Config.numP, Config.numX, Config.numF, BitVec.toNat_ofNat]
    split <;> omega
  obtain ⟨l, hl, hw, hle, hgt⟩ := key
  rw [hw]
  exact ⟨by omega, by omega, by omega, fun h => by have := hle h; omega, fun h => by have := hgt h; omega⟩

theorem step_readCsr {s : State} {k : Nat} {ts : List Turn} {c : Csr} (ht : s.turns = .host (.readCsr k) :: ts)
    (hc : csrAt k = some c) : step s = .next { s with turns := ts, busRead := some (s.readCsr c) } := by
  rw [step_of_host ht rfl, State.hostStep, hc]
  cases c <;> rfl

/-- Settles O53: one word per CSR. -/
theorem hostReadsCsrs : Obligations.HostReadsCsrs := by
  intro s k ts ht hk
  interval_cases k
  · exact ⟨_, step_readCsr ht rfl, by simp [State.readCsr]⟩
  · exact ⟨_, step_readCsr ht rfl, by simpa [State.readCsr] using statusWord_bits s⟩
  · exact ⟨_, step_readCsr ht rfl, by simpa [State.readCsr] using ctrlWord_bits s⟩
  · exact ⟨_, step_readCsr ht rfl, by simp [State.readCsr, toNat_ecodeWord]⟩
  · exact ⟨_, step_readCsr ht rfl, by simp [State.readCsr]⟩
  · exact ⟨_, step_readCsr ht rfl, by simp [State.readCsr]⟩
  · exact ⟨_, step_readCsr ht rfl, by simp [State.readCsr]⟩
  · exact ⟨_, step_readCsr ht rfl, by simpa [State.readCsr] using paramWord_fields s.cfg⟩

end Sys2Proof.Machine

/-! PROOFS. Every value a command writes fits its register, so the element invariant of spec/10_state.md R28 is kept; and
what holds right after a reset (R27, R43). -/

namespace Sys2Proof.Machine

open Sys2Proof.Claims

/-! ### What a computation answers -/

/-- Whatever the computation answers has the property; a fault has nothing to show. -/
structure Answers {α : Type} (x : Except Cause α) (P : α → Prop) : Prop where
  answered : ∀ a, x = .ok a → P a

theorem answers_ok {α : Type} {P : α → Prop} {a : α} (h : P a) : Answers (.ok a) P :=
  ⟨fun _ e => by cases e; exact h⟩

theorem answers_error {α : Type} {P : α → Prop} (c : Cause) : Answers (.error c : Except Cause α) P :=
  ⟨fun _ e => by cases e⟩

theorem answers_bind {α β : Type} {x : Except Cause α} {f : α → Except Cause β} {P : α → Prop} {Q : β → Prop}
    (hx : Answers x P) (hf : ∀ a, P a → Answers (f a) Q) : Answers (x >>= f) Q :=
  ⟨fun b h => by
    obtain ⟨a, ha, hb⟩ := Except.bind_eq_ok.mp h
    exact (hf a (hx.answered a ha)).answered b hb⟩

theorem answers_raiseIf (p : Prop) [Decidable p] (c : Cause) : Answers (raiseIf p c) fun _ => ¬ p :=
  ⟨fun _ => raiseIf_eq_ok.mp⟩

theorem answers_checkAddr (s : State) (a : Nat) : Answers (s.checkAddr a) fun _ => a < s.cfg.memWords :=
  ⟨fun _ => checkAddr_eq_ok.mp⟩

theorem answers_readP (s : State) (i : PIdx) : Answers (s.readP i) fun r => s.p[i] = .held r.1 r.2 :=
  ⟨fun _ => readP_eq_ok.mp⟩

/-- Nothing is asked of the answer. -/
theorem answers_any {α : Type} (x : Except Cause α) : Answers x fun _ => True := ⟨fun _ _ => trivial⟩

/-- A command keeps the invariant when the state it has written has it: a fault changes no register and no slot. -/
theorem dataInv_finish {s t : State} {r : Except Cause State} (h : DataInv s) (hr : Answers r DataInv)
    (ht : finish s r = .next t) : DataInv t := by
  rcases finish_eq_next.mp ht with ⟨u, hu, rfl⟩ | ⟨c, _, rfl⟩
  · exact dataInv_complete (hr.answered u hu)
  · exact dataInv_takeFault h c

/-! ### Operands under the invariant -/

/-- `v` is an element of the field in slot `f`, if there is one. -/
abbrev ElementOf (s : State) (f : FIdx) (v : Vec) : Prop := ∀ fd, s.f[f] = .valid fd → IsElement fd v

section Operands

variable {s : State} (h : DataInv s)

include h

theorem fits_register {i : PIdx} {tag : Option FIdx} {v : Vec} (hi : s.p[i] = .held tag v) : Fits s tag v :=
  ⟨h.vectors i tag v hi, fun f e => h.elements i f v (e ▸ hi)⟩

theorem elementOf_register {i : PIdx} {f : FIdx} {v : Vec} (hi : s.p[i] = .held (some f) v) : ElementOf s f v :=
  fun fd hf => by
    obtain ⟨fd', hf', hv⟩ := h.elements i f v hi
    rw [hf] at hf'
    cases hf'
    exact hv

theorem answers_readVec (i : PIdx) : Answers (s.readVec i) (VectorOk s.cfg) :=
  ⟨fun _ hr => by
    obtain ⟨tag, hi⟩ := readVec_eq_ok.mp hr
    exact h.vectors i tag _ hi⟩

theorem answers_readX (i : XIdx) : Answers (s.readX i) InRange :=
  ⟨fun k hr => h.scalars i k (readX_eq_ok.mp hr)⟩

theorem answers_readF (f : FIdx) : Answers (s.readF f) fun fd => s.f[f] = .valid fd ∧ FieldOk s.cfg fd :=
  ⟨fun fd hr => ⟨readF_eq_ok.mp hr, h.fields f fd (readF_eq_ok.mp hr)⟩⟩

theorem answers_elems1 (a : PIdx) : Answers (s.elems1 a) fun e => ElementOf s e.1 e.2 :=
  ⟨fun _ hr => elementOf_register h (elems1_eq_ok.mp hr)⟩

theorem answers_elems2 (a b : PIdx) :
    Answers (s.elems2 a b) fun e => ElementOf s e.1 e.2.1 ∧ ElementOf s e.1 e.2.2 :=
  ⟨fun _ hr => by
    obtain ⟨ha, hb⟩ := elems2_eq_ok.mp hr
    exact ⟨elementOf_register h ha, elementOf_register h hb⟩⟩

/-- Writing an element of a valid slot keeps the invariant. -/
theorem dataInv_writeElement (d : PIdx) {f : FIdx} {fd : FieldRec} (hf : s.f[f] = .valid fd) {v : Vec}
    (hv : IsElement fd v) : DataInv (s.writeP d (some f) v) :=
  dataInv_writeP h d (fits_element h hf hv)

end Operands

/-! ### Scalars and raw polynomials -/

theorem inRange_iff {k : Int} : InRange k ↔ -2147483648 ≤ k ∧ k ≤ 2147483647 := Iff.rfl

theorem s32_inRange (w : Word) : InRange (s32 w) := by
  have := BitVec.le_toInt w
  have := BitVec.toInt_lt (x := w)
  rw [inRange_iff, s32]
  omega

theorem co_inRange {v : Vec} (h : ∀ k ∈ v, InRange k) (i : Nat) : InRange (co v i) := by
  rcases Nat.lt_or_ge i v.length with hi | hi
  · exact h _ (co_mem hi)
  · rw [co_of_length_le hi]
    decide

theorem VectorOk.ne_nil {c : Config} {v : Vec} (h : VectorOk c v) : v ≠ [] := List.length_pos_iff.mp h.1

theorem VectorOk.degree_lt {c : Config} {v : Vec} (h : VectorOk c v) : degree v < c.maxLen :=
  lt_of_lt_of_le (degree_lt_length h.ne_nil) h.2.1

theorem VectorOk.degree_inRange {c : Config} (hc : c.Admissible) {v : Vec} (h : VectorOk c v) :
    InRange (degree v : Int) := by
  obtain ⟨_, hm, _⟩ := hc
  have := h.degree_lt
  rw [inRange_iff]
  omega

theorem bit_inRange (b : Bool) : InRange (if b then 1 else 0) := by cases b <;> decide

theorem vectorOk_trim {c : Config} {v : Vec} (h : VectorOk c v) : VectorOk c (trim v) :=
  ⟨by rw [length_trim h.ne_nil]; omega, (length_trim_le v).trans h.2.1, fun k hk => h.2.2 k (mem_of_mem_trim hk)⟩

theorem vectorOk_loadCoeffs {c : Config} (m : Memory) (a : Nat) {len : Nat} (h1 : 1 ≤ len) (h2 : len ≤ c.maxLen) :
    VectorOk c (loadCoeffs m a len) := by
  have hl : (loadCoeffs m a len).length = len := by simp [loadCoeffs, Memory.readList]
  refine ⟨hl.symm ▸ h1, hl.symm ▸ h2, fun k hk => ?_⟩
  obtain ⟨w, _, rfl⟩ := List.mem_map.mp hk
  exact s32_inRange w

/-- A result of an admissible length whose coefficients were checked fits a register (R120). -/
theorem answers_rangeChecked {c : Config} {r : Vec} (h1 : 1 ≤ r.length) (h2 : r.length ≤ c.maxLen) :
    Answers (rangeChecked r) (VectorOk c) :=
  ⟨fun r' hr => by
    obtain ⟨hk, rfl⟩ := rangeChecked_eq_ok.mp hr
    exact ⟨h1, h2, hk⟩⟩

theorem answers_padd {c : Config} {u w : Vec} (hu : VectorOk c u) (hw : VectorOk c w) :
    Answers (padd u w) (VectorOk c) := by
  have := hu.degree_lt
  have := hw.degree_lt
  exact answers_rangeChecked (by rw [length_sumVec]; omega) (by rw [length_sumVec]; omega)

theorem answers_psub {c : Config} {u w : Vec} (hu : VectorOk c u) (hw : VectorOk c w) :
    Answers (psub u w) (VectorOk c) := by
  have := hu.degree_lt
  have := hw.degree_lt
  exact answers_bind (answers_rangeChecked (by rw [length_diffVec]; omega) (by rw [length_diffVec]; omega))
    fun _ hr => answers_ok (vectorOk_trim hr)

theorem answers_pmul {c : Config} (hc : 1 ≤ c.maxLen) (u w : Vec) : Answers (pmul c.maxLen u w) (VectorOk c) := by
  unfold pmul
  split
  · exact answers_ok ⟨le_rfl, hc, fun k hk => by rw [List.mem_singleton.mp hk]; decide⟩
  · split
    · exact answers_error _
    · have := length_pmulExact_le u w
      exact answers_rangeChecked (length_pos_of_ne_nil (pmulExact_ne_nil u w)) (by omega)

/-! ### Fields and elements -/

/-- What FNEW stores is a field record (R25, R133, R135). -/
theorem fieldOk_mkField {c : Config} {p n : Int} {m : Vec} (hm : VectorOk c m) (hp : 2 ≤ p) (hp' : p ≤ intMax)
    (hn : 1 ≤ n) (hd : (degree m : Int) = n) (hz : iszero (enorm p m) = false) (hd' : (degree (enorm p m) : Int) = n) :
    FieldOk c (mkField p n.toNat (enorm p m)) := by
  have hlt := hm.degree_lt
  have hl := (trimmed_enorm p hm.ne_nil).length_eq
  have hdn : degree (enorm p m) = n.toNat := by omega
  refine ⟨⟨hp, ?_, ?_, reduced_enorm hp m, ?_⟩, hp', ?_, rfl⟩
  · change 1 ≤ n.toNat
    omega
  · rw [← hdn]
    exact hl
  · rw [← hdn]
    exact lead_ne_zero hz
  · change n.toNat + 1 ≤ c.maxLen
    omega

/-- A packed byte is an element of every field with the packed format (R56). -/
theorem isElement_byteElement {fd : FieldRec} (h : fd.IsByteField) (w : Word) : IsElement fd (byteElement w) := by
  obtain ⟨hp, hn⟩ := h
  have hl := length_trim_le ((List.range 8).map fun i => if w.getLsbD i then (1 : Int) else 0)
  refine ⟨trimmed_trim (by simp), fun c hc => ?_, ?_⟩
  · obtain ⟨i, _, rfl⟩ := List.mem_map.mp (mem_of_mem_trim hc)
    rw [hp]
    split <;> decide
  · rw [List.length_map, List.length_range] at hl
    rw [hn]
    exact hl.trans (by decide)

theorem answers_emul {fd : FieldRec} (hf : IsField fd) (u w : Vec) : Answers (emul fd u w) (IsElement fd) :=
  ⟨fun _ h => (emul_ok hf h).isElement⟩

theorem answers_divmod {fd : FieldRec} (hf : IsField fd) {u w : Vec} (hu : IsElement fd u) (hw : IsElement fd w) :
    Answers (divmod fd u w) fun qr => IsElement fd qr.1 ∧ IsElement fd qr.2 :=
  ⟨fun _ h => isElement_divmod hf.1 hu hw h⟩

theorem answers_epow {fd : FieldRec} (hf : IsField fd) (ord : Int) (u : Vec) (e : Int) :
    Answers (epow fd ord u e) (IsElement fd) := by
  have hp := hf.1
  exact ⟨fun _ h => isElement_epowLoop hf _ (isElement_singleton (by omega) (by omega)) h⟩

/-- The order of a slot is below `INT_MAX` (R25). -/
theorem answers_slotOrder {fd : FieldRec} (h : OrderOk fd) : Answers (slotOrder fd) fun k => k < intMax := by
  refine ⟨fun k hk => ?_⟩
  unfold slotOrder at hk
  unfold OrderOk at h
  split at h <;> rw [h] at hk <;> cases hk
  omega

/-- The order of an element is at most that of its field (R184), so a scalar register holds it. -/
theorem answers_eord (fd : FieldRec) {ord : Int} (ho : ord < intMax) (u : Vec) : Answers (eord fd ord u) InRange := by
  unfold eord
  split
  · exact answers_ok (by decide)
  · refine answers_bind (answers_any _) fun r _ => ⟨fun k hk => ?_⟩
    have := eordLoop_bounds ord.toNat 1 hk
    rw [inRange_iff]
    unfold intMax at ho
    omega

/-! ### Every command keeps the invariant -/

section Shapes

variable {s t : State} (h : DataInv s)

include h

theorem query_keeps_dataInv {d : XIdx} {a : PIdx} {f : Vec → Int} (hf : ∀ v, VectorOk s.cfg v → InRange (f v))
    (ht : query d a f s = .next t) : DataInv t :=
  dataInv_finish h (answers_bind (answers_readVec h a) fun v hv => answers_ok (dataInv_writeX h d (hf v hv))) ht

theorem rawBinary_keeps_dataInv {d a b : PIdx} {f : Vec → Vec → Except Cause Vec}
    (hf : ∀ u w, VectorOk s.cfg u → VectorOk s.cfg w → Answers (f u w) (VectorOk s.cfg))
    (ht : rawBinary d a b f s = .next t) : DataInv t :=
  dataInv_finish h
    (answers_bind (answers_readVec h a) fun u hu => answers_bind (answers_readVec h b) fun w hw =>
      answers_bind (hf u w hu hw) fun _ hr => answers_ok (dataInv_writeP h d (fits_raw hr))) ht

theorem elementBinary_keeps_dataInv {d a b : PIdx} {f : FieldRec → Vec → Vec → Except Cause Vec}
    (hf : ∀ fd u w, IsField fd → IsElement fd u → IsElement fd w → Answers (f fd u w) (IsElement fd))
    (ht : elementBinary d a b f s = .next t) : DataInv t :=
  dataInv_finish h
    (answers_bind (answers_elems2 h a b) fun ⟨f', u, w⟩ ⟨hu, hw⟩ => answers_bind (answers_readF h f') fun fd ⟨hv, hfd⟩ =>
      answers_bind (hf fd u w hfd.1 (hu fd hv) (hw fd hv)) fun _ hr => answers_ok (dataInv_writeElement h d hv hr)) ht

/-- An identity of R136 and R137: a constant 0 or 1 written with the tag of a valid slot. -/
theorem identity_keeps_dataInv {d : PIdx} {f : FIdx} {c : Int} (h0 : 0 ≤ c) (h1 : c ≤ 1)
    (ht : (finish s do let _ ← s.readF f; return s.writeP d (some f) [c]) = .next t) : DataInv t :=
  dataInv_finish h
    (answers_bind (answers_readF h f) fun fd ⟨hv, hfd⟩ => by
      have hp : 2 ≤ fd.p := hfd.1.1
      exact answers_ok (dataInv_writeElement h d hv (isElement_singleton h0 (by omega)))) ht

theorem execPld_keeps_dataInv {d : PIdx} {addr : Imm} (ht : execPld d addr s = .next t) : DataInv t := by
  refine dataInv_finish h ?_ ht
  refine answers_bind (answers_checkAddr s _) fun _ _ => answers_bind (answers_raiseIf _ _) fun _ hl =>
    answers_bind (answers_checkAddr s _) fun _ _ => answers_ok (dataInv_writeP h d (fits_raw ?_))
  exact vectorOk_loadCoeffs _ _ (by omega) (by omega)

theorem execEldb_keeps_dataInv {d : PIdx} {f : FIdx} {addr : Imm} (ht : execEldb d f addr s = .next t) : DataInv t :=
  dataInv_finish h
    (answers_bind (answers_readF h f) fun _ ⟨hv, _⟩ => answers_bind (answers_raiseIf _ _) fun _ hb =>
      answers_bind (answers_checkAddr s _) fun _ _ => answers_bind (answers_raiseIf _ _) fun _ _ =>
      answers_ok (dataInv_writeElement h d hv (isElement_byteElement (not_not.mp hb) _))) ht

theorem execFnew_keeps_dataInv {d : FIdx} {a b : XIdx} {c : PIdx} (ht : execFnew d a b c s = .next t) : DataInv t := by
  refine dataInv_finish h ?_ ht
  refine answers_bind (answers_readX h a) fun p hp => answers_bind (answers_readX h b) fun n _ =>
    answers_bind (answers_readVec h c) fun m hm => answers_bind (answers_raiseIf _ _) fun _ hs =>
    answers_bind (answers_raiseIf _ _) fun _ hp2 => answers_bind (answers_raiseIf _ _) fun _ hn =>
    answers_bind (answers_raiseIf _ _) fun _ hmod => answers_ok (dataInv_writeF h d (not_not.mp hs) ?_)
  obtain ⟨hn1, hdeg⟩ := not_or.mp hn
  obtain ⟨hz, hdeg'⟩ := not_or.mp hmod
  exact fieldOk_mkField hm (not_lt.mp hp2) hp.2 (not_lt.mp hn1) (not_not.mp hdeg) (Bool.not_eq_true _ ▸ hz)
    (not_not.mp hdeg')

theorem execEnew_keeps_dataInv {d a : PIdx} {b : FIdx} (ht : execEnew d a b s = .next t) : DataInv t :=
  dataInv_finish h
    (answers_bind (answers_readVec h a) fun _ hv => answers_bind (answers_readF h b) fun _ ⟨hb, hfd⟩ =>
      answers_bind (answers_raiseIf _ _) fun _ hd => answers_ok (dataInv_writeElement h d hb
        (isElement_enorm hfd.1.1 hv.ne_nil fun _ hi => co_of_degree_lt (lt_of_le_of_lt (not_lt.mp hd) hi)))) ht

theorem execEnorm_keeps_dataInv {d a : PIdx} (ht : execEnorm d a s = .next t) : DataInv t :=
  dataInv_finish h
    (answers_bind (answers_elems1 h a) fun ⟨f, _⟩ hv => answers_bind (answers_readF h f) fun fd ⟨hf, hfd⟩ =>
      have he := hv fd hf
      answers_ok (dataInv_writeElement h d hf (isElement_enorm hfd.1.1 he.1.1 fun _ hi => he.co_eq_zero hi))) ht

theorem execEdivmod_keeps_dataInv {d c a b : PIdx} (ht : execEdivmod d c a b s = .next t) : DataInv t :=
  dataInv_finish h
    (answers_bind (answers_raiseIf _ _) fun _ _ => answers_bind (answers_elems2 h a b) fun ⟨f, _, _⟩ ⟨hu, hw⟩ =>
      answers_bind (answers_readF h f) fun fd ⟨hf, hfd⟩ =>
      answers_bind (answers_divmod hfd.1 (hu fd hf) (hw fd hf)) fun _ ⟨hq, hr⟩ =>
      answers_ok (dataInv_writeElement (dataInv_writeElement h d hf hq) c hf hr)) ht

theorem execEinv_keeps_dataInv {d a : PIdx} (ht : execEinv d a s = .next t) : DataInv t :=
  dataInv_finish h
    (answers_bind (answers_elems1 h a) fun ⟨f, _⟩ _ => answers_bind (answers_readF h f) fun _ ⟨hf, hfd⟩ =>
      answers_bind ⟨fun _ => isElement_einv hfd.1⟩ fun _ hr => answers_ok (dataInv_writeElement h d hf hr)) ht

theorem execEpow_keeps_dataInv {d a : PIdx} {b : XIdx} (ht : execEpow d a b s = .next t) : DataInv t :=
  dataInv_finish h
    (answers_bind (answers_readP s a) fun ⟨_, _⟩ _ => answers_bind (answers_readX h b) fun _ _ =>
      answers_bind (answers_any _) fun f _ => answers_bind (answers_readF h f) fun _ ⟨hf, hfd⟩ =>
      answers_bind (answers_any _) fun _ _ => answers_bind (answers_epow hfd.1 _ _ _) fun _ hr =>
      answers_ok (dataInv_writeElement h d hf hr)) ht

theorem execEord_keeps_dataInv {d : XIdx} {a : PIdx} (ht : execEord d a s = .next t) : DataInv t :=
  dataInv_finish h
    (answers_bind (answers_elems1 h a) fun ⟨f, _⟩ _ => answers_bind (answers_readF h f) fun fd ⟨_, _, _, _, ho⟩ =>
      answers_bind (answers_slotOrder ho) fun _ hk => answers_bind (answers_eord fd hk _) fun _ hr =>
      answers_ok (dataInv_writeX h d hr)) ht

theorem exec_keeps_dataInv {i : Instr} (ht : exec i s = .next t) : DataInv t := by
  cases i with
  | nop => exact dataInv_finish h (answers_ok h) ht
  | pld => exact execPld_keeps_dataInv h ht
  | pst d =>
    exact dataInv_finish h (answers_bind (answers_readVec h d) fun _ _ => answers_bind (answers_checkAddr s _) fun _ _ =>
      answers_ok (dataInv_store h _ _)) ht
  | xst d =>
    exact dataInv_finish h (answers_bind (answers_readX h d) fun _ _ => answers_bind (answers_checkAddr s _) fun _ _ =>
      answers_ok (dataInv_store h _ _)) ht
  | estb d =>
    exact dataInv_finish h (answers_bind (answers_elems1 h d) fun ⟨f, _⟩ _ => answers_bind (answers_readF h f) fun _ _ =>
      answers_bind (answers_raiseIf _ _) fun _ _ => answers_bind (answers_raiseIf _ _) fun _ _ =>
      answers_bind (answers_checkAddr s _) fun _ _ => answers_ok (dataInv_store h _ _)) ht
  | xld =>
    exact dataInv_finish h (answers_bind (answers_checkAddr s _) fun _ _ =>
      answers_ok (dataInv_writeX h _ (s32_inRange _))) ht
  | xli => exact dataInv_finish h (answers_ok (dataInv_writeX h _ (s32_inRange _))) ht
  | eldb => exact execEldb_keeps_dataInv h ht
  | copy _ a =>
    exact dataInv_finish h (answers_bind (answers_readP s a) fun ⟨_, _⟩ ha =>
      answers_ok (dataInv_writeP h _ (fits_register h ha))) ht
  | pdeg => exact query_keeps_dataInv h (fun _ hv => hv.degree_inRange h.cfg) ht
  | plead => exact query_keeps_dataInv h (fun _ hv => co_inRange hv.2.2 _) ht
  | pisz | piso => exact query_keeps_dataInv h (fun _ _ => bit_inRange _) ht
  | pnorm _ a =>
    exact dataInv_finish h (answers_bind (answers_readVec h a) fun _ hv =>
      answers_ok (dataInv_writeP h _ (fits_raw (vectorOk_trim hv)))) ht
  | padd => exact rawBinary_keeps_dataInv h (fun _ _ => answers_padd) ht
  | psub => exact rawBinary_keeps_dataInv h (fun _ _ => answers_psub) ht
  | pmul =>
    have hc : 1 ≤ s.cfg.maxLen := le_trans (by decide) h.cfg.1
    exact rawBinary_keeps_dataInv h (fun u w _ _ => answers_pmul hc u w) ht
  | fnew => exact execFnew_keeps_dataInv h ht
  | ezero => exact identity_keeps_dataInv h le_rfl zero_le_one ht
  | eone => exact identity_keeps_dataInv h zero_le_one le_rfl ht
  | enew => exact execEnew_keeps_dataInv h ht
  | enorm => exact execEnorm_keeps_dataInv h ht
  | eadd => exact elementBinary_keeps_dataInv h (fun _ _ _ hf hu hw => answers_ok (isElement_eadd hf.1 hu hw)) ht
  | esub => exact elementBinary_keeps_dataInv h (fun _ _ _ hf hu hw => answers_ok (isElement_esub hf.1 hu hw)) ht
  | emul => exact elementBinary_keeps_dataInv h (fun _ u w hf _ _ => answers_emul hf u w) ht
  | edivmod => exact execEdivmod_keeps_dataInv h ht
  | emod =>
    exact elementBinary_keeps_dataInv h (fun _ _ _ hf hu hw =>
      answers_bind (answers_divmod hf hu hw) fun _ hqr => answers_ok hqr.2) ht
  | einv => exact execEinv_keeps_dataInv h ht
  | epow => exact execEpow_keeps_dataInv h ht
  | eord => exact execEord_keeps_dataInv h ht

end Shapes

/-! ### Reset -/

theorem resetWith_p (cfg : Config) (m : Memory) (j : PIdx) : (State.resetWith cfg m).p[j] = .unwritten := by
  rw [State.resetWith, Fin.getElem_fin, Vector.getElem_replicate]

theorem resetWith_x (cfg : Config) (m : Memory) (j : XIdx) : (State.resetWith cfg m).x[j] = .unwritten := by
  rw [State.resetWith, Fin.getElem_fin, Vector.getElem_replicate]

/-- F0 is the AES field (R27), the other slots are invalid. -/
theorem resetWith_f (cfg : Config) (m : Memory) (j : FIdx) :
    (State.resetWith cfg m).f[j] = if j = 0 then .valid aesField else .invalid := by
  revert j
  change ∀ j : FIdx, ((Vector.replicate 4 FSlot.invalid).set 0 (.valid aesField))[j] = _
  decide

/-- The AES field fits every admissible register file: its modulus has nine coefficients. -/
theorem fieldOk_aesField {c : Config} (hc : c.Admissible) : FieldOk c aesField :=
  ⟨by decide, by decide, hc.1, by decide⟩

/-- The invariant speaks of the parameters, the registers and the slots. -/
theorem dataInv_of_eq {s t : State} (h : DataInv s) (hc : t.cfg = s.cfg) (hp : t.p = s.p) (hx : t.x = s.x)
    (hf : t.f = s.f) : DataInv t where
  cfg := by rw [hc]; exact h.cfg
  vectors := by rw [hc, hp]; exact h.vectors
  elements := by rw [hp, hf]; exact h.elements
  scalars := by rw [hx]; exact h.scalars
  fields := by rw [hc, hf]; exact h.fields
  aes := by rw [hf]; exact h.aes

theorem dataInv_resetWith {cfg : Config} (hc : cfg.Admissible) (m : Memory) : DataInv (State.resetWith cfg m) where
  cfg := hc
  vectors := fun i _ _ h => absurd ((resetWith_p cfg m i).symm.trans h) nofun
  elements := fun i _ _ h => absurd ((resetWith_p cfg m i).symm.trans h) nofun
  scalars := fun i _ h => absurd ((resetWith_x cfg m i).symm.trans h) nofun
  fields := fun f fd h => by
    rw [resetWith_f] at h
    split at h
    · cases h
      exact fieldOk_aesField hc
    · cases h
  aes := resetWith_f cfg m 0

/-- Settles O47, by the cases of a step: a command writes values that fit, a soft reset leaves only the AES field, and no
other step touches a register or a slot. -/
theorem stepKeepsDataInv : Obligations.StepKeepsDataInv := by
  intro s t hs h
  cases step_eq_next h with
  | command ts w rest i _ _ _ h =>
    exact exec_keeps_dataInv (s := { s with turns := ts }) (dataInv_of_eq hs rfl rfl rfl rfl) h
  | reset ts w _ _ h =>
    subst h
    exact dataInv_of_eq (dataInv_resetWith hs.cfg s.omem) rfl rfl rfl rfl
  | illegal _ _ _ _ _ _ _ h | quiet _ _ h | push _ _ _ _ h | ack _ h | enables _ _ _ h | store _ _ _ _ _ h =>
    subst h
    exact dataInv_of_eq hs rfl rfl rfl rfl

/-- Settles O48: the three invariants read off the reset values. -/
theorem invariantsHoldAtReset : Obligations.InvariantsHoldAtReset := by
  have all (cfg : Config) (m : Memory) (hc : cfg.Admissible) (hm : Memory.wf m = true)
      (hi : ∀ e ∈ m, e.1 < cfg.memWords) :
      MemoryInv (State.resetWith cfg m) ∧ ControlInv (State.resetWith cfg m) ∧ DataInv (State.resetWith cfg m) :=
    ⟨⟨hm, hi⟩, controlInv_resetWith cfg m, dataInv_resetWith hc m⟩
  exact ⟨all, all Config.standard [] (by decide) rfl nofun⟩

/-- Settles O49: both resets are `State.resetWith` but for OMEM. -/
theorem resetValues : Obligations.ResetValues := by
  intro s m t ht
  have hf (cfg : Config) (m : Memory) (j : FIdx) (hj : j ≠ 0) : (State.resetWith cfg m).f[j] = .invalid := by
    rw [resetWith_f, if_neg hj]
  rcases ht with rfl | rfl <;>
    exact ⟨resetWith_p s.cfg m, resetWith_x s.cfg m, resetWith_f s.cfg m 0, hf s.cfg m,
      rfl, rfl, rfl, rfl, rfl, rfl, rfl, rfl, rfl, rfl, rfl, rfl⟩

end Sys2Proof.Machine

/-! PROOFS. What a command and the host do to OMEM, and that no other command sees it (spec/20_memory.md R50, R58,
R60). -/

namespace Sys2Proof.Machine

open Sys2Proof.Claims

/-! ### Commands that do not see OMEM -/

/-- A sequence whose first part is the same over both contents of OMEM follows its second part. -/
theorem Except.bind_eq_map_bind {ε α β γ : Type} {x : Except ε α} {f' : α → Except ε γ} {f : α → Except ε β}
    {g : β → γ} (h : ∀ a, f' a = (f a).map g) : (x >>= f') = (x >>= f).map g := by
  cases x with
  | ok a => exact h a
  | error e => rfl

/-- A computation that carries another OMEM along ends the command in the same next state but for that OMEM. -/
theorem finish_withOmem {s t : State} {m : Memory} {r' r : Except Cause State} (hr : r' = r.map (withOmem · m))
    (h : finish s r = .next t) : finish (withOmem s m) r' = .next (withOmem t m) := by
  subst hr
  cases r with
  | ok u => cases h; rfl
  | error c => cases h; rfl

theorem query_withOmem {d : XIdx} {a : PIdx} {f : Vec → Int} {s t : State} (m : Memory)
    (h : query d a f s = .next t) : query d a f (withOmem s m) = .next (withOmem t m) :=
  finish_withOmem (Except.bind_eq_map_bind fun _ => rfl) h

theorem rawBinary_withOmem {d a b : PIdx} {f : Vec → Vec → Except Cause Vec} {s t : State} (m : Memory)
    (h : rawBinary d a b f s = .next t) : rawBinary d a b f (withOmem s m) = .next (withOmem t m) :=
  finish_withOmem (Except.bind_eq_map_bind fun _ => Except.bind_eq_map_bind fun _ =>
    Except.bind_eq_map_bind fun _ => rfl) h

theorem elementBinary_withOmem {d a b : PIdx} {f : FieldRec → Vec → Vec → Except Cause Vec} {s t : State} (m : Memory)
    (h : elementBinary d a b f s = .next t) : elementBinary d a b f (withOmem s m) = .next (withOmem t m) :=
  finish_withOmem (Except.bind_eq_map_bind fun _ => Except.bind_eq_map_bind fun _ =>
    Except.bind_eq_map_bind fun _ => rfl) h

/-- A command that is no memory command reads registers and slots only, so it carries any OMEM along. -/
theorem exec_withOmem {i : Instr} {s t : State} (m : Memory) (hi : usesMemory i = false) (h : exec i s = .next t) :
    exec i (withOmem s m) = .next (withOmem t m) := by
  cases i with
  | pld | pst | xld | xst | eldb | estb => cases hi
  | nop | xli =>
    cases h
    rfl
  | copy => exact finish_withOmem (Except.bind_eq_map_bind fun _ => rfl) h
  | pdeg | plead | pisz | piso => exact query_withOmem m h
  | pnorm | ezero | eone => exact finish_withOmem (Except.bind_eq_map_bind fun _ => rfl) h
  | padd | psub | pmul => exact rawBinary_withOmem m h
  | fnew =>
    exact finish_withOmem (Except.bind_eq_map_bind fun _ => Except.bind_eq_map_bind fun _ =>
      Except.bind_eq_map_bind fun _ => Except.bind_eq_map_bind fun _ => Except.bind_eq_map_bind fun _ =>
      Except.bind_eq_map_bind fun _ => Except.bind_eq_map_bind fun _ => rfl) h
  | enew =>
    exact finish_withOmem (Except.bind_eq_map_bind fun _ => Except.bind_eq_map_bind fun _ =>
      Except.bind_eq_map_bind fun _ => rfl) h
  | enorm => exact finish_withOmem (Except.bind_eq_map_bind fun _ => Except.bind_eq_map_bind fun _ => rfl) h
  | eadd => exact elementBinary_withOmem (f := fun fd u w => .ok (eadd fd u w)) m h
  | esub => exact elementBinary_withOmem (f := fun fd u w => .ok (esub fd u w)) m h
  | emul | emod => exact elementBinary_withOmem m h
  | edivmod =>
    exact finish_withOmem (Except.bind_eq_map_bind fun _ => Except.bind_eq_map_bind fun _ =>
      Except.bind_eq_map_bind fun _ => Except.bind_eq_map_bind fun _ => rfl) h
  | einv =>
    exact finish_withOmem (Except.bind_eq_map_bind fun _ => Except.bind_eq_map_bind fun _ =>
      Except.bind_eq_map_bind fun _ => rfl) h
  | epow =>
    exact finish_withOmem (Except.bind_eq_map_bind fun _ => Except.bind_eq_map_bind fun _ =>
      Except.bind_eq_map_bind fun _ => Except.bind_eq_map_bind fun _ => Except.bind_eq_map_bind fun _ =>
      Except.bind_eq_map_bind fun _ => rfl) h
  | eord =>
    exact finish_withOmem (Except.bind_eq_map_bind fun _ => Except.bind_eq_map_bind fun _ =>
      Except.bind_eq_map_bind fun _ => Except.bind_eq_map_bind fun _ => rfl) h

/-- Carrying the OMEM there is along changes nothing, so the command kept it. -/
theorem exec_keeps_omem {i : Instr} {s t : State} (hi : usesMemory i = false) (h : exec i s = .next t) :
    t.omem = s.omem := by
  have carried : exec i s = .next (withOmem t s.omem) := exec_withOmem s.omem hi h
  have same : t = withOmem t s.omem := Host.Outcome.next.inj (h.symm.trans carried)
  calc t.omem = (withOmem t s.omem).omem := congrArg State.omem same
    _ = s.omem := rfl

/-- Settles O44: a command that is no memory command carries any OMEM along, its own one too. -/
theorem omemDoesNotMatter : Obligations.OmemDoesNotMatter :=
  fun _ _ _ m hi h => ⟨exec_keeps_omem hi h, exec_withOmem m hi h⟩

/-! ### Words a command does not store to -/

theorem Memory.read_writeList_outside {m : Memory} (hm : Memory.wf m = true) {a b : Nat} {ws : List Word}
    (hb : ¬ (a ≤ b ∧ b < a + ws.length)) : Memory.read (Memory.writeList m a ws) b = Memory.read m b := by
  rw [Memory.read_writeList hm, if_neg hb]

/-- XST and ESTB store one word. -/
theorem Memory.read_writeList_singleton {m : Memory} (hm : Memory.wf m = true) {a b : Nat} (w : Word) (hb : b ≠ a) :
    Memory.read (Memory.writeList m a [w]) b = Memory.read m b := by
  refine Memory.read_writeList_outside hm ?_
  rw [List.length_singleton]
  omega

/-- A completed memory command leaves every word it does not store to. -/
theorem Writes.read_frame {s u : State} {i : Instr} (h : Writes s u i) (hi : usesMemory i = true)
    (hm : Memory.wf s.omem = true) {b : Nat} (hb : ¬ StoresTo s b i) :
    Memory.read u.omem b = Memory.read s.omem b := by
  cases i with
  | pld | xld | eldb =>
    obtain ⟨_, rfl⟩ := h
    rfl
  | pst d addr =>
    obtain ⟨tag, v, hv, _, rfl⟩ := h
    refine Memory.read_writeList_outside hm fun ⟨hl, hu⟩ => hb ⟨hl, ?_⟩
    rw [length_vectorWords] at hu
    rw [hv, heldLength]
    omega
  | xst =>
    obtain ⟨_, _, _, rfl⟩ := h
    exact Memory.read_writeList_singleton hm _ hb
  | estb =>
    obtain ⟨_, _, _, _, rfl⟩ := h
    exact Memory.read_writeList_singleton hm _ hb
  | _ => cases hi

/-- Settles O43: only the six memory commands touch OMEM, a completed one stores where `StoresTo` says, and a fault
leaves OMEM alone. -/
theorem frameOfMemory : Obligations.FrameOfMemory := by
  intro i s t hm h b hb
  cases hi : usesMemory i with
  | false => rw [exec_keeps_omem hi h]
  | true =>
    rcases exec_cases h with ⟨u, hu, rfl⟩ | ⟨c, _, rfl⟩
    · exact hu.read_frame hi hm hb
    · rfl

/-! ### The host's accesses to OMEM -/

/-- Neither a command nor an illegal word changes what the host last read. -/
theorem engineStep_keeps_busRead {s t : State} (h : engineStep s = .next t) : t.busRead = s.busRead := by
  obtain ⟨w, rest, _, _, ⟨i, _, h⟩ | ⟨e, _, rfl⟩⟩ := engineStep_cases h
  · obtain ⟨_, _, _, _, hb⟩ := exec_keeps_host h
    exact hb
  · rfl

theorem holds_readOmem_of_empty {s : State} (hq : s.q = []) (a : Nat) : s.holds (.readOmem a) = false := by
  simp [State.holds, State.busy, hq]

theorem holds_writeOmem_of_empty {s : State} (hq : s.q = []) (a : Nat) (w : Word) :
    s.holds (.writeOmem a w) = false := by
  simp [State.holds, State.busy, hq]

/-- While a held access waits, the engine runs the queued word; the access stays first in turn. -/
theorem step_of_heldWhileBusy {s : State} {x : HostAccess} {ts : List Turn} (hf : s.fault = false) (hq : s.q ≠ [])
    (ht : s.turns = .host x :: ts) (hx : HeldWhileBusy s x) :
    ∃ t, step s = .next t ∧ t.turns = s.turns ∧ t.busRead = s.busRead ∧ (t.q = s.q.tail ∨ t.q = []) := by
  obtain ⟨t, h, hts, htq⟩ := engineStep_unqueues hf hq
  rw [step_of_held ht (holds_of_heldWhileBusy hf hq hx)]
  exact ⟨t, h, hts, engineStep_keeps_busRead h, htq⟩

/-- Settles O54: with an empty queue the access is one step of the host, with a queued word it is held. -/
theorem hostAccessesOmemWhenIdle : Obligations.HostAccessesOmemWhenIdle := by
  refine ⟨fun s a ts ht hq ha => ?_, fun s a w ts ht hq ha hm => ?_, fun s a w ts hf hq ht => ?_⟩
  · rw [step_of_host ht (holds_readOmem_of_empty hq a)]
    exact if_pos ha
  · rw [step_of_host ht (holds_writeOmem_of_empty hq a w)]
    exact ⟨Memory.write s.omem a w, if_pos ha, fun b => Memory.read_write hm a b w⟩
  · rcases ht with ht | ht
    · exact step_of_heldWhileBusy hf hq ht trivial
    · exact step_of_heldWhileBusy hf hq ht trivial

end Sys2Proof.Machine

/-! PROOFS. The decoder and the encoder are inverse to each other, the decoder accepts exactly the opcode table, and
what the engine does with any other word (spec/30_encoding.md R71 to R81). -/

namespace Sys2Proof

open Laws.OpcodeField (opcode Statement)

/-! ### A word is known by its fields (R71, R72) -/

theorem regIdx_eq_iff {x : BitVec 4} {d : Fin 16} : regIdx x = d ↔ x = BitVec.ofNat 4 d.val := by
  rw [← regIdx_ofNat d, regIdx, regIdx, BitVec.toFin_inj]
  simp

/-- An opcode wider than eight bits is cut by the word. -/
theorem rWord_opcode_mod (op d a b c : Nat) : rWord (op % 256) d a b c = rWord op d a b c := by
  apply BitVec.eq_of_toNat_eq
  simp only [rWord, BitVec.toNat_ofNat]
  omega

theorem mWord_opcode_mod (op d f : Nat) (imm : Imm) : mWord (op % 256) d f imm = mWord op d f imm := by
  apply BitVec.eq_of_toNat_eq
  simp only [mWord, BitVec.toNat_ofNat]
  omega

theorem eq_rWord_iff {w : Word} {op d a b c : Nat} (hd : d < 16) (ha : a < 16) (hb : b < 16) (hc : c < 16) :
    w = rWord op d a b c ↔ opField w = BitVec.ofNat 8 op ∧ dField w = BitVec.ofNat 4 d ∧ aField w = BitVec.ofNat 4 a ∧
      bField w = BitVec.ofNat 4 b ∧ cField w = BitVec.ofNat 4 c ∧ zField w = 0#8 := by
  constructor
  · rintro rfl
    exact fields_rWord hd ha hb hc
  · rintro ⟨ho, hd', ha', hb', hc', hz⟩
    rw [eq_rWord hz, ho, hd', ha', hb', hc', ← rWord_opcode_mod op]
    simp only [BitVec.toNat_ofNat, Nat.mod_eq_of_lt, Nat.reducePow, *]

theorem eq_mWord_iff {w : Word} {op d f : Nat} {imm : Imm} (hd : d < 16) (hf : f < 16) :
    w = mWord op d f imm ↔ opField w = BitVec.ofNat 8 op ∧ dField w = BitVec.ofNat 4 d ∧ aField w = BitVec.ofNat 4 f ∧
      immField w = imm := by
  constructor
  · rintro rfl
    exact fields_mWord imm hd hf
  · rintro ⟨ho, hd', hf', hi⟩
    rw [eq_mWord w, ho, hd', hf', hi, ← mWord_opcode_mod op]
    simp only [BitVec.toNat_ofNat, Nat.mod_eq_of_lt, Nat.reducePow, *]

/-! ### The opcode of a command's word, and of the command a word decodes to -/

theorem opField_encode (i : Instr) : Statement i := by
  cases i with
  | nop | copy | pdeg | plead | pisz | piso | pnorm | padd | psub | pmul | fnew | ezero | eone | enew | enorm | eadd
  | esub | emul | edivmod | emod | einv | epow | eord =>
    exact (fields_rWord (by omega) (by omega) (by omega) (by omega)).1
  | pld | pst | xld | xst | xli | eldb | estb => exact (fields_mWord _ (by omega) (by omega)).1

/-- Whatever command an arm of the decoder answers has this opcode. -/
def AnswersOpcode (op : Nat) (x : Except Reject Instr) : Prop := ∀ i, x = .ok i → opcode i = op

@[simp] theorem answersOpcode_ok {op : Nat} {i : Instr} : AnswersOpcode op (.ok i) ↔ opcode i = op := by
  simp [AnswersOpcode]

@[simp] theorem answersOpcode_error (op : Nat) (e : Reject) : AnswersOpcode op (.error e) := by
  simp [AnswersOpcode]

@[simp] theorem answersOpcode_whenZero {op : Nat} {b : Bool} {x : Except Reject Instr} :
    AnswersOpcode op (whenZero b x) ↔ (b = true → AnswersOpcode op x) := by
  cases b <;> simp [whenZero]

@[simp] theorem answersOpcode_withSlot {op : Nat} {x : BitVec 4} {next : FIdx → Instr} :
    AnswersOpcode op (withSlot x next) ↔ ∀ h : x.toNat < 4, opcode (next ⟨x.toNat, h⟩) = op := by
  unfold withSlot
  split <;> simp [*]

@[simp] theorem answersOpcode_ite {op : Nat} {P : Prop} [Decidable P] {x y : Except Reject Instr} :
    AnswersOpcode op (if P then x else y) ↔ (P → AnswersOpcode op x) ∧ (¬ P → AnswersOpcode op y) := by
  split <;> simp [*]

/-- Every arm of the decoder answers a command of the arm's own opcode. -/
theorem answersOpcode_decode (w : Word) : AnswersOpcode (opField w).toNat (decode w) := by
  unfold decode
  split <;> simp [opcode, *]

theorem opField_of_decode {w : Word} {i : Instr} (h : decode w = .ok i) : opField w = BitVec.ofNat 8 (opcode i) := by
  rw [answersOpcode_decode w i h, BitVec.ofNat_toNat, BitVec.setWidth_eq]

/-! ### What an arm of the decoder answers, and on which word

One lemma for each combination of operand fields that several commands share. `inj` is the constructor's injectivity. -/

theorem ite_error_eq_ok {P : Prop} [Decidable P] {e : Reject} {x : Except Reject Instr} {i : Instr} :
    (if P then .error e else x) = .ok i ↔ ¬ P ∧ x = .ok i := by
  split <;> simp [*]

section Arms

variable {w : Word} {op : Nat}

/-- `d` and `imm`. -/
theorem fZero_ok_iff {mk : Fin 16 → Imm → Instr} (inj : ∀ d m d' m', (mk d m = mk d' m') = (d = d' ∧ m = m'))
    (hop : opField w = BitVec.ofNat 8 op) {d : Fin 16} {imm : Imm} :
    whenZero (fZero w) (.ok (mk (regIdx (dField w)) (immField w))) = .ok (mk d imm) ↔ w = mWord op d 0 imm := by
  rw [whenZero_eq_ok, Except.ok.injEq, inj, regIdx_eq_iff, eq_mWord_iff d.isLt (by decide)]
  simp only [fZero, beq_iff_eq, hop, true_and]
  tauto

/-- `d` and `a`. -/
theorem bczZero_ok_iff {mk : Fin 16 → Fin 16 → Instr} (inj : ∀ d a d' a', (mk d a = mk d' a') = (d = d' ∧ a = a'))
    (hop : opField w = BitVec.ofNat 8 op) {d a : Fin 16} :
    whenZero (bczZero w) (.ok (mk (regIdx (dField w)) (regIdx (aField w)))) = .ok (mk d a) ↔ w = rWord op d a 0 0 := by
  rw [whenZero_eq_ok, Except.ok.injEq, inj, regIdx_eq_iff, regIdx_eq_iff,
    eq_rWord_iff d.isLt a.isLt (by decide) (by decide)]
  simp only [bczZero, Bool.and_eq_true, beq_iff_eq, hop, true_and]
  tauto

/-- `d` and a slot in `a`. -/
theorem bczZero_slot_ok_iff {mk : Fin 16 → FIdx → Instr} (inj : ∀ d a d' a', (mk d a = mk d' a') = (d = d' ∧ a = a'))
    (hop : opField w = BitVec.ofNat 8 op) {d : Fin 16} {a : FIdx} :
    whenZero (bczZero w) (withSlot (aField w) (mk (regIdx (dField w)))) = .ok (mk d a) ↔ w = rWord op d a 0 0 := by
  rw [whenZero_eq_ok, withSlot_eq_ok, eq_rWord_iff d.isLt (by omega) (by decide) (by decide)]
  simp only [bczZero, Bool.and_eq_true, beq_iff_eq, hop, true_and, inj, regIdx_eq_iff, existsAndEq]
  tauto

/-- `d`, `a` and `b`. -/
theorem czZero_ok_iff {mk : Fin 16 → Fin 16 → Fin 16 → Instr}
    (inj : ∀ d a b d' a' b', (mk d a b = mk d' a' b') = (d = d' ∧ a = a' ∧ b = b'))
    (hop : opField w = BitVec.ofNat 8 op) {d a b : Fin 16} :
    whenZero (czZero w) (.ok (mk (regIdx (dField w)) (regIdx (aField w)) (regIdx (bField w)))) = .ok (mk d a b) ↔
      w = rWord op d a b 0 := by
  rw [whenZero_eq_ok, Except.ok.injEq, inj, regIdx_eq_iff, regIdx_eq_iff, regIdx_eq_iff,
    eq_rWord_iff d.isLt a.isLt b.isLt (by decide)]
  simp only [czZero, Bool.and_eq_true, beq_iff_eq, hop, true_and]
  tauto

end Arms

/-! ### The word of a command is the one word that decodes to it -/

theorem decode_eq_ok_iff_of_opField {w : Word} {i : Instr} (hi : i.wellFormed = true)
    (hop : opField w = BitVec.ofNat 8 (opcode i)) : decode w = .ok i ↔ w = encode i := by
  cases i with
  | nop =>
    rw [decode_nop hop, whenZero_eq_ok, encode, eq_rWord_iff (by decide) (by decide) (by decide) (by decide)]
    simp only [bczZero, Bool.and_eq_true, beq_iff_eq, hop, opcode, true_and, and_true, and_assoc]
    rfl
  | pld => rw [decode_pld hop]; exact fZero_ok_iff Instr.pld.injEq hop
  | pst => rw [decode_pst hop]; exact fZero_ok_iff Instr.pst.injEq hop
  | xld => rw [decode_xld hop]; exact fZero_ok_iff Instr.xld.injEq hop
  | xst => rw [decode_xst hop]; exact fZero_ok_iff Instr.xst.injEq hop
  | xli => rw [decode_xli hop]; exact fZero_ok_iff Instr.xli.injEq hop
  | eldb d f addr =>
    rw [decode_eldb hop, withSlot_eq_ok, encode, eq_mWord_iff d.isLt (by omega)]
    simp only [hop, opcode, regIdx_eq_iff, Instr.eldb.injEq, true_and, existsAndEq]
    tauto
  | estb => rw [decode_estb hop]; exact fZero_ok_iff Instr.estb.injEq hop
  | copy => rw [decode_copy hop]; exact bczZero_ok_iff Instr.copy.injEq hop
  | pdeg => rw [decode_pdeg hop]; exact bczZero_ok_iff Instr.pdeg.injEq hop
  | plead => rw [decode_plead hop]; exact bczZero_ok_iff Instr.plead.injEq hop
  | pisz => rw [decode_pisz hop]; exact bczZero_ok_iff Instr.pisz.injEq hop
  | piso => rw [decode_piso hop]; exact bczZero_ok_iff Instr.piso.injEq hop
  | pnorm => rw [decode_pnorm hop]; exact bczZero_ok_iff Instr.pnorm.injEq hop
  | padd => rw [decode_padd hop]; exact czZero_ok_iff Instr.padd.injEq hop
  | psub => rw [decode_psub hop]; exact czZero_ok_iff Instr.psub.injEq hop
  | pmul => rw [decode_pmul hop]; exact czZero_ok_iff Instr.pmul.injEq hop
  | fnew d a b c =>
    rw [decode_fnew hop, whenZero_eq_ok, withSlot_eq_ok, encode, eq_rWord_iff (by omega) a.isLt b.isLt c.isLt]
    simp only [hop, opcode, regIdx_eq_iff, zZero, beq_iff_eq, Instr.fnew.injEq, true_and, existsAndEq]
    tauto
  | ezero => rw [decode_ezero hop]; exact bczZero_slot_ok_iff Instr.ezero.injEq hop
  | eone => rw [decode_eone hop]; exact bczZero_slot_ok_iff Instr.eone.injEq hop
  | enew d a b =>
    rw [decode_enew hop, whenZero_eq_ok, withSlot_eq_ok, encode, eq_rWord_iff d.isLt a.isLt (by omega) (by decide)]
    simp only [hop, opcode, regIdx_eq_iff, czZero, Bool.and_eq_true, beq_iff_eq, Instr.enew.injEq, true_and,
      existsAndEq]
    tauto
  | enorm => rw [decode_enorm hop]; exact bczZero_ok_iff Instr.enorm.injEq hop
  | eadd => rw [decode_eadd hop]; exact czZero_ok_iff Instr.eadd.injEq hop
  | esub => rw [decode_esub hop]; exact czZero_ok_iff Instr.esub.injEq hop
  | emul => rw [decode_emul hop]; exact czZero_ok_iff Instr.emul.injEq hop
  | edivmod d c a b =>
    have hne : d ≠ c := of_decide_eq_true hi
    have apart (hd : regIdx (dField w) = d) (hc : regIdx (cField w) = c) : regIdx (dField w) ≠ regIdx (cField w) := by
      rw [hd, hc]
      exact hne
    rw [decode_edivmod hop, whenZero_eq_ok, ite_error_eq_ok, Except.ok.injEq, Instr.edivmod.injEq, encode,
      eq_rWord_iff d.isLt a.isLt b.isLt c.isLt]
    simp only [hop, opcode, zZero, beq_iff_eq, true_and, ← regIdx_eq_iff]
    tauto
  | emod => rw [decode_emod hop]; exact czZero_ok_iff Instr.emod.injEq hop
  | einv => rw [decode_einv hop]; exact bczZero_ok_iff Instr.einv.injEq hop
  | epow => rw [decode_epow hop]; exact czZero_ok_iff Instr.epow.injEq hop
  | eord => rw [decode_eord hop]; exact bczZero_ok_iff Instr.eord.injEq hop

/-- For every well-formed command; this is `Claims.Encodes` of the command and its word. -/
theorem decode_eq_ok_iff {w : Word} {i : Instr} (hi : i.wellFormed = true) : decode w = .ok i ↔ w = encode i := by
  constructor
  · intro h
    exact (decode_eq_ok_iff_of_opField hi (opField_of_decode h)).mp h
  · rintro rfl
    exact (decode_eq_ok_iff_of_opField hi (opField_encode i)).mpr rfl

/-- The decoder makes EDIVMOD's test of the two destinations (R76). -/
theorem wellFormed_of_decode {w : Word} {i : Instr} (h : decode w = .ok i) : i.wellFormed = true := by
  cases i with
  | edivmod =>
    rw [decode_edivmod (opField_of_decode h), whenZero_eq_ok, ite_error_eq_ok, Except.ok.injEq,
      Instr.edivmod.injEq] at h
    obtain ⟨_, hne, rfl, rfl, _, _⟩ := h
    exact decide_eq_true hne
  | _ => rfl

theorem eq_encode_of_decode {w : Word} {i : Instr} (h : decode w = .ok i) : w = encode i :=
  (decode_eq_ok_iff (wellFormed_of_decode h)).mp h

/-- Settles O28: the word of a well-formed command is the one word that decodes to it. -/
theorem decodeOfEncode : Obligations.DecodeOfEncode := fun _ hi => (decode_eq_ok_iff hi).mpr rfl

/-- Settles O29: no other word decodes to the command, and the decoder answers well-formed commands only. -/
theorem encodeOfDecode : Obligations.EncodeOfDecode := fun _ _ h =>
  ⟨wellFormed_of_decode h, (eq_encode_of_decode h).symm⟩

/-- Settles O31: the decoder run on the nine words. -/
theorem workedEncodings : Obligations.WorkedEncodings := ⟨rfl, rfl, rfl, rfl, rfl, rfl, rfl, rfl, rfl⟩

/-! ### The rows of the opcode table -/

/-- The mask of a row: every bit of `op`, and the bits of the other fields that must be 0. -/
def rowMask (d a b c : BitVec 4) (z : BitVec 8) : Word :=
  BitVec.ofNat 32 (0xFF * 2 ^ 24 + d.toNat * 2 ^ 20 + a.toNat * 2 ^ 16 + b.toNat * 2 ^ 12 + c.toNat * 2 ^ 8 + z.toNat)

/-- The mask of a command's row: no bit of a register's or an immediate's field, the two high bits of a slot's. -/
def Instr.mask : Instr → Word
  | .nop => rowMask 0xF 0xF 0xF 0xF 0xFF
  | .pld _ _ | .pst _ _ | .xld _ _ | .xst _ _ | .xli _ _ | .estb _ _ => rowMask 0 0xF 0 0 0
  | .eldb _ _ _ => rowMask 0 0xC 0 0 0
  | .copy _ _ | .pdeg _ _ | .plead _ _ | .pisz _ _ | .piso _ _ | .pnorm _ _ | .enorm _ _ | .einv _ _ | .eord _ _ =>
    rowMask 0 0 0xF 0xF 0xFF
  | .ezero _ _ | .eone _ _ => rowMask 0 0xC 0xF 0xF 0xFF
  | .padd _ _ _ | .psub _ _ _ | .pmul _ _ _ | .eadd _ _ _ | .esub _ _ _ | .emul _ _ _ | .emod _ _ _ | .epow _ _ _ =>
    rowMask 0 0 0 0xF 0xFF
  | .enew _ _ _ => rowMask 0 0 0xC 0xF 0xFF
  | .fnew _ _ _ _ => rowMask 0xC 0 0 0 0xFF
  | .edivmod _ _ _ _ => rowMask 0 0 0 0 0xFF

/-- The row of a command in the opcode table: its mnemonic, the opcode alone, and the mask. -/
def Instr.row (i : Instr) : String × Word × Word := (i.mnemonic, rWord (opcode i) 0 0 0 0, i.mask)

/-- The word is one of the command's row. -/
def MatchesRow (w : Word) (i : Instr) : Prop := w &&& i.mask = rWord (opcode i) 0 0 0 0

/-- One command of each row, in the table's order. -/
def rowCommands : List Instr :=
  [.nop, .pld 0 0, .pst 0 0, .xld 0 0, .xst 0 0, .xli 0 0, .eldb 0 0 0, .estb 0 0, .copy 0 0, .pdeg 0 0, .plead 0 0,
    .pisz 0 0, .piso 0 0, .pnorm 0 0, .padd 0 0 0, .psub 0 0 0, .pmul 0 0 0, .fnew 0 0 0 0, .ezero 0 0, .eone 0 0,
    .enew 0 0 0, .enorm 0 0, .eadd 0 0 0, .esub 0 0 0, .emul 0 0 0, .edivmod 0 0 0 0, .emod 0 0 0, .einv 0 0,
    .epow 0 0 0, .eord 0 0]

theorem opcodeTable_eq : opcodeTable = rowCommands.map Instr.row := rfl

theorem exists_row_of_mem {e : String × Word × Word} (he : e ∈ opcodeTable) : ∃ i : Instr, i.row = e := by
  rw [opcodeTable_eq] at he
  obtain ⟨i, _, h⟩ := List.mem_map.mp he
  exact ⟨i, h⟩

theorem find_rowCommand (i : Instr) :
    (rowCommands.find? fun j => opcode j == opcode i).map Instr.row = some i.row := by
  cases i <;> rfl

theorem row_mem_opcodeTable (i : Instr) : i.row ∈ opcodeTable := by
  obtain ⟨j, hj, h⟩ := Option.map_eq_some_iff.mp (find_rowCommand i)
  rw [opcodeTable_eq, ← h]
  exact List.mem_map_of_mem (List.mem_of_find?_eq_some hj)

/-! ### Matching a row, field by field -/

theorem opField_and (w v : Word) : opField (w &&& v) = opField w &&& opField v := BitVec.extractLsb'_and
theorem dField_and (w v : Word) : dField (w &&& v) = dField w &&& dField v := BitVec.extractLsb'_and
theorem aField_and (w v : Word) : aField (w &&& v) = aField w &&& aField v := BitVec.extractLsb'_and
theorem bField_and (w v : Word) : bField (w &&& v) = bField w &&& bField v := BitVec.extractLsb'_and
theorem cField_and (w v : Word) : cField (w &&& v) = cField w &&& cField v := BitVec.extractLsb'_and
theorem zField_and (w v : Word) : zField (w &&& v) = zField w &&& zField v := BitVec.extractLsb'_and

theorem fields_rowMask (d a b c : BitVec 4) (z : BitVec 8) :
    opField (rowMask d a b c z) = 0xFF#8 ∧ dField (rowMask d a b c z) = d ∧ aField (rowMask d a b c z) = a ∧
    bField (rowMask d a b c z) = b ∧ cField (rowMask d a b c z) = c ∧ zField (rowMask d a b c z) = z := by
  have := d.isLt
  have := a.isLt
  have := b.isLt
  have := c.isLt
  have := z.isLt
  simp only [rowMask, opField, dField, aField, bField, cField, zField, extract_ofNat]
  refine ⟨?_, ?_, ?_, ?_, ?_, ?_⟩ <;> (apply BitVec.eq_of_toNat_eq; simp only [BitVec.toNat_ofNat]; omega)

theorem and_byteMask (x : BitVec 8) : x &&& 0xFF = x := BitVec.and_allOnes

theorem and_rowMask_iff {w : Word} {op : Nat} {d a b c : BitVec 4} {z : BitVec 8} :
    w &&& rowMask d a b c z = rWord op 0 0 0 0 ↔ opField w = BitVec.ofNat 8 op ∧ dField w &&& d = 0#4 ∧
      aField w &&& a = 0#4 ∧ bField w &&& b = 0#4 ∧ cField w &&& c = 0#4 ∧ zField w &&& z = 0#8 := by
  have kept : opField w &&& 0xFF#8 = opField w := and_byteMask _
  obtain ⟨ho, hd, ha, hb, hc, hz⟩ := fields_rowMask d a b c z
  rw [eq_rWord_iff (by decide) (by decide) (by decide) (by decide), opField_and, dField_and, aField_and, bField_and,
    cField_and, zField_and, ho, hd, ha, hb, hc, hz, kept]

/-- The bits `m` of a 4-bit field are 0 exactly when the field holds one of the operand values `val i`. -/
structure FieldMask {ι : Type} (m : BitVec 4) (val : ι → Nat) : Prop where
  lt : ∀ i, val i < 16
  and_iff : ∀ x : BitVec 4, x &&& m = 0#4 ↔ ∃ i, x = BitVec.ofNat 4 (val i)

theorem registerMask : FieldMask 0 (Fin.val : Fin 16 → Nat) where
  lt := Fin.isLt
  and_iff := by decide

theorem slotMask : FieldMask 0xC (Fin.val : FIdx → Nat) where
  lt _ := by omega
  and_iff := by decide

/-- A field that is no operand must be 0. -/
theorem zeroMask : FieldMask 0xF (fun _ : Unit => 0) where
  lt _ := by decide
  and_iff := by decide

theorem exists_register (x : BitVec 4) : ∃ d : Fin 16, x = BitVec.ofNat 4 d.val := ⟨regIdx x, regIdx_eq_iff.mp rfl⟩

section Matching

variable {w : Word} {op : Nat} {δ α β γ : Type}

/-- The words of an R-format row. -/
theorem and_rRow_iff {md ma mb mc : BitVec 4} {vd : δ → Nat} {va : α → Nat} {vb : β → Nat} {vc : γ → Nat}
    (hd : FieldMask md vd) (ha : FieldMask ma va) (hb : FieldMask mb vb) (hc : FieldMask mc vc) :
    w &&& rowMask md ma mb mc 0xFF = rWord op 0 0 0 0 ↔ ∃ d a b c, w = rWord op (vd d) (va a) (vb b) (vc c) := by
  rw [and_rowMask_iff, and_byteMask]
  simp only [eq_rWord_iff (hd.lt _) (ha.lt _) (hb.lt _) (hc.lt _), hd.and_iff, ha.and_iff, hb.and_iff, hc.and_iff,
    exists_and_left, exists_and_right]

/-- The words of an M-format row. -/
theorem and_mRow_iff {mf : BitVec 4} {vf : α → Nat} (hf : FieldMask mf vf) :
    w &&& rowMask 0 mf 0 0 0 = rWord op 0 0 0 0 ↔ ∃ (d : Fin 16) (f : α) (imm : Imm), w = mWord op d (vf f) imm := by
  have hz : zField w &&& 0 = 0#8 := BitVec.and_zero
  rw [and_rowMask_iff]
  simp only [eq_mWord_iff (Fin.isLt _) (hf.lt _), hz, registerMask.and_iff, hf.and_iff, exists_register,
    exists_and_left, exists_and_right, exists_eq', true_and, and_true]

theorem and_dImmRow_iff :
    w &&& rowMask 0 0xF 0 0 0 = rWord op 0 0 0 0 ↔ ∃ (d : Fin 16) (imm : Imm), w = mWord op d 0 imm := by
  simp only [and_mRow_iff zeroMask, exists_const]

theorem and_daRow_iff : w &&& rowMask 0 0 0xF 0xF 0xFF = rWord op 0 0 0 0 ↔ ∃ d a : Fin 16, w = rWord op d a 0 0 := by
  simp only [and_rRow_iff registerMask registerMask zeroMask zeroMask, exists_const]

theorem and_dSlotRow_iff :
    w &&& rowMask 0 0xC 0xF 0xF 0xFF = rWord op 0 0 0 0 ↔ ∃ (d : Fin 16) (a : FIdx), w = rWord op d a 0 0 := by
  simp only [and_rRow_iff registerMask slotMask zeroMask zeroMask, exists_const]

theorem and_dabRow_iff : w &&& rowMask 0 0 0 0xF 0xFF = rWord op 0 0 0 0 ↔ ∃ d a b : Fin 16, w = rWord op d a b 0 := by
  simp only [and_rRow_iff registerMask registerMask registerMask zeroMask, exists_const]

end Matching

theorem encode_matchesRow (i : Instr) : MatchesRow (encode i) i := by
  cases i with
  | nop => rfl
  | pld d imm | pst d imm | xld d imm | xst d imm | xli d imm | estb d imm => exact and_dImmRow_iff.mpr ⟨d, imm, rfl⟩
  | eldb d f addr => exact (and_mRow_iff slotMask).mpr ⟨d, f, addr, rfl⟩
  | copy d a | pdeg d a | plead d a | pisz d a | piso d a | pnorm d a | enorm d a | einv d a | eord d a =>
    exact and_daRow_iff.mpr ⟨d, a, rfl⟩
  | ezero d a | eone d a => exact and_dSlotRow_iff.mpr ⟨d, a, rfl⟩
  | padd d a b | psub d a b | pmul d a b | eadd d a b | esub d a b | emul d a b | emod d a b | epow d a b =>
    exact and_dabRow_iff.mpr ⟨d, a, b, rfl⟩
  | enew d a b => exact (and_rRow_iff registerMask registerMask slotMask zeroMask).mpr ⟨d, a, b, (), rfl⟩
  | fnew d a b c => exact (and_rRow_iff slotMask registerMask registerMask registerMask).mpr ⟨d, a, b, c, rfl⟩
  | edivmod d c a b =>
    exact (and_rRow_iff registerMask registerMask registerMask registerMask).mpr ⟨d, a, b, c, rfl⟩

/-- Every word of a row is the word of a command of that row, its operands read from the fields. -/
theorem exists_encode_of_matchesRow {w : Word} {i : Instr} (h : MatchesRow w i) :
    ∃ j : Instr, j.mnemonic = i.mnemonic ∧ w = encode j := by
  cases i with
  | nop => exact ⟨.nop, rfl, BitVec.and_allOnes.symm.trans h⟩
  | pld => obtain ⟨d, m, hw⟩ := and_dImmRow_iff.mp h; exact ⟨.pld d m, rfl, hw⟩
  | pst => obtain ⟨d, m, hw⟩ := and_dImmRow_iff.mp h; exact ⟨.pst d m, rfl, hw⟩
  | xld => obtain ⟨d, m, hw⟩ := and_dImmRow_iff.mp h; exact ⟨.xld d m, rfl, hw⟩
  | xst => obtain ⟨d, m, hw⟩ := and_dImmRow_iff.mp h; exact ⟨.xst d m, rfl, hw⟩
  | xli => obtain ⟨d, m, hw⟩ := and_dImmRow_iff.mp h; exact ⟨.xli d m, rfl, hw⟩
  | eldb => obtain ⟨d, f, m, hw⟩ := (and_mRow_iff slotMask).mp h; exact ⟨.eldb d f m, rfl, hw⟩
  | estb => obtain ⟨d, m, hw⟩ := and_dImmRow_iff.mp h; exact ⟨.estb d m, rfl, hw⟩
  | copy => obtain ⟨d, a, hw⟩ := and_daRow_iff.mp h; exact ⟨.copy d a, rfl, hw⟩
  | pdeg => obtain ⟨d, a, hw⟩ := and_daRow_iff.mp h; exact ⟨.pdeg d a, rfl, hw⟩
  | plead => obtain ⟨d, a, hw⟩ := and_daRow_iff.mp h; exact ⟨.plead d a, rfl, hw⟩
  | pisz => obtain ⟨d, a, hw⟩ := and_daRow_iff.mp h; exact ⟨.pisz d a, rfl, hw⟩
  | piso => obtain ⟨d, a, hw⟩ := and_daRow_iff.mp h; exact ⟨.piso d a, rfl, hw⟩
  | pnorm => obtain ⟨d, a, hw⟩ := and_daRow_iff.mp h; exact ⟨.pnorm d a, rfl, hw⟩
  | padd => obtain ⟨d, a, b, hw⟩ := and_dabRow_iff.mp h; exact ⟨.padd d a b, rfl, hw⟩
  | psub => obtain ⟨d, a, b, hw⟩ := and_dabRow_iff.mp h; exact ⟨.psub d a b, rfl, hw⟩
  | pmul => obtain ⟨d, a, b, hw⟩ := and_dabRow_iff.mp h; exact ⟨.pmul d a b, rfl, hw⟩
  | fnew =>
    obtain ⟨d, a, b, c, hw⟩ := (and_rRow_iff slotMask registerMask registerMask registerMask).mp h
    exact ⟨.fnew d a b c, rfl, hw⟩
  | ezero => obtain ⟨d, a, hw⟩ := and_dSlotRow_iff.mp h; exact ⟨.ezero d a, rfl, hw⟩
  | eone => obtain ⟨d, a, hw⟩ := and_dSlotRow_iff.mp h; exact ⟨.eone d a, rfl, hw⟩
  | enew =>
    obtain ⟨d, a, b, _, hw⟩ := (and_rRow_iff registerMask registerMask slotMask zeroMask).mp h
    exact ⟨.enew d a b, rfl, hw⟩
  | enorm => obtain ⟨d, a, hw⟩ := and_daRow_iff.mp h; exact ⟨.enorm d a, rfl, hw⟩
  | eadd => obtain ⟨d, a, b, hw⟩ := and_dabRow_iff.mp h; exact ⟨.eadd d a b, rfl, hw⟩
  | esub => obtain ⟨d, a, b, hw⟩ := and_dabRow_iff.mp h; exact ⟨.esub d a b, rfl, hw⟩
  | emul => obtain ⟨d, a, b, hw⟩ := and_dabRow_iff.mp h; exact ⟨.emul d a b, rfl, hw⟩
  | edivmod =>
    obtain ⟨d, a, b, c, hw⟩ := (and_rRow_iff registerMask registerMask registerMask registerMask).mp h
    exact ⟨.edivmod d c a b, rfl, hw⟩
  | emod => obtain ⟨d, a, b, hw⟩ := and_dabRow_iff.mp h; exact ⟨.emod d a b, rfl, hw⟩
  | einv => obtain ⟨d, a, hw⟩ := and_daRow_iff.mp h; exact ⟨.einv d a, rfl, hw⟩
  | epow => obtain ⟨d, a, b, hw⟩ := and_dabRow_iff.mp h; exact ⟨.epow d a b, rfl, hw⟩
  | eord => obtain ⟨d, a, hw⟩ := and_daRow_iff.mp h; exact ⟨.eord d a, rfl, hw⟩

/-- EDIVMOD's test, read off its word. -/
theorem wellFormed_iff_fields (i : Instr) :
    i.wellFormed = true ↔ (i.mnemonic = "EDIVMOD" → dField (encode i) ≠ cField (encode i)) := by
  cases i with
  | edivmod d c a b =>
    obtain ⟨_, hd, _, _, hc, _⟩ := fields_rWord (op := 0x53) d.isLt a.isLt b.isLt c.isLt
    simp only [encode, hd, hc, Instr.wellFormed, Instr.mnemonic, decide_eq_true_iff, ne_eq, true_imp_iff,
      ← regIdx_eq_iff, regIdx_ofNat]
  | _ => simp [Instr.wellFormed, Instr.mnemonic]

/-- Settles O30: a word that decodes is its command's word, which matches the command's row; a word of a row is some
command's word, and decodes when that command is well formed. -/
theorem decoderAcceptsExactlyTheTable : Obligations.DecoderAcceptsExactlyTheTable := by
  have matched {w : Word} {i : Instr} (h : decode w = .ok i) : MatchesRow w i := by
    rw [eq_encode_of_decode h]
    exact encode_matchesRow i
  refine ⟨fun w i h => ⟨i.row, row_mem_opcodeTable i, rfl, matched h⟩, fun w => ⟨?_, ?_⟩⟩
  · rintro ⟨i, h⟩
    refine ⟨i.row, row_mem_opcodeTable i, matched h, ?_⟩
    rw [eq_encode_of_decode h]
    exact (wellFormed_iff_fields i).mp (wellFormed_of_decode h)
  · rintro ⟨e, he, hw, hne⟩
    obtain ⟨i, rfl⟩ := exists_row_of_mem he
    obtain ⟨j, hj, rfl⟩ := exists_encode_of_matchesRow hw
    have hwf : j.wellFormed = true := (wellFormed_iff_fields j).mpr fun h => hne (hj.symm.trans h)
    exact ⟨j, decodeOfEncode j hwf⟩

end Sys2Proof

namespace Sys2Proof.Machine

open Sys2Proof.Claims

/-! ### Words that do not decode -/

theorem engineStep_of_reject {s : State} {w : Word} {rest : List Word} {e : Reject} (hf : s.fault = false)
    (hq : s.q = w :: rest) (hd : decode w = .error e) : engineStep s = .next (faulted s 9#5) := by
  rw [engineStep_of_head hf hq, runWord_of_reject hd, takeFault_eq_faulted hf]
  rfl

/-- Settles O33: in each of the three turns the step is the engine's, and it takes the fault of code 9. -/
theorem illegalWordFaults : Obligations.IllegalWordFaults := by
  intro s w rest e hf hq hd
  have hne : s.q ≠ [] := by rw [hq]; exact List.cons_ne_nil w rest
  refine ⟨fun ht => ?_, fun ts ht => ?_, fun a ts ht hh => ?_⟩
  · rw [step_of_no_turns ht]
    exact engineStep_of_reject hf hq hd
  · rw [step_of_engine_turn ht (engineReady_of_queued hf hne)]
    exact engineStep_of_reject (s := withTurns s ts) hf hq hd
  · rw [step_of_held ht (holds_of_heldWhileBusy hf hne hh)]
    exact engineStep_of_reject hf hq hd

end Sys2Proof.Machine

/-! PROOFS. The data movement commands: the word of each, its faults in the order of its checks, and what it writes when
it completes (spec/40_data_movement.md R91 to R98; the layouts of spec/20_memory.md R55, R56). -/

namespace Sys2Proof.Machine

open Sys2Proof.Claims

/-! ### The word of a command, and its next state in the words of the statements -/

/-- The encoder's word is the only one that decodes to the command (R75). -/
theorem encodes_of_encode_eq {i : Instr} {n : Nat} (hi : i.wellFormed = true) (h : encode i = BitVec.ofNat 32 n) :
    Encodes i n :=
  fun _ => h ▸ decode_eq_ok_iff hi

theorem finish_of_ok {s t : State} {r : Except Cause State} (hr : r = .ok t) : finish s r = .next (counted t) := by
  rw [hr, finish_ok]
  rfl

theorem finish_of_error {s : State} (hf : s.fault = false) (c : Cause) {r : Except Cause State} (hr : r = .error c) :
    finish s r = .next (faulted s c.code) := by
  rw [hr, finish_error, takeFault_eq_faulted hf]

/-! ### Running a command's checks one after the other

A command's outcome is a chain: `bind_of_ok` for each check that passes, `bind_of_error` for the one that fails. -/

theorem Except.bind_of_ok {ε α β : Type} {x : Except ε α} {f : α → Except ε β} {a : α} {r : Except ε β}
    (hx : x = .ok a) (hr : f a = r) : (x >>= f) = r := by
  rw [hx, Except.ok_bind, hr]

theorem Except.bind_of_error {ε α β : Type} {x : Except ε α} {f : α → Except ε β} {e : ε} (hx : x = .error e) :
    (x >>= f) = .error e := by
  rw [hx, Except.error_bind]

theorem checkAddr_of_ge {s : State} {a : Nat} (h : s.cfg.memWords ≤ a) : s.checkAddr a = .error .badAddress :=
  raiseIf_pos h _

theorem checkAddr_of_lt {s : State} {a : Nat} (h : a < s.cfg.memWords) : s.checkAddr a = .ok () :=
  raiseIf_neg (Nat.not_le.mpr h) _

theorem elems1_of_raw {s : State} {a : PIdx} {v : Vec} (h : s.p[a] = .held none v) :
    s.elems1 a = .error .notElement := elems1_eq_error.mpr (.inr ⟨v, h, rfl⟩)

theorem elems1_of_element {s : State} {a : PIdx} {t : FIdx} {v : Vec} (h : s.p[a] = .held (some t) v) :
    s.elems1 a = .ok (t, v) := elems1_eq_ok.mpr h

/-- A command that begins with `elems(a)` makes the checks of spec/43_field.md R141 first. -/
theorem checksOneElement_of_bind {i : Instr} {a : PIdx} {s : State} {f : FIdx × Vec → Except Cause State}
    (hf : s.fault = false) (h : exec i s = finish s (s.elems1 a >>= f)) : ChecksOneElement i a s := by
  refine ⟨fun ha => ?_, fun v ha => ?_⟩ <;> rw [h]
  · exact finish_of_error hf .unwrittenRegister (Except.bind_of_error (elems1_of_unwritten ha))
  · exact finish_of_error hf .notElement (Except.bind_of_error (elems1_of_raw ha))

/-! ### Words loaded -/

theorem length_loadCoeffs (m : Memory) (a len : Nat) : (loadCoeffs m a len).length = len := by
  simp [loadCoeffs, Memory.readList]

theorem co_loadCoeffs (m : Memory) (a : Nat) {len i : Nat} (h : i < len) :
    co (loadCoeffs m a len) i = (Memory.read m (a + i)).toInt := by
  rw [co_eq_getElem (by rwa [length_loadCoeffs])]
  simp [loadCoeffs, Memory.readList, s32]

theorem immValue_eq_toInt (imm : Imm) : immValue imm = imm.toInt :=
  BitVec.toInt_signExtend_of_le (by decide)

/-- Bits 31:8 of a word are zero exactly when it is a byte. -/
theorem highBits_eq_zero_iff {w : Word} : w.extractLsb' 8 24 = 0#24 ↔ w.toNat < 256 := by
  have := w.isLt
  rw [← BitVec.toNat_inj, BitVec.extractLsb'_toNat, Nat.shiftRight_eq_div_pow, BitVec.toNat_ofNat]
  omega

theorem trimmed_byteElement (w : Word) : Trimmed (byteElement w) := trimmed_trim (by simp)

theorem co_byteElement {w : Word} (hw : w.toNat < 256) (i : Nat) :
    co (byteElement w) i = if w.getLsbD i then 1 else 0 := by
  rw [byteElement, co_trim, co_map_range]
  split
  · rfl
  · next hi =>
    have high : w.getLsbD i = false :=
      Nat.testBit_lt_two_pow (hw.trans_le (Nat.pow_le_pow_right Nat.two_pos (Nat.not_lt.mp hi)))
    rw [high]
    rfl

/-! ### Words stored -/

theorem read_writeList_singleton {m : Memory} (hm : Memory.wf m = true) (a b : Nat) (w : Word) :
    Memory.read (Memory.writeList m a [w]) b = if b = a then w else Memory.read m b :=
  Memory.read_write hm a b w

/-- OMEM after a vector was stored (R55): the length, then the coefficients, and every other word as before. -/
theorem read_writeList_vectorWords {m : Memory} (hm : Memory.wf m = true) (a : Nat) (v : Vec) (b : Nat) :
    Memory.read (Memory.writeList m a (vectorWords v)) b =
      if b = a then BitVec.ofNat 32 v.length
      else if a < b ∧ b ≤ a + v.length then BitVec.ofInt 32 (co v (b - a - 1))
      else Memory.read m b := by
  rw [Memory.read_writeList hm, length_vectorWords]
  rcases lt_trichotomy b a with hb | rfl | hb
  · rw [if_neg (by omega), if_neg (by omega), if_neg (by omega)]
  · rw [if_pos (by omega), if_pos rfl, Nat.sub_self]
    rfl
  · obtain ⟨k, rfl⟩ : ∃ k, b = a + 1 + k := ⟨b - (a + 1), by omega⟩
    have index : a + 1 + k - a = k + 1 := by omega
    rw [if_neg (show a + 1 + k ≠ a by omega), index, Nat.add_sub_cancel]
    by_cases hk : k < v.length
    · rw [if_pos (by omega), if_pos (by omega), co_eq_getElem hk]
      simp [vectorWords, wordOf, hk]
    · rw [if_neg (by omega), if_neg (by omega)]

theorem byteWord_eq_sum (v : Vec) : byteWord v = BitVec.ofInt 32 (∑ i ∈ Finset.range 8, co v i * 2 ^ i) := by
  rw [byteWord, wordOf, ← List.sum_toFinset _ List.nodup_range, List.toFinset_range]

/-! ### The commands -/

/-- Settles O2, by the outcomes of its checks in their order. -/
theorem pldLoadsVector : Obligations.PldLoadsVector := by
  refine ⟨fun d addr => encodes_of_encode_eq rfl rfl, fun s d addr hf =>
    ⟨fun ha => ?_, fun ha hl => ?_, fun n ha hn h1 hm => ?_⟩⟩
  · exact finish_of_error hf .badAddress (Except.bind_of_error (checkAddr_of_ge ha))
  · exact finish_of_error hf .invalidPolynomial
      (Except.bind_of_ok (checkAddr_of_lt ha) (Except.bind_of_error (raiseIf_pos hl _)))
  · have hlen : s32 (Memory.read s.omem (addrOf addr)) = n := hn
    have hl : ¬ ((n : Int) < 1 ∨ (s.cfg.maxLen : Int) < n) := by omega
    simp only [exec, execPld, hlen, Int.toNat_natCast]
    refine ⟨fun hb => ?_, fun hb => ⟨loadCoeffs s.omem (addr.toNat + 1) n, length_loadCoeffs .., fun i hi =>
      co_loadCoeffs _ _ hi, ?_⟩⟩
    · exact finish_of_error hf .badAddress (Except.bind_of_ok (checkAddr_of_lt ha)
        (Except.bind_of_ok (raiseIf_neg hl _) (Except.bind_of_error (checkAddr_of_ge hb))))
    · exact finish_of_ok (Except.bind_of_ok (checkAddr_of_lt ha)
        (Except.bind_of_ok (raiseIf_neg hl _) (Except.bind_of_ok (checkAddr_of_lt hb) rfl)))

/-- Settles O3: the two checks, and OMEM read after a vector was stored. -/
theorem pstStoresVector : Obligations.PstStoresVector := by
  refine ⟨fun d addr => encodes_of_encode_eq rfl rfl, fun s d addr hf =>
    ⟨fun hd => ?_, fun tag v hd => ⟨fun ha => ?_, fun ha hm =>
      ⟨_, finish_of_ok ?_, read_writeList_vectorWords hm addr.toNat v⟩⟩⟩⟩
  · exact finish_of_error hf .unwrittenRegister (Except.bind_of_error (readVec_of_unwritten hd))
  · exact finish_of_error hf .badAddress
      (Except.bind_of_ok (readVec_of_held hd) (Except.bind_of_error (checkAddr_of_ge ha)))
  · exact Except.bind_of_ok (readVec_of_held hd) (Except.bind_of_ok (checkAddr_of_lt ha) rfl)

/-- Settles O4: XLD has one check, XLI none. -/
theorem xldXliLoadScalar : Obligations.XldXliLoadScalar := by
  refine ⟨fun d addr => encodes_of_encode_eq rfl rfl, fun d imm => encodes_of_encode_eq rfl rfl, fun s d addr hf =>
    ⟨fun ha => ?_, fun ha => ?_, ?_⟩⟩
  · exact finish_of_error hf .badAddress (Except.bind_of_error (checkAddr_of_ge ha))
  · exact finish_of_ok (Except.bind_of_ok (checkAddr_of_lt ha) rfl)
  · rw [← immValue_eq_toInt]
    exact finish_of_ok (s := s) rfl

/-- Settles O5: the two checks, and OMEM read after one word was stored. -/
theorem xstStoresScalar : Obligations.XstStoresScalar := by
  refine ⟨fun d addr => encodes_of_encode_eq rfl rfl, fun s d addr hf =>
    ⟨fun hd => ?_, fun k hd => ⟨fun ha => ?_, fun ha hm =>
      ⟨_, finish_of_ok ?_, fun b => read_writeList_singleton hm addr.toNat b (wordOf k)⟩⟩⟩⟩
  · exact finish_of_error hf .unwrittenRegister (Except.bind_of_error (readX_of_unwritten hd))
  · exact finish_of_error hf .badAddress
      (Except.bind_of_ok (readX_of_held hd) (Except.bind_of_error (checkAddr_of_ge ha)))
  · exact Except.bind_of_ok (readX_of_held hd) (Except.bind_of_ok (checkAddr_of_lt ha) rfl)

/-- Settles O6, by the outcomes of its checks; the element is the trimmed vector of the word's eight low bits. -/
theorem eldbLoadsByte : Obligations.EldbLoadsByte := by
  refine ⟨fun d f addr => encodes_of_encode_eq rfl rfl, fun s d f addr hf =>
    ⟨fun hs => ?_, fun fd hs => ⟨fun hb => ?_, fun hp hn => ?_⟩⟩⟩
  · exact finish_of_error hf .invalidField (Except.bind_of_error (readF_of_invalid hs))
  · exact finish_of_error hf .invalidField
      (Except.bind_of_ok (readF_of_valid hs) (Except.bind_of_error (raiseIf_pos hb _)))
  · have hb : ¬ ¬ fd.IsByteField := not_not_intro ⟨hp, hn⟩
    refine ⟨fun ha => ?_, fun ha hw => ?_, fun ha hw =>
      ⟨byteElement (Memory.read s.omem addr.toNat), trimmed_byteElement _, co_byteElement hw, ?_⟩⟩
    · exact finish_of_error hf .badAddress (Except.bind_of_ok (readF_of_valid hs)
        (Except.bind_of_ok (raiseIf_neg hb _) (Except.bind_of_error (checkAddr_of_ge ha))))
    · have hbits := mt highBits_eq_zero_iff.mp (Nat.not_lt.mpr hw)
      exact finish_of_error hf .invalidPolynomial (Except.bind_of_ok (readF_of_valid hs)
        (Except.bind_of_ok (raiseIf_neg hb _) (Except.bind_of_ok (checkAddr_of_lt ha)
          (Except.bind_of_error (raiseIf_pos hbits _)))))
    · have hbits := not_not_intro (highBits_eq_zero_iff.mpr hw)
      exact finish_of_ok (Except.bind_of_ok (readF_of_valid hs) (Except.bind_of_ok (raiseIf_neg hb _)
        (Except.bind_of_ok (checkAddr_of_lt ha) (Except.bind_of_ok (raiseIf_neg hbits _) rfl))))

/-- Settles O7, by the outcomes of its checks, and OMEM read after one word was stored. -/
theorem estbStoresByte : Obligations.EstbStoresByte := by
  refine ⟨fun d addr => encodes_of_encode_eq rfl rfl, fun s d addr hf =>
    ⟨checksOneElement_of_bind hf rfl, fun t v fd hd hs => ⟨fun hb => ?_, fun hp hn => ?_⟩⟩⟩
  · exact finish_of_error hf .invalidField (Except.bind_of_ok (elems1_of_element hd)
      (Except.bind_of_ok (readF_of_valid hs) (Except.bind_of_error (raiseIf_pos hb _))))
  · have hb : ¬ ¬ fd.IsByteField := not_not_intro ⟨hp, hn⟩
    refine ⟨fun ⟨k, hk, h7⟩ => ?_, fun hv => ?_⟩
    · have hdeg : 7 < degree v := (degree_of_isDegree hk).symm ▸ h7
      exact finish_of_error hf .degreeTooLarge (Except.bind_of_ok (elems1_of_element hd)
        (Except.bind_of_ok (readF_of_valid hs) (Except.bind_of_ok (raiseIf_neg hb _)
          (Except.bind_of_error (raiseIf_pos hdeg _)))))
    · have hdeg : ¬ 7 < degree v := Nat.not_lt.mpr (degree_le_of_co hv)
      rw [← byteWord_eq_sum]
      refine ⟨fun ha => ?_, fun ha hm => ⟨_, finish_of_ok ?_, fun b => read_writeList_singleton hm addr.toNat b _⟩⟩
      · exact finish_of_error hf .badAddress (Except.bind_of_ok (elems1_of_element hd)
          (Except.bind_of_ok (readF_of_valid hs) (Except.bind_of_ok (raiseIf_neg hb _)
            (Except.bind_of_ok (raiseIf_neg hdeg _) (Except.bind_of_error (checkAddr_of_ge ha))))))
      · exact Except.bind_of_ok (elems1_of_element hd) (Except.bind_of_ok (readF_of_valid hs)
          (Except.bind_of_ok (raiseIf_neg hb _) (Except.bind_of_ok (raiseIf_neg hdeg _)
            (Except.bind_of_ok (checkAddr_of_lt ha) rfl))))

/-- Settles O8: the read of the source is the one check. -/
theorem copyCopiesTagAndVector : Obligations.CopyCopiesTagAndVector := by
  refine ⟨fun d a => encodes_of_encode_eq rfl rfl, fun s d a hf => ⟨fun ha => ?_, fun tag v ha => ?_⟩⟩
  · exact finish_of_error hf .unwrittenRegister (Except.bind_of_error (readP_of_unwritten ha))
  · exact finish_of_ok (Except.bind_of_ok (readP_of_held ha) rfl)

end Sys2Proof.Machine

/-! PROOFS. The queries and the trimmer: the word of each, its one fault, and what it writes
(spec/41_poly_query_normalize.md R110 to R115). -/

namespace Sys2Proof.Machine

open Sys2Proof.Claims

/-! ### The two outcomes of a query (R110) -/

theorem query_faults {s : State} {a : PIdx} (hf : s.fault = false) (ha : s.p[a] = .unwritten) (d : XIdx)
    (f : Vec → Int) : query d a f s = .next (faulted s 10#5) := by
  rw [query_of_unwritten d f ha]
  exact finish_of_error hf .unwrittenRegister rfl

theorem query_writes {s : State} {a : PIdx} {tag : Option FIdx} {v : Vec} (ha : s.p[a] = .held tag v) (d : XIdx)
    (f : Vec → Int) : query d a f s = .next (counted (withX s d (f v))) :=
  finish_of_ok (Except.bind_of_ok (readVec_of_held ha) rfl)

/-- A query that answers a test: 1 when it succeeds. -/
theorem query_writes_one {s : State} {a : PIdx} {tag : Option FIdx} {v : Vec} {test : Vec → Bool}
    (ha : s.p[a] = .held tag v) (d : XIdx) (h : test v = true) :
    query d a (fun u => if test u then 1 else 0) s = .next (counted (withX s d 1)) := by
  rw [query_writes ha, if_pos h]

/-- A query that answers a test: 0 when it fails. -/
theorem query_writes_zero {s : State} {a : PIdx} {tag : Option FIdx} {v : Vec} {test : Vec → Bool}
    (ha : s.p[a] = .held tag v) (d : XIdx) (h : ¬ test v = true) :
    query d a (fun u => if test u then 1 else 0) s = .next (counted (withX s d 0)) := by
  rw [query_writes ha, if_neg h]

theorem not_isone_of_co {v : Vec} (h : co v 0 ≠ 1 ∨ ∃ i, 0 < i ∧ co v i ≠ 0) : ¬ isone v = true := by
  rw [isone_iff]
  rintro ⟨h0, hpos⟩
  obtain h0' | ⟨i, hi, hne⟩ := h
  · exact h0' h0
  · exact hne (hpos i hi)

/-! ### The commands -/

/-- Settles O9: both are queries, and `degree` is the degree of R11. -/
theorem pdegPleadAnswerDegreeAndLead : Obligations.PdegPleadAnswerDegreeAndLead := by
  refine ⟨fun d a => ⟨encodes_of_encode_eq rfl rfl, encodes_of_encode_eq rfl rfl⟩, fun s d a hf =>
    ⟨fun ha => ⟨?_, ?_⟩, fun tag v ha => ⟨degree v, isDegree_degree v, ?_, ?_⟩⟩⟩
  · exact query_faults hf ha d fun v => degree v
  · exact query_faults hf ha d lead
  · exact query_writes ha d fun v => degree v
  · exact query_writes ha d lead

/-- Settles O10: both are queries of a test, `iszero` and `isone`, said by the coefficients. -/
theorem piszPisoAnswerZeroAndOne : Obligations.PiszPisoAnswerZeroAndOne := by
  refine ⟨fun d a => ⟨encodes_of_encode_eq rfl rfl, encodes_of_encode_eq rfl rfl⟩, fun s d a hf =>
    ⟨fun ha => ⟨?_, ?_⟩, fun tag v ha => ⟨fun hz => ?_, fun hnz => ?_, fun h0 hpos => ?_, fun hno => ?_⟩⟩⟩
  · exact query_faults hf ha d _
  · exact query_faults hf ha d _
  · exact query_writes_one ha d (iszero_iff.mpr hz)
  · exact query_writes_zero ha d (ne_true_of_eq_false (iszero_eq_false_iff.mpr hnz))
  · exact query_writes_one ha d (isone_iff.mpr ⟨h0, hpos⟩)
  · exact query_writes_zero ha d (not_isone_of_co hno)

/-- Settles O11: `trim` trims and keeps every coefficient. -/
theorem pnormTrims : Obligations.PnormTrims := by
  refine ⟨fun d a => encodes_of_encode_eq rfl rfl, fun s d a hf =>
    ⟨fun ha => ?_, fun tag v ha hv => ⟨trim v, trimmed_trim hv, co_trim v, ?_⟩⟩⟩
  · exact finish_of_error hf .unwrittenRegister (Except.bind_of_error (readVec_of_unwritten ha))
  · exact finish_of_ok (Except.bind_of_ok (readVec_of_held ha) rfl)

end Sys2Proof.Machine

/-! PROOFS. Raw polynomial arithmetic over the integers: the word of each command, its faults in the order of its
checks, what it writes, and the laws of the arithmetic (spec/42_poly_arith.md R120 to R125). -/

namespace Sys2Proof.Machine

open Sys2Proof.Claims

/-! ### The outcomes of the family (R120) -/

theorem rawBinary_faults_of_unwritten {s : State} {a b : PIdx} (hf : s.fault = false)
    (h : s.p[a] = .unwritten ∨ s.p[b] = .unwritten) (d : PIdx) (f : Vec → Vec → Except Cause Vec) :
    rawBinary d a b f s = .next (faulted s 10#5) := by
  rw [rawBinary_of_unwritten d f h]
  exact finish_of_error hf .unwrittenRegister rfl

section

variable {s : State} {a b : PIdx} {ta tb : Option FIdx} {u w : Vec} {f : Vec → Vec → Except Cause Vec}
  (ha : s.p[a] = .held ta u) (hb : s.p[b] = .held tb w)

include ha hb

theorem rawBinary_faults (hf : s.fault = false) (d : PIdx) {c : Cause} (hr : f u w = .error c) :
    rawBinary d a b f s = .next (faulted s c.code) :=
  finish_of_error hf c (Except.bind_of_ok (readVec_of_held ha)
    (Except.bind_of_ok (readVec_of_held hb) (Except.bind_of_error hr)))

theorem rawBinary_writes (d : PIdx) {r : Vec} (hr : f u w = .ok r) :
    rawBinary d a b f s = .next (counted (withP s d none r)) :=
  finish_of_ok (Except.bind_of_ok (readVec_of_held ha)
    (Except.bind_of_ok (readVec_of_held hb) (Except.bind_of_ok hr rfl)))

end

/-! ### The range check, by coefficients -/

theorem rangeChecked_of_inRange {r : Vec} (h : ∀ i, InRange (co r i)) : rangeChecked r = .ok r := by
  refine rangeChecked_eq_ok.mpr ⟨fun c hc => ?_, rfl⟩
  obtain ⟨i, -, rfl⟩ := mem_iff_co.mp hc
  exact h i

theorem rangeChecked_of_not_inRange {r : Vec} (h : ∃ i, ¬ InRange (co r i)) : rangeChecked r = .error .overflow := by
  obtain ⟨i, hi⟩ := h
  refine rangeChecked_eq_error.mpr ⟨?_, rfl⟩
  by_contra! hr
  exact hi (co_inRange hr i)

/-! ### Sums and differences: the length of R121 holds every coefficient -/

theorem co_sumVec_degree (u w : Vec) (i : Nat) :
    co (sumVec (max (degree u) (degree w) + 1) u w) i = co u i + co w i := by
  rw [co_sumVec]
  split
  · rfl
  · rw [co_of_degree_lt (v := u) (by omega), co_of_degree_lt (v := w) (by omega), add_zero]

theorem co_diffVec_degree (u w : Vec) (i : Nat) :
    co (diffVec (max (degree u) (degree w) + 1) u w) i = co u i - co w i := by
  rw [co_diffVec]
  split
  · rfl
  · rw [co_of_degree_lt (v := u) (by omega), co_of_degree_lt (v := w) (by omega), sub_zero]

theorem trimmed_trim_diffVec (n : Nat) (u w : Vec) : Trimmed (trim (diffVec (n + 1) u w)) :=
  trimmed_trim (List.ne_nil_of_length_pos (by rw [length_diffVec]; exact n.succ_pos))

theorem sumVec_comm (n : Nat) (u w : Vec) : sumVec n u w = sumVec n w u :=
  List.map_congr_left fun i _ => add_comm (co u i) (co w i)

theorem padd_comm (u w : Vec) : padd u w = padd w u := by
  rw [padd, padd, max_comm, sumVec_comm]

theorem co_of_padd {u w r : Vec} (h : padd u w = .ok r) (i : Nat) : co r i = co u i + co w i := by
  obtain ⟨-, rfl⟩ := rangeChecked_eq_ok.mp h
  exact co_sumVec_degree u w i

theorem co_of_psub {u w r : Vec} (h : psub u w = .ok r) (i : Nat) : co r i = co u i - co w i := by
  obtain ⟨x, hx, hr⟩ := Except.bind_eq_ok.mp h
  obtain ⟨-, rfl⟩ := rangeChecked_eq_ok.mp hx
  obtain rfl := Except.ok.inj hr
  rw [co_trim, co_diffVec_degree]

/-! ### Products -/

theorem pmul_of_iszero {u w : Vec} (h : iszero u = true ∨ iszero w = true) (n : Nat) : pmul n u w = .ok [0] :=
  if_pos (Bool.or_eq_true_iff.mpr h)

section

variable {n : Nat} {u w : Vec} (hu : iszero u = false) (hw : iszero w = false)

include hu hw

theorem pmul_of_nonzero :
    pmul n u w = if n < degree u + degree w + 1 then .error .capacity else rangeChecked (pmulExact u w) := by
  simp only [pmul, hu, hw, Bool.or_self, Bool.false_eq_true, if_false]

theorem length_pmulExact : (pmulExact u w).length = degree u + degree w + 1 := by
  simp [pmulExact, hu, hw]

end

/-- The value of PMUL is the exact product, also by the zero short cut (R123, last sentence). -/
theorem eq_pmulExact_of_pmul {n : Nat} {u w r : Vec} (h : pmul n u w = .ok r) : r = pmulExact u w := by
  unfold pmul at h
  split at h
  · next hz => rw [pmulExact, if_pos hz, Except.ok.inj h]
  · split at h
    · cases h
    · exact (rangeChecked_eq_ok.mp h).2.symm

theorem co_of_pmul {n : Nat} {u w r : Vec} (h : pmul n u w = .ok r) (k : Nat) : co r k = convCo u w k := by
  rw [eq_pmulExact_of_pmul h, co_pmulExact]

theorem pmul_comm (n : Nat) (u w : Vec) : pmul n u w = pmul n w u := by
  rw [pmul, pmul, Bool.or_comm, Nat.add_comm (degree u), pmulExact_comm]

/-- Convolution distributes over a vector whose coefficients are sums. -/
theorem convCo_add {w t r : Vec} (h : ∀ i, co r i = co w i + co t i) (u : Vec) (k : Nat) :
    convCo u r k = convCo u w k + convCo u t k := by
  simp only [convCo_eq_sum, h, mul_add, Finset.sum_add_distrib]

/-- The degree of the convolution is the sum of the degrees: the integers have no zero divisors (R123). -/
theorem isDegree_of_convCo {u w r : Vec} (hu : iszero u = false) (hw : iszero w = false)
    (h : ∀ k, co r k = convCo u w k) : IsDegree r (degree u + degree w) := by
  refine .inl ⟨?_, fun k hk => ?_⟩
  · rw [h, convCo_degree]
    exact mul_ne_zero (lead_ne_zero hu) (lead_ne_zero hw)
  · rw [h, convCo_eq_zero hk]

/-! ### The commands and the laws -/

/-- Settles O12: PADD is the range check of a sum whose length is known. -/
theorem paddAddsUntrimmed : Obligations.PaddAddsUntrimmed := by
  refine ⟨fun d a b => encodes_of_encode_eq rfl rfl, fun s d a b hf =>
    ⟨fun h => rawBinary_faults_of_unwritten hf h d padd, fun ta u tb w du dw ha hb hdu hdw => ?_⟩⟩
  obtain rfl := degree_of_isDegree hdu
  obtain rfl := degree_of_isDegree hdw
  simp only [← co_sumVec_degree u w]
  refine ⟨fun hr => ?_, fun hr => ⟨_, length_sumVec .., fun i => rfl, ?_⟩⟩
  · exact rawBinary_faults (f := padd) ha hb hf d (rangeChecked_of_not_inRange hr)
  · exact rawBinary_writes ha hb d (rangeChecked_of_inRange hr)

/-- Settles O13: PSUB is the range check of a difference, then a trim. -/
theorem psubSubtractsTrimmed : Obligations.PsubSubtractsTrimmed := by
  refine ⟨fun d a b => encodes_of_encode_eq rfl rfl, fun s d a b hf =>
    ⟨fun h => rawBinary_faults_of_unwritten hf h d psub, fun ta u tb w ha hb => ?_⟩⟩
  simp only [← co_diffVec_degree u w]
  refine ⟨fun hr => ?_, fun hr => ⟨_, trimmed_trim_diffVec .., co_trim _, ?_⟩⟩
  · exact rawBinary_faults (f := psub) ha hb hf d (Except.bind_of_error (rangeChecked_of_not_inRange hr))
  · exact rawBinary_writes ha hb d (Except.bind_of_ok (rangeChecked_of_inRange hr) rfl)

/-- Settles O14, by the outcomes of PMUL's checks in their order. -/
theorem pmulMultiplies : Obligations.PmulMultiplies := by
  refine ⟨fun d a b => encodes_of_encode_eq rfl rfl, fun s d a b hf =>
    ⟨fun h => rawBinary_faults_of_unwritten hf h d _, fun ta u tb w ha hb =>
      ⟨fun hz => ?_, fun du dw hdu hdw hu hw => ?_⟩⟩⟩
  · exact rawBinary_writes ha hb d (pmul_of_iszero (hz.imp iszero_iff.mpr iszero_iff.mpr) _)
  · obtain rfl := degree_of_isDegree hdu
    obtain rfl := degree_of_isDegree hdw
    have hu := iszero_eq_false_iff.mpr ⟨_, hu⟩
    have hw := iszero_eq_false_iff.mpr ⟨_, hw⟩
    have hpmul := pmul_of_nonzero (n := s.cfg.maxLen) hu hw
    simp only [← co_pmulExact u w]
    refine ⟨fun hl => ?_, fun hl hr => ?_, fun hl hr => ⟨_, length_pmulExact hu hw, fun k => rfl, ?_⟩⟩
    · exact rawBinary_faults ha hb hf d (hpmul.trans (if_pos hl))
    · exact rawBinary_faults ha hb hf d
        (hpmul.trans ((if_neg (Nat.not_lt.mpr hl)).trans (rangeChecked_of_not_inRange hr)))
    · exact rawBinary_writes ha hb d
        (hpmul.trans ((if_neg (Nat.not_lt.mpr hl)).trans (rangeChecked_of_inRange hr)))

/-- Settles O56: commutativity as vectors, the other laws coefficient by coefficient. -/
theorem rawPolynomialLaws : Obligations.RawPolynomialLaws := by
  refine ⟨padd_comm, pmul_comm, fun u w r x hr hx i => ?_, fun n u w t r a b c e hr ha hb hc he k => ?_,
    fun n u w r du dw hr hdu hdw hu hw => ?_⟩
  · rw [co_of_psub hx, co_of_padd hr, add_sub_cancel_right]
  · rw [co_of_pmul ha, co_of_padd he, co_of_pmul hb, co_of_pmul hc, convCo_add (co_of_padd hr)]
  · obtain rfl := degree_of_isDegree hdu
    obtain rfl := degree_of_isDegree hdw
    exact isDegree_of_convCo (iszero_eq_false_iff.mpr ⟨_, hu⟩) (iszero_eq_false_iff.mpr ⟨_, hw⟩) (co_of_pmul hr)

end Sys2Proof.Machine

/-! PROOFS. Field construction, the identities and the element normalizer: the word of each command, its faults in the
order of its checks, and what it writes (spec/43_field.md R130 to R141). -/

namespace Sys2Proof.Machine

open Sys2Proof.Claims

/-! ### FNEW's checks (R133) -/

/-- FNEW's three reads answer together, before every other check. -/
theorem fnewReads_of_held {s : State} {a b : XIdx} {c : PIdx} {p n : Int} {tag : Option FIdx} {m : Vec}
    (ha : s.x[a] = .held p) (hb : s.x[b] = .held n) (hc : s.p[c] = .held tag m)
    {f : Int → Int → Vec → Except Cause State} {r : Except Cause State} (hr : f p n m = r) :
    (do let p ← s.readX a; let n ← s.readX b; let m ← s.readVec c; f p n m) = r :=
  Except.bind_of_ok (readX_of_held ha) (Except.bind_of_ok (readX_of_held hb)
    (Except.bind_of_ok (readVec_of_held hc) hr))

/-- The second test of the modulus: reduction loses the degree, or the whole vector, exactly when `p` divides the leading
coefficient. -/
theorem enorm_loses_degree_iff {p : Int} {m : Vec} :
    (iszero (enorm p m) = true ∨ (degree (enorm p m) : Int) ≠ degree m) ↔ p ∣ co m (degree m) := by
  rw [← cmod_eq_zero_iff, ← co_enorm]
  constructor
  · intro h
    by_contra hlead
    have hz : iszero (enorm p m) = false := iszero_eq_false_iff.mpr ⟨_, hlead⟩
    have hdeg : degree (enorm p m) = degree m :=
      degree_of_isDegree (.inl ⟨hlead, fun i hi => by rw [co_enorm, co_of_degree_lt hi, cmod_zero]⟩)
    simp [hz, hdeg] at h
  · intro hlead
    by_contra! h
    obtain ⟨hz, hdeg⟩ := h
    rw [← Int.ofNat_inj.mp hdeg] at hlead
    exact lead_ne_zero (Bool.not_eq_true _ ▸ hz) hlead

/-- A modulus that keeps its degree under reduction has `n + 1` entries (R133). -/
theorem length_enorm_of_not_dvd {p : Int} {m : Vec} (hm : m ≠ []) (h : ¬ p ∣ co m (degree m)) :
    (enorm p m).length = degree m + 1 := by
  obtain ⟨_, hdeg⟩ := not_or.mp (mt enorm_loses_degree_iff.mp h)
  rw [(trimmed_enorm p hm).length_eq, Int.ofNat_inj.mp (not_not.mp hdeg)]

/-! ### The commands -/

/-- Settles O15, by the outcomes of its checks in their order. -/
theorem fnewConstructsField : Obligations.FnewConstructsField := by
  refine ⟨fun d a b c => encodes_of_encode_eq rfl rfl, fun s d a b c hf =>
    ⟨fun h => ?_, fun p n tag m dm ha hb hc hdm => ?_⟩⟩
  · exact (execFnew_of_unwritten d h).trans (finish_of_error hf .unwrittenRegister rfl)
  · obtain rfl := degree_of_isDegree hdm
    refine ⟨fun h => ?_, fun hd hp h => ?_, fun hd hp hn hdeg hlead => ?_⟩
    · refine finish_of_error hf .invalidField (fnewReads_of_held ha hb hc ?_)
      by_cases hd : s.f[d] ≠ .invalid
      · exact Except.bind_of_error (raiseIf_pos hd _)
      · exact Except.bind_of_ok (raiseIf_neg hd _)
          (Except.bind_of_error (raiseIf_pos (h.resolve_left hd) _))
    · refine finish_of_error hf .invalidModulus (fnewReads_of_held ha hb hc
        (Except.bind_of_ok (raiseIf_neg (not_not_intro hd) _) (Except.bind_of_ok (raiseIf_neg (not_lt.mpr hp) _) ?_)))
      by_cases hn : n < 1 ∨ (degree m : Int) ≠ n
      · exact Except.bind_of_error (raiseIf_pos hn _)
      · obtain ⟨hn1, hdeg⟩ := not_or.mp hn
        obtain rfl := not_not.mp hdeg
        have hlead : p ∣ co m (degree m) := (h.resolve_left hn1).resolve_left hdeg
        exact Except.bind_of_ok (raiseIf_neg hn _)
          (Except.bind_of_error (raiseIf_pos (enorm_loses_degree_iff.mpr hlead) _))
    · subst hdeg
      have hm : m ≠ [] := by
        rintro rfl
        exact absurd hn (by decide)
      have hn' : ¬ ((degree m : Int) < 1 ∨ (degree m : Int) ≠ degree m) := by omega
      refine ⟨enorm p m, length_enorm_of_not_dvd hm hlead, co_enorm p m, ?_⟩
      exact finish_of_ok (fnewReads_of_held ha hb hc
        (Except.bind_of_ok (raiseIf_neg (not_not_intro hd) _) (Except.bind_of_ok (raiseIf_neg (not_lt.mpr hp) _)
          (Except.bind_of_ok (raiseIf_neg hn' _)
            (Except.bind_of_ok (raiseIf_neg (mt enorm_loses_degree_iff.mp hlead) _) rfl)))))

/-- Settles O16: the read of the slot is the one check. -/
theorem ezeroEoneGiveIdentities : Obligations.EzeroEoneGiveIdentities := by
  refine ⟨fun d a => ⟨encodes_of_encode_eq rfl rfl, encodes_of_encode_eq rfl rfl⟩, fun s d a hf =>
    ⟨fun ha => ⟨?_, ?_⟩, fun fd ha => ⟨?_, ?_⟩⟩⟩
  · exact finish_of_error hf .invalidField (Except.bind_of_error (readF_of_invalid ha))
  · exact finish_of_error hf .invalidField (Except.bind_of_error (readF_of_invalid ha))
  · exact finish_of_ok (Except.bind_of_ok (readF_of_valid ha) rfl)
  · exact finish_of_ok (Except.bind_of_ok (readF_of_valid ha) rfl)

/-- Settles O17, by the outcomes of its checks; the element is the normalized vector. -/
theorem enewBindsReduced : Obligations.EnewBindsReduced := by
  refine ⟨fun d a b => encodes_of_encode_eq rfl rfl, fun s d a b hf =>
    ⟨fun ha => ?_, fun tag v ha => ⟨fun hb => ?_, fun fd k hb hk => ?_⟩⟩⟩
  · exact finish_of_error hf .unwrittenRegister (Except.bind_of_error (readVec_of_unwritten ha))
  · exact finish_of_error hf .invalidField
      (Except.bind_of_ok (readVec_of_held ha) (Except.bind_of_error (readF_of_invalid hb)))
  · obtain rfl := degree_of_isDegree hk
    refine ⟨fun hn => ?_, fun hn hv => ⟨enorm fd.p v, trimmed_enorm fd.p hv, co_enorm fd.p v, ?_⟩⟩
    · exact finish_of_error hf .degreeTooLarge (Except.bind_of_ok (readVec_of_held ha)
        (Except.bind_of_ok (readF_of_valid hb) (Except.bind_of_error (raiseIf_pos hn _))))
    · exact finish_of_ok (Except.bind_of_ok (readVec_of_held ha)
        (Except.bind_of_ok (readF_of_valid hb) (Except.bind_of_ok (raiseIf_neg (not_lt.mpr hn) _) rfl)))

/-- Settles O18: the normalizer keeps a trimmed, reduced vector as it is. -/
theorem enormNormalizes : Obligations.EnormNormalizes := by
  refine ⟨fun d a => encodes_of_encode_eq rfl rfl, fun s d a hf =>
    ⟨checksOneElement_of_bind hf rfl, fun t v fd ha ht hv =>
      ⟨enorm fd.p v, trimmed_enorm fd.p hv, co_enorm fd.p v, fun ⟨htrim, hred, _⟩ => enorm_of_reduced htrim hred, ?_⟩⟩⟩
  exact finish_of_ok (Except.bind_of_ok (elems1_of_element ha) (Except.bind_of_ok (readF_of_valid ht) rfl))

end Sys2Proof.Machine

/-! PROOFS. Element addition, subtraction and multiplication: the word of each command, its faults in the order of its
checks, what it writes, and the ring laws of the elements of a slot (spec/44_element_addsubmul.md R145 to R151). -/

namespace Sys2Proof.Machine

open Sys2Proof.Claims

/-! ### The operand checks of two elements (spec/43_field.md R141) -/

section

variable {s : State} {a b : PIdx}

theorem elems2_of_raw {ta tb : Option FIdx} {u w : Vec} (ha : s.p[a] = .held ta u) (hb : s.p[b] = .held tb w)
    (h : ta = none ∨ tb = none) : s.elems2 a b = .error .notElement := by
  refine Except.bind_of_ok (readP_of_held ha) (Except.bind_of_ok (readP_of_held hb) ?_)
  cases ta with
  | none => rfl
  | some f =>
    obtain rfl : tb = none := h.resolve_left (Option.some_ne_none f)
    rfl

theorem elems2_of_two_slots {f g : FIdx} {u w : Vec} (ha : s.p[a] = .held (some f) u) (hb : s.p[b] = .held (some g) w)
    (h : f ≠ g) : s.elems2 a b = .error .fieldMismatch :=
  Except.bind_of_ok (readP_of_held ha) (Except.bind_of_ok (readP_of_held hb)
    (Except.bind_of_ok (elementTag_some f) (Except.bind_of_ok (elementTag_some g)
      (Except.bind_of_error (raiseIf_pos h .fieldMismatch)))))

theorem elems2_of_elements {t : FIdx} {u w : Vec} (ha : s.p[a] = .held (some t) u) (hb : s.p[b] = .held (some t) w) :
    s.elems2 a b = .ok (t, u, w) := elems2_eq_ok.mpr ⟨ha, hb⟩

/-- A command that begins with `elems(a, b)` makes the checks of R141 first, in their order. -/
theorem checksTwoElements_of_bind {i : Instr} {f : FIdx × Vec × Vec → Except Cause State} (hf : s.fault = false)
    (h : exec i s = finish s (s.elems2 a b >>= f)) : ChecksTwoElements i a b s := by
  refine ⟨fun hab => ?_, fun ta u tb w ha hb hraw => ?_, fun f u g w ha hb hfg => ?_⟩ <;> rw [h]
  · exact finish_of_error hf .unwrittenRegister (Except.bind_of_error (elems2_of_unwritten hab))
  · exact finish_of_error hf .notElement (Except.bind_of_error (elems2_of_raw ha hb hraw))
  · exact finish_of_error hf .fieldMismatch (Except.bind_of_error (elems2_of_two_slots ha hb hfg))

end

/-! ### The outcomes of the family once the operands are read (R145) -/

section

variable {s : State} {a b : PIdx} {t : FIdx} {u w : Vec} {fd : FieldRec} {f : FieldRec → Vec → Vec → Except Cause Vec}
  (ha : s.p[a] = .held (some t) u) (hb : s.p[b] = .held (some t) w) (ht : s.f[t] = .valid fd)

include ha hb ht

theorem elementBinary_faults (hf : s.fault = false) (d : PIdx) {c : Cause} (hr : f fd u w = .error c) :
    elementBinary d a b f s = .next (faulted s c.code) :=
  finish_of_error hf c (Except.bind_of_ok (elems2_of_elements ha hb)
    (Except.bind_of_ok (readF_of_valid ht) (Except.bind_of_error hr)))

theorem elementBinary_writes (d : PIdx) {r : Vec} (hr : f fd u w = .ok r) :
    elementBinary d a b f s = .next (counted (withP s d (some t) r)) :=
  finish_of_ok (Except.bind_of_ok (elems2_of_elements ha hb)
    (Except.bind_of_ok (readF_of_valid ht) (Except.bind_of_ok hr rfl)))

end

/-! ### Sums and differences (R146) -/

theorem max_length_pos {u : Vec} (hu : u ≠ []) (w : Vec) : 0 < max u.length w.length :=
  lt_max_of_lt_left (List.length_pos_of_ne_nil hu)

theorem trimmed_eadd (fd : FieldRec) {u : Vec} (hu : u ≠ []) (w : Vec) : Trimmed (eadd fd u w) :=
  trimmed_enorm fd.p (List.ne_nil_of_length_pos (by rw [length_sumVec]; exact max_length_pos hu w))

theorem trimmed_esub (fd : FieldRec) {u : Vec} (hu : u ≠ []) (w : Vec) : Trimmed (esub fd u w) :=
  trimmed_enorm fd.p (List.ne_nil_of_length_pos (by rw [length_diffVec]; exact max_length_pos hu w))

theorem co_eadd (fd : FieldRec) (u w : Vec) (i : Nat) : co (eadd fd u w) i = (co u i + co w i) % fd.p := by
  rw [eadd, co_enorm, co_sumVec_length, cmod]

theorem co_esub (fd : FieldRec) (u w : Vec) (i : Nat) : co (esub fd u w) i = (co u i - co w i) % fd.p := by
  rw [esub, co_enorm, co_diffVec_length, cmod]

theorem length_eadd_le (fd : FieldRec) (u w : Vec) : (eadd fd u w).length ≤ max u.length w.length :=
  (length_enorm_le fd.p _).trans (length_sumVec ..).le

theorem eadd_comm (fd : FieldRec) (u w : Vec) : eadd fd u w = eadd fd w u := by
  rw [eadd, eadd, max_comm, sumVec_comm]

/-- Elements are known by their polynomials modulo `p`. -/
theorem IsElement.eq_of_toPoly {fd : FieldRec} (hp : 2 ≤ fd.p) {u w : Vec} (hu : IsElement fd u) (hw : IsElement fd w)
    (h : toPoly fd.p.toNat u = toPoly fd.p.toNat w) : u = w := by
  obtain ⟨trimmedU, reducedU, -⟩ := hu
  obtain ⟨trimmedW, reducedW, -⟩ := hw
  exact reducedU.eq_of_toPoly hp reducedW trimmedU trimmedW h

theorem eadd_assoc {fd : FieldRec} (hp : 2 ≤ fd.p) {u w v : Vec} (hu : IsElement fd u) (hw : IsElement fd w)
    (hv : IsElement fd v) : eadd fd (eadd fd u w) v = eadd fd u (eadd fd w v) := by
  refine IsElement.eq_of_toPoly hp (isElement_eadd hp (isElement_eadd hp hu hw) hv)
    (isElement_eadd hp hu (isElement_eadd hp hw hv)) ?_
  simp only [toPoly_eadd hp, add_assoc]

theorem eadd_zero {fd : FieldRec} (hp : 2 ≤ fd.p) {u : Vec} (hu : IsElement fd u) : eadd fd u [0] = u := by
  have hzero : IsElement fd [0] := isElement_singleton le_rfl (by omega)
  refine IsElement.eq_of_toPoly hp (isElement_eadd hp hu hzero) hu ?_
  rw [toPoly_eadd hp, toPoly_singleton, Int.cast_zero, Polynomial.C_0, add_zero]

/-! ### Products (R149) -/

/-- A product that is small modulo `p` is not reduced by the modulus, so no inverse is needed. -/
theorem emul_of_smallProduct {fd : FieldRec} (hf : IsField fd) {u w : Vec} (h : SmallProduct fd u w) :
    emul fd u w = .ok (enorm fd.p (pmulExact u w)) := by
  have hlow : degm (enorm fd.p (pmulExact u w)) < degm fd.mod := by
    rw [degm_of_not_iszero hf.mod_not_zero, hf.degree_mod, degm_lt_iff]
    intro k hk
    rw [co_enorm, co_pmulExact, cmod_eq_zero_iff]
    exact h k hk
  exact Except.bind_of_ok
    (divmod_small fd (trimmed_enorm fd.p (pmulExact_ne_nil u w)) hf.mod_not_zero hlow) rfl

/-- The two cases in which `emul` has a value are those of `Times`. -/
theorem emul_times {fd : FieldRec} (hf : IsField fd) {u w : Vec} (h : ¬ NoTimes fd u w) :
    ∃ r, emul fd u w = .ok r ∧ Times fd u w r := by
  by_cases hg : UnitModulus fd
  · obtain ⟨r, hr⟩ := emul_total hf u w (.inl hg)
    exact ⟨r, hr, .inl ⟨hg, emul_ok hf hr⟩⟩
  · have hs : SmallProduct fd u w := not_not.mp fun hs => h ⟨hg, hs⟩
    exact ⟨_, emul_of_smallProduct hf hs, .inr ⟨hs, trimmed_enorm fd.p (pmulExact_ne_nil u w), fun k => by
      rw [co_enorm, co_pmulExact, cmod]⟩⟩

theorem emul_of_noTimes {fd : FieldRec} (hf : IsField fd) {u w : Vec} (h : NoTimes fd u w) :
    emul fd u w = .error .leadNotUnit := by
  obtain ⟨hg, hs⟩ := h
  unfold SmallProduct at hs
  push Not at hs
  exact emul_leadNotUnit hf hg hs

/-- Over a unit modulus `emul` answers the reduced product, which is unique. -/
theorem emul_of_isProduct {fd : FieldRec} (hf : IsField fd) (hg : UnitModulus fd) {u w r : Vec}
    (h : IsProduct fd u w r) : emul fd u w = .ok r := by
  obtain ⟨r', hr'⟩ := emul_total hf u w (.inl hg)
  rw [hr', (emul_ok hf hr').unique hf hg h]

/-- Reduced products add up in the second factor. -/
theorem IsProduct.eadd {fd : FieldRec} (hp : 2 ≤ fd.p) {u w v x y : Vec} (hx : IsProduct fd u w x)
    (hy : IsProduct fd u v y) : IsProduct fd u (eadd fd w v) (eadd fd x y) := by
  obtain ⟨trimmed, reduced, -⟩ := isElement_eadd hp hx.isElement hy.isElement
  refine isProduct_of_toPoly hp trimmed reduced ((length_eadd_le fd x y).trans (max_le hx.small hy.small)) ?_
  rw [toPoly_eadd hp, toPoly_eadd hp, mul_add, add_sub_add_comm]
  exact dvd_add (hx.toPoly hp) (hy.toPoly hp)

/-- An element of degree below `n` is its own product with the identity. -/
theorem isProduct_one {fd : FieldRec} (hf : IsField fd) {u : Vec} (hu : IsElement fd u)
    (hs : ∀ i, fd.n ≤ i → co u i = 0) : IsProduct fd u [1] u := by
  obtain ⟨hp, hn, -⟩ := hf
  obtain ⟨trimmed, reduced, -⟩ := hu
  have hd : degree u ≤ fd.n - 1 := degree_le_of_co fun i hi => hs i (by omega)
  have hl : u.length ≤ fd.n := by
    rw [trimmed.length_eq]
    omega
  refine isProduct_of_toPoly hp trimmed reduced hl ?_
  rw [toPoly_singleton, Int.cast_one, Polynomial.C_1, mul_one, sub_self]
  exact dvd_zero _

/-! ### The commands and the laws -/

/-- Settles O19: both are the normalizer over a coefficient-wise sum or difference. -/
theorem eaddEsubReduceModP : Obligations.EaddEsubReduceModP := by
  refine ⟨fun d a b => ⟨encodes_of_encode_eq rfl rfl, encodes_of_encode_eq rfl rfl⟩, fun s d a b hf =>
    ⟨checksTwoElements_of_bind hf rfl, checksTwoElements_of_bind hf rfl, fun t u w fd ha hb ht hu =>
      ⟨⟨eadd fd u w, trimmed_eadd fd hu w, co_eadd fd u w, ?_⟩,
        ⟨esub fd u w, trimmed_esub fd hu w, co_esub fd u w, ?_⟩⟩⟩⟩
  · exact elementBinary_writes (f := fun fd u w => .ok (eadd fd u w)) ha hb ht d rfl
  · exact elementBinary_writes (f := fun fd u w => .ok (esub fd u w)) ha hb ht d rfl

/-- Settles O20: the value of `emul` is `Times`, and it has none exactly when `NoTimes` holds. -/
theorem emulReducesByModulus : Obligations.EmulReducesByModulus := by
  refine ⟨fun d a b => encodes_of_encode_eq rfl rfl, fun s d a b hf =>
    ⟨checksTwoElements_of_bind hf rfl, fun t u w fd ha hb ht hfd => ⟨fun h => ?_, fun h => ?_⟩⟩⟩
  · exact elementBinary_faults ha hb ht hf d (emul_of_noTimes hfd h)
  · obtain ⟨r, hr, htimes⟩ := emul_times hfd h
    exact ⟨r, htimes, (emul_ok hfd hr).small, elementBinary_writes ha hb ht d hr⟩

/-- Settles O57: sums by their polynomials modulo `p`, products by the uniqueness of the reduced product. -/
theorem elementRingLaws : Obligations.ElementRingLaws := by
  intro fd u w v hf hg hu hw hv
  have hp : 2 ≤ fd.p := hf.1
  obtain ⟨x, hx⟩ := emul_total hf u w (.inl hg)
  obtain ⟨y, hy⟩ := emul_total hf u v (.inl hg)
  obtain ⟨r, hr⟩ := emul_total hf u [1] (.inl hg)
  refine ⟨eadd_comm fd u w, eadd_assoc hp hu hw hv, eadd_zero hp hu, emul_comm fd u w, ⟨x, y, hx, hy, ?_⟩,
    fun hs => ?_, r, hr, emul_ok hf hr⟩
  · exact emul_of_isProduct hf hg ((emul_ok hf hx).eadd hp (emul_ok hf hy))
  · exact emul_of_isProduct hf hg (isProduct_one hf hu hs)

end Sys2Proof.Machine

/-! PROOFS. Division of elements with remainder: the words, the outcomes of a division by the divisor's degree and
leading coefficient, and the two commands (spec/45_element_divmod.md R155 to R161). -/

namespace Sys2Proof.Machine

open Sys2Proof.Claims

/-! ### The word with one register as both destinations (R76, R160) -/

theorem decode_edivmod_same_destinations (d a b : PIdx) :
    decode (rWord 0x53 d a b d) = .error .sameDestinations := by
  obtain ⟨hop, hd, -, -, hc, hz⟩ := fields_rWord (op := 0x53) d.isLt a.isLt b.isLt d.isLt
  rw [decode_edivmod hop, hd, hc, if_pos rfl, zZero, hz]
  rfl

/-! ### The outcomes of a division by a divisor that is not 0 (R157, R158) -/

theorem degm_lt_degm_iff {u w : Vec} (hw : iszero w = false) : degm u < degm w ↔ ∀ i, degree w ≤ i → co u i = 0 := by
  rw [degm_of_not_iszero hw, degm_lt_iff]

/-- A unit leading coefficient or a dividend below the divisor suffices; the latter is its own remainder. -/
theorem divmod_divides {fd : FieldRec} (hp : 2 ≤ fd.p) {u w : Vec} (hu : IsElement fd u) (hw : iszero w = false)
    (h : Int.gcd (lead w) fd.p = 1 ∨ ∀ i, degree w ≤ i → co u i = 0) :
    ∃ q r, divmod fd u w = .ok (q, r) ∧ DivSpec fd.p u w q r ∧
      ((∀ i, degree w ≤ i → co u i = 0) → q = [0] ∧ r = u) := by
  obtain ⟨trimmed, reduced, -⟩ := hu
  by_cases hlow : ∀ i, degree w ≤ i → co u i = 0
  · have hd : divmod fd u w = .ok ([0], u) := divmod_small fd trimmed hw ((degm_lt_degm_iff hw).mpr hlow)
    obtain ⟨-, hspec, -⟩ := divmod_ok hp trimmed reduced hd
    exact ⟨[0], u, hd, hspec, fun _ => ⟨rfl, rfl⟩⟩
  · obtain ⟨q, r, hd, hspec, -⟩ := divmod_unit hp trimmed reduced hw (h.resolve_right hlow)
    exact ⟨q, r, hd, hspec, fun h => absurd h hlow⟩

/-- Any other dividend needs the inverse that the leading coefficient does not have. -/
theorem divmod_needs_unit {fd : FieldRec} (hp : 2 ≤ fd.p) {u w : Vec} (hw : iszero w = false)
    (hg : Int.gcd (lead w) fd.p ≠ 1) (h : ∃ i, degree w ≤ i ∧ co u i ≠ 0) :
    divmod fd u w = .error .leadNotUnit := by
  obtain ⟨i, hi, hne⟩ := h
  have hhigh : ¬ degm u < degm w := fun hlt => hne ((degm_lt_degm_iff hw).mp hlt i hi)
  exact divmod_leadNotUnit hp hw (not_lt.mp hhigh) hg

theorem remainder_of_divmod {fd : FieldRec} {u w q r : Vec} (h : divmod fd u w = .ok (q, r)) :
    remainder fd u w = .ok r := Except.bind_of_ok h rfl

theorem remainder_of_error {fd : FieldRec} {u w : Vec} {c : Cause} (h : divmod fd u w = .error c) :
    remainder fd u w = .error c := Except.bind_of_error h

/-! ### EDIVMOD's outcomes once the operands are read (R160) -/

section

variable {s : State} {d c a b : PIdx} {t : FIdx} {u w : Vec} {fd : FieldRec}
  (hdc : d ≠ c) (ha : s.p[a] = .held (some t) u) (hb : s.p[b] = .held (some t) w) (ht : s.f[t] = .valid fd)

include hdc ha hb ht

theorem execEdivmod_faults (hf : s.fault = false) {e : Cause} (h : divmod fd u w = .error e) :
    execEdivmod d c a b s = .next (faulted s e.code) :=
  finish_of_error hf e (Except.bind_of_ok (raiseIf_neg hdc _) (Except.bind_of_ok (elems2_of_elements ha hb)
    (Except.bind_of_ok (readF_of_valid ht) (Except.bind_of_error h))))

theorem execEdivmod_writes {q r : Vec} (h : divmod fd u w = .ok (q, r)) :
    execEdivmod d c a b s = .next (counted (withP (withP s d (some t) q) c (some t) r)) :=
  finish_of_ok (Except.bind_of_ok (raiseIf_neg hdc _) (Except.bind_of_ok (elems2_of_elements ha hb)
    (Except.bind_of_ok (readF_of_valid ht) (Except.bind_of_ok h rfl))))

end

/-! ### The commands -/

/-- Settles O21: the destinations are tested first, then the operands, and the rest is the outcome of the division. -/
theorem edivmodDivides : Obligations.EdivmodDivides := by
  refine ⟨fun d c a b hdc => encodes_of_encode_eq (decide_eq_true hdc) rfl,
    fun d a b => ⟨.sameDestinations, decode_edivmod_same_destinations d a b⟩, fun s d c a b hf => ⟨?_, fun hdc =>
      ⟨checksTwoElements_of_bind hf (congrArg (finish s) (Except.bind_of_ok (raiseIf_neg hdc _) rfl)),
        fun t u w fd ha hb ht hfd hu hw => ⟨fun hzero => ?_, fun dw hdw hne => ?_⟩⟩⟩⟩
  · exact finish_of_error hf .illegalCommand (Except.bind_of_error (raiseIf_pos rfl _))
  · exact execEdivmod_faults hdc ha hb ht hf (divmod_zero fd u (iszero_iff.mpr hzero))
  · obtain rfl := degree_of_isDegree hdw
    have hwz : iszero w = false := iszero_eq_false_iff.mpr ⟨_, hne⟩
    refine ⟨fun h => ?_, fun hg hhigh => ?_⟩
    · obtain ⟨q, r, hd, hspec, hlow⟩ := divmod_divides hfd.1 hu hwz h
      exact ⟨q, r, hspec, hlow, execEdivmod_writes hdc ha hb ht hd⟩
    · exact execEdivmod_faults hdc ha hb ht hf (divmod_needs_unit hfd.1 hwz hg hhigh)

/-- Settles O22: the second component of the same division, which faults as the division does. -/
theorem emodGivesRemainder : Obligations.EmodGivesRemainder := by
  refine ⟨fun d a b => encodes_of_encode_eq rfl rfl, fun s d a b hf => ⟨checksTwoElements_of_bind hf rfl,
    fun t u w fd ha hb ht hfd hu hw => ⟨fun hzero => ?_, fun dw hdw hne => ?_⟩⟩⟩
  · exact elementBinary_faults ha hb ht hf d (remainder_of_error (divmod_zero fd u (iszero_iff.mpr hzero)))
  · obtain rfl := degree_of_isDegree hdw
    have hwz : iszero w = false := iszero_eq_false_iff.mpr ⟨_, hne⟩
    refine ⟨fun h => ?_, fun hg hhigh => ?_⟩
    · obtain ⟨q, r, hd, hspec, hlow⟩ := divmod_divides hfd.1 hu hwz h
      exact ⟨q, r, hspec, fun hs => (hlow hs).2, elementBinary_writes ha hb ht d (remainder_of_divmod hd)⟩
    · exact elementBinary_faults ha hb ht hf d (remainder_of_error (divmod_needs_unit hfd.1 hwz hg hhigh))

end Sys2Proof.Machine

/-! PROOFS. Inversion of elements: what an answer of `einv` is and which faults it raises, the inverses that exist over
an irreducible modulus, and the command (spec/46_element_inverse.md R170 to R173). -/

namespace Sys2Proof.Machine

open Sys2Proof.Claims

/-! ### Vectors and their polynomials modulo `p` -/

theorem toPoly_of_iszero {p : Int} (hp : 2 ≤ p) {v : Vec} (hz : iszero v = true) : toPoly p.toNat v = 0 :=
  (toPoly_eq_zero_iff hp).mpr fun k => by
    rw [iszero_iff.mp hz]
    exact dvd_zero _

theorem natDegree_toPoly {p : Int} (hp : 2 ≤ p) {v : Vec} (hr : Reduced p v) :
    (toPoly p.toNat v).natDegree = degree v := by
  cases hz : iszero v
  · refine Polynomial.natDegree_eq_of_le_of_coeff_ne_zero ?_ ?_
    · refine Polynomial.natDegree_le_iff_coeff_eq_zero.mpr fun k hk => ?_
      rw [coeff_toPoly, co_of_degree_lt hk, Int.cast_zero]
    · rw [coeff_toPoly, Ne, cast_eq_zero_iff hp]
      obtain ⟨h0, h1⟩ := hr.co_bounds hp (degree v)
      exact fun hdvd => lead_ne_zero hz (Int.eq_zero_of_dvd_of_nonneg_of_lt h0 h1 hdvd)
  · rw [toPoly_of_iszero hp hz, Polynomial.natDegree_zero, degree_of_iszero hz]

theorem exists_reduced_toPoly {p : Int} (hp : 2 ≤ p) (f : Polynomial (ZMod p.toNat)) :
    ∃ v : Vec, Reduced p v ∧ toPoly p.toNat v = f := by
  obtain ⟨v, rfl⟩ := exists_toPoly (n := p.toNat) (by omega) f
  exact ⟨enorm p v, reduced_enorm hp v, toPoly_enorm hp v⟩

/-! ### Answers (R173) -/

/-- The last step of `einv` is a reduced product, so its answer is fully reduced. -/
theorem inverse_of_einv_eq_ok {fd : FieldRec} (hf : IsField fd) {e v : Vec} (he : IsElement fd e)
    (h : einv fd e = .ok v) : Inverse fd e v := by
  have hinv : IsProduct fd e v [1] := einv_ok hf he h
  unfold einv at h
  split at h
  · cases h
  · obtain ⟨w, -, h⟩ := Except.bind_eq_ok.mp h
    obtain ⟨-, -, h⟩ := Except.bind_eq_ok.mp h
    obtain ⟨g, -, h⟩ := Except.bind_eq_ok.mp h
    have hlast : IsProduct fd [g] w.y0 v := emul_ok hf h
    exact ⟨hlast.trimmed, hlast.reduced, hlast.small, hinv⟩

/-- Two inverses `v` and `w` of `e` differ by `v (1 - e w) - w (1 - e v)`, a multiple of the modulus. -/
theorem inverse_unique {fd : FieldRec} (hf : IsField fd) (hg : UnitModulus fd) {e v w : Vec} (hv : Inverse fd e v)
    (hw : Inverse fd e w) : v = w := by
  obtain ⟨trimmedV, reducedV, smallV, productV⟩ := hv
  obtain ⟨trimmedW, reducedW, smallW, productW⟩ := hw
  refine reducedV.eq_of_toPoly hf.1 reducedW trimmedV trimmedW (sub_eq_zero.mp ?_)
  refine eq_zero_of_mod_dvd hf hg (fun k hk => ?_) ?_
  · rw [Polynomial.coeff_sub, coeff_toPoly, coeff_toPoly, co_of_length_le (smallV.trans hk),
      co_of_length_le (smallW.trans hk), sub_self]
  · obtain ⟨x, hx⟩ := productV.toPoly hf.1
    obtain ⟨y, hy⟩ := productW.toPoly hf.1
    simp only [toPoly_singleton, Int.cast_one, Polynomial.C_1] at hx hy
    exact ⟨toPoly fd.p.toNat w * x - toPoly fd.p.toNat v * y,
      by linear_combination toPoly fd.p.toNat w * hx - toPoly fd.p.toNat v * hy⟩

/-- Over a unit modulus the zero element has no inverse: the modulus, of degree 1 or more, does not divide 1. -/
theorem iszero_eq_false_of_invertible {fd : FieldRec} (hf : IsField fd) (hg : UnitModulus fd) {e v : Vec}
    (h : IsProduct fd e v [1]) : iszero e = false := by
  rw [← Bool.not_eq_true]
  intro hz
  have hdvd := h.toPoly hf.1
  rw [toPoly_of_iszero hf.1 hz, zero_mul, zero_sub, dvd_neg] at hdvd
  have hone : toPoly fd.p.toNat [1] = 0 := eq_zero_of_mod_dvd hf hg (fun k hk => by
    rw [coeff_toPoly, co_of_length_le (hf.2.1.trans hk), Int.cast_zero]) hdvd
  have hp : fd.p ∣ 1 := (toPoly_eq_zero_iff hf.1).mp hone 0
  have := Int.le_of_dvd one_pos hp
  have := hf.1
  omega

/-! ### Faults (R171) -/

theorem invP_error {p : Int} (hp : 2 ≤ p) {c : Int} {e : Cause} (h : invP p c = .error e) : e = .leadNotUnit := by
  by_cases hg : Int.gcd c p = 1
  · obtain ⟨v, hv, -⟩ := (invP_spec hp c).1 hg
    rw [hv] at h
    cases h
  · rw [(invP_spec hp c).2 hg] at h
    cases h
    rfl

/-- A pass divides by a vector that is not 0, so the division and the products can only miss a unit. -/
theorem einvPass_error {fd : FieldRec} (hf : IsField fd) {e : Vec} {v : EuclidVars} (hi : EuclidInv fd e v)
    (hz : iszero v.b = false) {c : Cause} (h : einvPass fd v = .error c) : c = .leadNotUnit := by
  obtain hd | ⟨_, -, h⟩ := Except.bind_eq_error.mp h
  · obtain ⟨hzero, -⟩ | ⟨-, -, -, hc⟩ := divmod_error hf.1 hi.trimmedA hi.reducedA hd
    · rw [hz] at hzero
      cases hzero
    · exact hc
  obtain hx | ⟨_, -, h⟩ := Except.bind_eq_error.mp h
  · exact emul_error hf hx
  obtain hy | ⟨_, -, h⟩ := Except.bind_eq_error.mp h
  · exact emul_error hf hy
  · cases h

theorem einvLoop_error {fd : FieldRec} (hf : IsField fd) {e : Vec} (fuel : Nat) {v : EuclidVars}
    (hi : EuclidInv fd e v) {c : Cause} (h : einvLoop fd fuel v = .error c) : c = .leadNotUnit := by
  induction fuel generalizing v with
  | zero => cases h
  | succ fuel ih =>
    unfold einvLoop at h
    split at h
    · cases h
    · next hz =>
      obtain hpass | ⟨w, hw, h⟩ := Except.bind_eq_error.mp h
      · exact einvPass_error hf hi (Bool.eq_false_iff.mpr hz) hpass
      · exact ih (euclidInv_pass hf hi hw).1 h

theorem einv_error {fd : FieldRec} (hf : IsField fd) {e : Vec} (he : IsElement fd e) {c : Cause}
    (h : einv fd e = .error c) : c = .divisionByZero ∨ c = .leadNotUnit ∨ c = .notInvertible := by
  obtain ⟨trimmed, reduced, -⟩ := he
  unfold einv at h
  split at h
  · cases h
    exact .inl rfl
  refine .inr ?_
  obtain hloop | ⟨w, -, h⟩ := Except.bind_eq_error.mp h
  · exact .inl (einvLoop_error hf _ (euclidInv_start hf trimmed reduced) hloop)
  obtain hdeg | ⟨_, -, h⟩ := Except.bind_eq_error.mp h
  · exact .inr (raiseIf_eq_error.mp hdeg).2.symm
  obtain hunit | ⟨_, -, h⟩ := Except.bind_eq_error.mp h
  · exact .inl (invP_error hf.1 hunit)
  · exact .inl (emul_error hf h)

/-! ### Inverses over an irreducible modulus -/

/-- A factor that is no unit is the polynomial of a reduced vector of degree 1 or more. -/
theorem exists_vector_of_not_isUnit {p : Int} (hp : Nat.Prime p.toNat) {f : Polynomial (ZMod p.toNat)} (h0 : f ≠ 0)
    (hu : ¬ IsUnit f) : ∃ v : Vec, Reduced p v ∧ toPoly p.toNat v = f ∧ ∃ i, 1 ≤ i ∧ co v i ≠ 0 := by
  have := Fact.mk hp
  have h2 : 2 ≤ p := by have := hp.two_le; omega
  obtain ⟨v, hr, rfl⟩ := exists_reduced_toPoly h2 f
  refine ⟨v, hr, rfl, degree v, ?_, ?_⟩
  · rw [← natDegree_toPoly h2 hr, Nat.one_le_iff_ne_zero]
    exact fun hdeg => hu (Polynomial.isUnit_iff_degree_eq_zero.mpr
      ((Polynomial.degree_eq_iff_natDegree_eq h0).mpr hdeg))
  · exact lead_ne_zero (Bool.eq_false_iff.mpr fun hz => h0 (toPoly_of_iszero h2 hz))

/-- `IrreducibleModulus` is irreducibility of the modulus as a polynomial modulo `p`. -/
theorem irreducible_toPoly_mod {fd : FieldRec} (hf : IsField fd) (hp : Nat.Prime fd.p.toNat)
    (hirr : IrreducibleModulus fd) : Irreducible (toPoly fd.p.toNat fd.mod) := by
  have := Fact.mk hp
  have hdeg : (toPoly fd.p.toNat fd.mod).natDegree = fd.n := by
    rw [natDegree_toPoly hf.1 hf.2.2.2.1, hf.degree_mod]
  have hn : 1 ≤ fd.n := hf.2.1
  refine ⟨fun hu => ?_, fun f g hfg => or_iff_not_and_not.mpr fun ⟨huf, hug⟩ => ?_⟩
  · have := Polynomial.natDegree_eq_zero_of_isUnit hu
    omega
  · have hne : f * g ≠ 0 := by
      rw [← hfg]
      exact Polynomial.ne_zero_of_natDegree_gt (n := 0) (by omega)
    obtain ⟨u, reducedU, rfl, hu⟩ := exists_vector_of_not_isUnit hp (left_ne_zero_of_mul hne) huf
    obtain ⟨w, reducedW, rfl, hw⟩ := exists_vector_of_not_isUnit hp (right_ne_zero_of_mul hne) hug
    obtain ⟨k, hk⟩ := hirr u w reducedU reducedW hu hw
    refine hk ((cast_eq_zero_iff hf.1 _).mp ?_)
    rw [Int.cast_sub, ← coeff_toPoly_mul, ← coeff_toPoly, hfg, sub_self]

/-- Every non-zero element of degree below `n` is coprime to an irreducible modulus: a Bézout pair gives an inverse. -/
theorem invertible_of_irreducible {fd : FieldRec} (hf : IsField fd) (hp : Nat.Prime fd.p.toNat)
    (hirr : IrreducibleModulus fd) {e : Vec} (he : IsElement fd e) (hne : ∃ i, co e i ≠ 0)
    (hs : ∀ i, fd.n ≤ i → co e i = 0) : ∃ v, IsProduct fd e v [1] := by
  have := Fact.mk hp
  have hp2 : 2 ≤ fd.p := hf.1
  obtain ⟨-, reduced, -⟩ := he
  have hz : iszero e = false := iszero_eq_false_iff.mpr hne
  have hlt : degree e < fd.n := by
    have := degm_lt_iff.mpr hs
    rw [degm_of_not_iszero hz] at this
    omega
  have hndvd : ¬ toPoly fd.p.toNat fd.mod ∣ toPoly fd.p.toNat e := fun hdvd => by
    have hle := Polynomial.natDegree_le_of_dvd hdvd fun h0 =>
      Bool.eq_false_iff.mp hz (reduced.iszero_of_toPoly hp2 h0)
    rw [natDegree_toPoly hp2 hf.2.2.2.1, natDegree_toPoly hp2 reduced, hf.degree_mod] at hle
    omega
  obtain ⟨x, y, hxy⟩ := ((irreducible_toPoly_mod hf hp hirr).coprime_iff_not_dvd).mpr hndvd
  obtain ⟨v, rfl⟩ := exists_toPoly (n := fd.p.toNat) hp.ne_zero y
  obtain ⟨-, reducedOne, -⟩ := isElement_singleton (fd := fd) zero_le_one (by omega)
  refine ⟨v, isProduct_of_toPoly hp2 (trimmed_singleton 1) reducedOne hf.2.1 ⟨-x, ?_⟩⟩
  rw [toPoly_singleton, Int.cast_one, Polynomial.C_1]
  linear_combination hxy

/-! ### The outcomes of EINV once its element is read (R172) -/

section

variable {s : State} {a : PIdx} {t : FIdx} {e : Vec} {fd : FieldRec}
  (ha : s.p[a] = .held (some t) e) (ht : s.f[t] = .valid fd)

include ha ht

theorem execEinv_faults (hf : s.fault = false) (d : PIdx) {c : Cause} (h : einv fd e = .error c) :
    execEinv d a s = .next (faulted s c.code) :=
  finish_of_error hf c (Except.bind_of_ok (elems1_of_element ha)
    (Except.bind_of_ok (readF_of_valid ht) (Except.bind_of_error h)))

theorem execEinv_writes (d : PIdx) {v : Vec} (h : einv fd e = .ok v) :
    execEinv d a s = .next (counted (withP s d (some t) v)) :=
  finish_of_ok (Except.bind_of_ok (elems1_of_element ha)
    (Except.bind_of_ok (readF_of_valid ht) (Except.bind_of_ok h rfl)))

/-- In prime characteristic an invertible element gets its one inverse. -/
theorem execEinv_writes_inverse (hfd : IsField fd) (he : IsElement fd e) (hp : Nat.Prime fd.p.toNat)
    (h : ∃ v, IsProduct fd e v [1]) (d : PIdx) :
    ∃ v, Inverse fd e v ∧ (∀ v', Inverse fd e v' → v' = v) ∧
      execEinv d a s = .next (counted (withP s d (some t) v)) := by
  have hg : UnitModulus fd := gcd_mod_of_prime hfd hp
  obtain ⟨x, hx⟩ := h
  obtain ⟨v, hv⟩ := (einv_of_prime hfd hp he (iszero_eq_false_of_invertible hfd hg hx)).1 ⟨x, hx⟩
  have hinv : Inverse fd e v := inverse_of_einv_eq_ok hfd he hv
  exact ⟨v, hinv, fun v' hv' => inverse_unique hfd hg hv' hinv, execEinv_writes ha ht d hv⟩

end

/-! ### The command -/

/-- Settles O23: the zero element is refused first, and the loop finds the inverse of the others where there is one. -/
theorem einvInverts : Obligations.EinvInverts := by
  refine ⟨fun d a => encodes_of_encode_eq rfl rfl, fun s d a hf => ⟨checksOneElement_of_bind hf rfl,
    fun t e fd ha ht hfd he => ⟨fun hzero => ?_, fun hp => ⟨fun h => ?_, fun hne hno => ?_⟩⟩⟩⟩
  · exact execEinv_faults ha ht hf d (if_pos (iszero_iff.mpr hzero))
  · exact execEinv_writes_inverse ha ht hfd he hp h d
  · exact execEinv_faults ha ht hf d ((einv_of_prime hfd hp he (iszero_eq_false_iff.mpr hne)).2 hno)

/-- Settles O24: an answer of `einv` is an inverse, and every fault of `einv` is one of the three. -/
theorem einvIsSoundInAnyRing : Obligations.EinvIsSoundInAnyRing := by
  intro s d a t e fd hf ha ht hfd he
  cases h : einv fd e with
  | ok v => exact .inl ⟨v, inverse_of_einv_eq_ok hfd he h, execEinv_writes ha ht d h⟩
  | error c =>
    refine .inr ⟨c.code, ?_, execEinv_faults ha ht hf d h⟩
    obtain rfl | rfl | rfl := einv_error hfd he h <;> decide

/-- Settles O25: over an irreducible modulus every such element is invertible. -/
theorem einvTotalInAField : Obligations.EinvTotalInAField := by
  intro s d a t e fd _ ha ht hfd he hp hirr hne hs
  obtain ⟨v, hinv, -, hexec⟩ :=
    execEinv_writes_inverse ha ht hfd he hp (invertible_of_irreducible hfd hp hirr he hne hs) d
  exact ⟨v, hinv, hexec⟩

end Sys2Proof.Machine

/-! PROOFS. Powers and orders of elements: products as a function of their operands and their associativity, the powers
the statements name, the two loops along them, and the commands (spec/47_element_pow_order.md R180 to R184). -/

namespace Sys2Proof.Machine

open Sys2Proof.Claims

/-! ### Products (R149, R182) -/

theorem trimmed_of_times {fd : FieldRec} {u w r : Vec} (h : Times fd u w r) : Trimmed r := by
  obtain ⟨-, hproduct⟩ | ⟨-, htrimmed, -⟩ := h
  · exact hproduct.trimmed
  · exact htrimmed

/-- `Times` has at most one value, that of `emul`. -/
theorem emul_of_times {fd : FieldRec} (hf : IsField fd) {u w r : Vec} (h : Times fd u w r) : emul fd u w = .ok r := by
  obtain ⟨hg, hproduct⟩ | ⟨hs, htrimmed, hco⟩ := h
  · exact emul_of_isProduct hf hg hproduct
  · rw [emul_of_smallProduct hf hs]
    refine congrArg Except.ok ((trimmed_enorm fd.p (pmulExact_ne_nil u w)).ext htrimmed fun k => ?_)
    rw [co_enorm, co_pmulExact, cmod, hco]

/-- `u y - z = (x v - z) + v (u w - x) - u (w v - y)`, and the modulus divides the three terms. -/
theorem isProduct_assoc {fd : FieldRec} (hp : 2 ≤ fd.p) {u w v x y z : Vec} (hx : IsProduct fd u w x)
    (hy : IsProduct fd w v y) (hz : IsProduct fd x v z) : IsProduct fd u y z := by
  refine isProduct_of_toPoly hp hz.trimmed hz.reduced hz.small ?_
  obtain ⟨f, hf⟩ := hx.toPoly hp
  obtain ⟨g, hg⟩ := hy.toPoly hp
  obtain ⟨k, hk⟩ := hz.toPoly hp
  exact ⟨k + toPoly fd.p.toNat v * f - toPoly fd.p.toNat u * g,
    by linear_combination hk + toPoly fd.p.toNat v * hf - toPoly fd.p.toNat u * hg⟩

/-- Settles O58: the product of `u` and `w v` is the product of `u w` and `v`, by uniqueness. -/
theorem elementMultiplicationAssociative : Obligations.ElementMultiplicationAssociative := by
  intro fd u w v hf hg
  obtain ⟨x, hx⟩ := emul_total hf u w (.inl hg)
  obtain ⟨y, hy⟩ := emul_total hf w v (.inl hg)
  obtain ⟨z, hz⟩ := emul_total hf x v (.inl hg)
  exact ⟨x, y, z, hx, hy, hz,
    emul_of_isProduct hf hg (isProduct_assoc hf.1 (emul_ok hf hx) (emul_ok hf hy) (emul_ok hf hz))⟩

/-! ### Powers -/

theorem powers_succ_iff {fd : FieldRec} {u : Vec} {rs : Nat → Vec} {m : Nat} :
    Powers fd u rs (m + 1) ↔ Powers fd u rs m ∧ Times fd (rs m) u (rs (m + 1)) := by
  rw [Powers, Powers, Nat.forall_lt_succ_right, and_assoc]

/-- Over a unit modulus every product exists, and so does every power. -/
theorem exists_powers {fd : FieldRec} (hf : IsField fd) (hg : UnitModulus fd) (u : Vec) (m : Nat) :
    ∃ rs, Powers fd u rs m := by
  have hnone : ∀ r, ¬ NoTimes fd r u := fun _ hno => hno.1 hg
  choose next _ hnext using fun r => emul_times hf (hnone r)
  exact ⟨fun k => next^[k] [1], rfl, fun k _ => by simpa only [Function.iterate_succ_apply'] using hnext _⟩

/-! ### The loop of `epow` (R182) -/

theorem epowLoop_succ (fd : FieldRec) (u : Vec) (k : Nat) (r : Vec) :
    epowLoop fd u (k + 1) r = emul fd r u >>= epowLoop fd u k := by
  rw [epowLoop]
  cases emul fd r u <;> rfl

/-- After `m` passes the loop stands at the `m`-th power. -/
theorem epowLoop_of_powers {fd : FieldRec} (hf : IsField fd) {u : Vec} {rs : Nat → Vec} {m : Nat}
    (h : Powers fd u rs m) (k : Nat) : epowLoop fd u (m + k) [1] = epowLoop fd u k (rs m) := by
  induction m generalizing k with
  | zero => rw [Nat.zero_add, h.1]
  | succ m ih =>
    obtain ⟨hm, htimes⟩ := powers_succ_iff.mp h
    rw [Nat.add_assoc, Nat.add_comm 1 k, ih hm, epowLoop_succ, emul_of_times hf htimes, Except.ok_bind]

theorem reducedExponent_eq {n m : Nat} {e : Int} (h : (m : Int) = if 2 ≤ n then e % n else 0) :
    reducedExponent n e = m := by
  unfold reducedExponent cmod
  split_ifs at h ⊢ <;> omega

section

variable {fd : FieldRec} (hf : IsField fd) {u : Vec} {rs : Nat → Vec} {n m : Nat} {e : Int}
  (hm : (m : Int) = if 2 ≤ n then e % n else 0)

include hf hm

theorem epow_of_powers (h : Powers fd u rs m) : epow fd n u e = .ok (rs m) := by
  rw [epow, reducedExponent_eq hm]
  exact epowLoop_of_powers hf h 0

theorem epow_of_noTimes {j : Nat} (hj : j < m) (h : Powers fd u rs j) (hno : NoTimes fd (rs j) u) :
    epow fd n u e = .error .leadNotUnit := by
  obtain ⟨k, rfl⟩ := Nat.exists_eq_add_of_lt hj
  rw [epow, reducedExponent_eq hm, Nat.add_assoc, epowLoop_of_powers hf h, epowLoop_succ, emul_of_noTimes hf hno,
    Except.error_bind]

end

/-! ### The loop of `eord` (R184) -/

theorem Trimmed.isone_iff_eq {r : Vec} (h : Trimmed r) : isone r = true ↔ r = [1] := by
  refine ⟨fun hone => h.ext (trimmed_singleton 1) fun i => ?_, fun hone => hone ▸ rfl⟩
  obtain ⟨h0, hpos⟩ := isone_iff.mp hone
  cases i with
  | zero => exact h0
  | succ i => exact hpos (i + 1) (Nat.le_add_left 1 i)

theorem eordLoop_one (fd : FieldRec) (u : Vec) (fuel k : Nat) : eordLoop fd u (fuel + 1) k [1] = .ok (k : Int) := rfl

theorem eordLoop_of_ne_one {r : Vec} (h : Trimmed r) (hne : r ≠ [1]) (fd : FieldRec) (u : Vec) (fuel k : Nat) :
    eordLoop fd u (fuel + 1) k r = emul fd r u >>= eordLoop fd u fuel (k + 1) := by
  rw [eordLoop, if_neg (mt h.isone_iff_eq.mp hne)]
  cases emul fd r u <;> rfl

/-- While no power up to the `j`-th is one, the search goes on with the next product; `j = 0` is the start of `eord`. -/
theorem eord_of_powers {fd : FieldRec} (hf : IsField fd) {u : Vec} (hu : iszero u = false) {rs : Nat → Vec} {j : Nat}
    (h : Powers fd u rs j) (hne : ∀ i, 1 ≤ i → i ≤ j → rs i ≠ [1]) (k : Nat) :
    eord fd (j + k : Nat) u = emul fd (rs j) u >>= eordLoop fd u k (j + 1) := by
  induction j generalizing k with
  | zero =>
    rw [eord, if_neg (Bool.eq_false_iff.mp hu), Int.toNat_natCast, Nat.zero_add, h.1]
  | succ j ih =>
    obtain ⟨hj, htimes⟩ := powers_succ_iff.mp h
    rw [Nat.add_assoc, Nat.add_comm 1 k, ih hj fun i h1 hi => hne i h1 (hi.trans j.le_succ),
      emul_of_times hf htimes, Except.ok_bind,
      eordLoop_of_ne_one (trimmed_of_times htimes) (hne (j + 1) (Nat.le_add_left 1 j) le_rfl)]

section

variable {fd : FieldRec} (hf : IsField fd) {u : Vec} (hu : iszero u = false) {rs : Nat → Vec} {n : Nat}

include hf hu

theorem eord_of_power_one {k : Nat} (h1 : 1 ≤ k) (hk : k ≤ n) (h : Powers fd u rs k) (hone : rs k = [1])
    (hne : ∀ j, 1 ≤ j → j < k → rs j ≠ [1]) : eord fd n u = .ok (k : Int) := by
  obtain ⟨j, rfl⟩ := Nat.exists_eq_add_of_le' h1
  obtain ⟨i, rfl⟩ := Nat.exists_eq_add_of_le hk
  obtain ⟨hj, htimes⟩ := powers_succ_iff.mp h
  rw [Nat.add_assoc, Nat.add_comm 1 i, eord_of_powers hf hu hj fun i h1 hi => hne i h1 (Nat.lt_succ_of_le hi),
    emul_of_times hf htimes, Except.ok_bind, hone, eordLoop_one]

theorem eord_of_no_power_one (h : Powers fd u rs (n + 1)) (hne : ∀ j, 1 ≤ j → j ≤ n → rs j ≠ [1]) :
    eord fd n u = .ok 0 := by
  obtain ⟨hn, htimes⟩ := powers_succ_iff.mp h
  rw [← Nat.add_zero n, eord_of_powers hf hu hn hne, emul_of_times hf htimes, Except.ok_bind, eordLoop]

theorem eord_of_noTimes {j : Nat} (hj : j ≤ n) (h : Powers fd u rs j) (hne : ∀ i, 1 ≤ i → i ≤ j → rs i ≠ [1])
    (hno : NoTimes fd (rs j) u) : eord fd n u = .error .leadNotUnit := by
  obtain ⟨k, rfl⟩ := Nat.exists_eq_add_of_le hj
  rw [eord_of_powers hf hu h hne, emul_of_noTimes hf hno, Except.error_bind]

end

/-! ### The outcomes of EPOW and EORD once their operands are read (R181, R183) -/

theorem slotOrder_of_none {fd : FieldRec} (h : fd.ord = none) : slotOrder fd = .error .overflow := by
  rw [slotOrder, h]

theorem slotOrder_of_some {fd : FieldRec} {n : Int} (h : fd.ord = some n) : slotOrder fd = .ok n := by
  rw [slotOrder, h]

theorem execEpow_of_raw {s : State} {a : PIdx} {b : XIdx} {v : Vec} {e : Int} (ha : s.p[a] = .held none v)
    (hb : s.x[b] = .held e) (d : PIdx) : execEpow d a b s = finish s (.error .notElement) :=
  congrArg (finish s) (Except.bind_of_ok (readP_of_held ha) (Except.bind_of_ok (readX_of_held hb)
    (Except.bind_of_error elementTag_none)))

section

variable {s : State} {a : PIdx} {t : FIdx} {u : Vec} {fd : FieldRec}
  (ha : s.p[a] = .held (some t) u) (ht : s.f[t] = .valid fd)

include ha ht

theorem execEpow_of_element {b : XIdx} {e : Int} (hb : s.x[b] = .held e) (d : PIdx) :
    execEpow d a b s = finish s (slotOrder fd >>= fun n => epow fd n u e >>= fun r => .ok (s.writeP d (some t) r)) :=
  congrArg (finish s) (Except.bind_of_ok (readP_of_held ha) (Except.bind_of_ok (readX_of_held hb)
    (Except.bind_of_ok (elementTag_some t) (Except.bind_of_ok (readF_of_valid ht) rfl))))

theorem execEord_of_element (d : XIdx) :
    execEord d a s = finish s (slotOrder fd >>= fun n => eord fd n u >>= fun k => .ok (s.writeX d k)) :=
  congrArg (finish s) (Except.bind_of_ok (elems1_of_element ha) (Except.bind_of_ok (readF_of_valid ht) rfl))

end

section

variable {s : State} {fd : FieldRec} {n : Int} {α : Type} {f : Int → Except Cause α} {g : α → State}

/-- Without an order the slot refuses both commands, before any product. -/
theorem finish_of_no_order (hf : s.fault = false) (ho : fd.ord = none) :
    finish s (slotOrder fd >>= fun n => f n >>= fun r => .ok (g r)) = .next (faulted s 13#5) :=
  finish_of_error hf .overflow (Except.bind_of_error (slotOrder_of_none ho))

theorem finish_of_order_of_error (hf : s.fault = false) (ho : fd.ord = some n) (c : Cause) (h : f n = .error c) :
    finish s (slotOrder fd >>= fun n => f n >>= fun r => .ok (g r)) = .next (faulted s c.code) :=
  finish_of_error hf c (Except.bind_of_ok (slotOrder_of_some ho) (Except.bind_of_error h))

theorem finish_of_order_of_ok (ho : fd.ord = some n) {r : α} (h : f n = .ok r) :
    finish s (slotOrder fd >>= fun n => f n >>= fun r => .ok (g r)) = .next (counted (g r)) :=
  finish_of_ok (Except.bind_of_ok (slotOrder_of_some ho) (Except.bind_of_ok h rfl))

end

/-! ### The commands -/

/-- Settles O26: the loop of `epow` goes along the powers, and stops at the first that does not exist. -/
theorem epowMultipliesRepeatedly : Obligations.EpowMultipliesRepeatedly := by
  refine ⟨fun d a b => encodes_of_encode_eq rfl rfl, fun s d a b hf => ⟨fun h => ?_, fun e hb =>
    ⟨fun v ha => ?_, fun t u fd ha ht hfd => ?_⟩⟩⟩
  · exact (execEpow_of_unwritten d h).trans (finish_of_error hf .unwrittenRegister rfl)
  · exact (execEpow_of_raw ha hb d).trans (finish_of_error hf .notElement rfl)
  · have hexec := execEpow_of_element ha ht hb d
    refine ⟨fun ho => ?_, fun n m ho hm =>
      ⟨fun rs h => ?_, fun rs j hj h hno => ?_, fun hg => exists_powers hfd hg u m⟩⟩
    · exact hexec.trans (finish_of_no_order hf ho)
    · exact hexec.trans (finish_of_order_of_ok ho (epow_of_powers hfd hm h))
    · exact hexec.trans (finish_of_order_of_error hf ho .leadNotUnit (epow_of_noTimes hfd hm hj h hno))

/-- Settles O27: the loop of `eord` goes along the powers until one of them is one, or does not exist, or the order is
passed. -/
theorem eordFindsOrder : Obligations.EordFindsOrder := by
  refine ⟨fun d a => encodes_of_encode_eq rfl rfl, fun s d a hf => ⟨checksOneElement_of_bind hf rfl,
    fun t u fd ha ht hfd => ?_⟩⟩
  have hexec := execEord_of_element ha ht d
  refine ⟨fun ho => hexec.trans (finish_of_no_order hf ho), fun n ho => ⟨fun hzero => ?_, fun hne => ?_⟩⟩
  · exact hexec.trans (finish_of_order_of_ok ho (if_pos (iszero_iff.mpr hzero)))
  · have hu : iszero u = false := iszero_eq_false_iff.mpr hne
    refine ⟨fun rs k h1 hk h hone hlt => ?_, fun rs h hno => ?_, fun rs j hj h hlt hno => ?_,
      fun hg => exists_powers hfd hg u (n + 1)⟩
    · exact hexec.trans (finish_of_order_of_ok ho (eord_of_power_one hfd hu h1 hk h hone hlt))
    · exact hexec.trans (finish_of_order_of_ok ho (eord_of_no_power_one hfd hu h hno))
    · exact hexec.trans (finish_of_order_of_error hf ho .leadNotUnit (eord_of_noTimes hfd hu hj h hlt hno))

end Sys2Proof.Machine

/-! PROOFS. NOP, the soft reset, precise faults, the faulted state, the interrupt line and the emptying of the queue
(spec/48_system.md R190; spec/60_exceptions.md R205 to R215; spec/70_reset_and_hazards.md R231, R241). -/

namespace Sys2Proof.Machine

open Sys2Proof.Claims

/-- Settles O1: one encoding, and the model's own completion. -/
theorem nopOnlyCounts : Obligations.NopOnlyCounts :=
  ⟨encodes_of_encode_eq rfl rfl, fun s => finish_of_ok (s := s) rfl⟩

/-- Settles O50: a write of CTRL is never held, and bit 31 makes it the reset. -/
theorem softResetIsAHardResetKeepingOmem : Obligations.SoftResetIsAHardResetKeepingOmem := by
  intro s w ts ht hw
  rw [step_of_host ht (holds_writeCsr_of_ne_zero s (by decide) w)]
  exact congrArg Host.Outcome.next (if_pos hw)

/-! ### Which faults a command takes (R201, R205, R206) -/

/-- A command whose next state is faulted has not completed: a completion does not set `FAULT`. -/
theorem exec_faulted {i : Instr} {s t : State} (hf : s.fault = false) (h : exec i s = .next t) (ht : t.fault = true) :
    ∃ c, Raisable c ∧ t = faulted s c.code := by
  rcases exec_cases h with ⟨u, hu, rfl⟩ | ⟨c, hc, rfl⟩
  · have running : u.complete.fault = false := hu.onlyData.fault.trans hf
    exact absurd (ht.symm.trans running) nofun
  · exact ⟨c, hc, takeFault_eq_faulted hf c⟩

/-- The codes of R201, without the two reserved ones. -/
theorem code_of_raisable {c : Cause} (h : Raisable c) :
    1 ≤ c.code.toNat ∧ c.code.toNat ≤ 16 ∧ c.code ≠ 2#5 ∧ c.code ≠ 3#5 := by
  cases c with
  | invalidMonomial => exact absurd rfl h.1
  | duplicatePower => exact absurd rfl h.2
  | _ => decide

/-- Settles O37: a fault is taken in the state the command started from. -/
theorem faultsArePrecise : Obligations.FaultsArePrecise := by
  intro i s t hf h ht
  obtain ⟨c, hc, rfl⟩ := exec_faulted hf h ht
  obtain ⟨hlow, hhigh, hmonomial, hpower⟩ := code_of_raisable hc
  exact ⟨c.code, hlow, hhigh, hmonomial, hpower, rfl⟩

/-! ### The faulted state (R207) -/

/-- Settles O41: of the cases of a step, the engine's and a push need `FAULT = 0`, and the others but the reset keep the
fault record. -/
theorem faultedStateOnlyLeftByReset : Obligations.FaultedStateOnlyLeftByReset := by
  intro s hf hq
  refine ⟨fun ht => (engineStepsExactlyWhenQueued s ht).2.2 hf, fun t h hr => ?_⟩
  cases step_eq_next h with
  | command _ _ _ _ hf' | illegal _ _ _ _ hf' | push _ _ hf' => exact absurd (hf.symm.trans hf') nofun
  | reset ts w hs hw => exact absurd ⟨w, ts, hs, hw⟩ hr
  | quiet _ _ h | ack _ h | enables _ _ _ h | store _ _ _ _ _ h =>
    subst h
    exact ⟨hf, hq, rfl, rfl, rfl, rfl, rfl, rfl, rfl⟩

/-! ### The interrupt line (R215) -/

theorem irq_iff (s : State) : s.irq = true ↔ (s.fault = true ∧ s.fie = true) ∨ (s.done = true ∧ s.die = true) := by
  simp only [State.irq, Bool.or_eq_true, Bool.and_eq_true]

/-- Of the CSRs only CTRL holds `FIE`, and its reset clears `FAULT`. -/
theorem writeCsr_keeps_fault_enable {c : Csr} (hc : c ≠ .ctrl) (s : State) (w : Word) :
    (s.writeCsr c w).fault = s.fault ∧ (s.writeCsr c w).fie = s.fie := by
  cases c with
  | cmd =>
    simp only [State.writeCsr, State.pushCommand]
    split <;> exact ⟨rfl, rfl⟩
  | status =>
    rw [State.writeCsr, writeStatus_eq]
    exact ⟨rfl, rfl⟩
  | ctrl => exact absurd rfl hc
  | ecode | ecmd | eseq | cseq | param => exact ⟨rfl, rfl⟩

theorem hostStep_keeps_fault_enable {s t : State} {a : HostAccess} (ha : ∀ w, a ≠ .writeCsr 2 w)
    (h : State.hostStep s a = .next t) : t.fault = s.fault ∧ t.fie = s.fie := by
  cases a with
  | writeCsr k w =>
    simp only [State.hostStep] at h
    split at h
    · next c hk =>
      have hc : c ≠ .ctrl := by
        rintro rfl
        exact ha w (by rw [csrAt_eq_some hk])
      cases h
      exact writeCsr_keeps_fault_enable hc s w
    · cases h
  | readCsr | readOmem | writeOmem =>
    simp only [State.hostStep] at h
    split at h
    · cases h
      exact ⟨rfl, rfl⟩
    · cases h

/-- While `FAULT` is set the engine has no step, and of the host's accesses only a write of CTRL changes `FAULT` or
`FIE`. -/
theorem step_keeps_fault_enable {s t : State} (hf : s.fault = true) (h : step s = .next t)
    (hc : ∀ w ts, s.turns ≠ .host (.writeCsr 2 w) :: ts) : t.fault = s.fault ∧ t.fie = s.fie := by
  have hengine (ts : List Turn) : engineStep { s with turns := ts } = .fault .stopped := if_pos hf
  rcases step_cases s with hs | ⟨ts, -, hs | hs⟩ | ⟨a, ts, hts, -, hs⟩ <;> rw [hs] at h
  · exact absurd ((hengine s.turns).symm.trans h) nofun
  · exact absurd ((hengine ts).symm.trans h) nofun
  · cases h
    exact ⟨rfl, rfl⟩
  · exact hostStep_keeps_fault_enable (s := { s with turns := ts }) (fun w ha => hc w ts (by rw [hts, ha])) h

/-- A command that empties the queue sets `DONE`, whether it completes or faults (R33). -/
theorem exec_sets_done {i : Instr} {s t : State} (h : exec i s = .next t) (hq : t.q = []) : t.done = true := by
  rcases exec_cases h with ⟨u, hu, rfl⟩ | ⟨c, _, rfl⟩
  · have hempty : u.q.tail = [] := hq
    rw [State.complete_done, hempty, List.isEmpty_nil, Bool.or_true]
  · rfl

/-- Settles O55: the line is read off the next state's four bits, which the step's own statements give. -/
theorem interruptLine : Obligations.InterruptLine := by
  refine ⟨irq_iff, fun s m => ⟨rfl, rfl⟩, fun s t w ts hts hw h => ?_, fun s t w ts hts hw h => ?_,
    fun s t hf he h hc => ?_, fun i s t h => ⟨fun hd hq => ?_, fun he hf => ?_⟩⟩
  · rw [(hostWritesCsrs s 1 w ts hts).1 rfl] at h
    cases h
    simp only [State.irq, hw, Bool.not_true, Bool.and_false, Bool.false_and, Bool.or_false]
  · rw [(hostWritesCsrs s 2 w ts hts).2.1 rfl hw] at h
    cases h
    rfl
  · obtain ⟨hft, het⟩ := step_keeps_fault_enable hf h hc
    exact (irq_iff t).mpr (.inl ⟨hft.trans hf, het.trans he⟩)
  · obtain ⟨-, -, hdie, -⟩ := exec_keeps_host h
    exact (irq_iff t).mpr (.inr ⟨exec_sets_done h hq, hdie.trans hd⟩)
  · obtain ⟨-, hfie, -⟩ := exec_keeps_host h
    exact (irq_iff t).mpr (.inl ⟨hf, hfie.trans he⟩)

/-! ### The emptying of the queue (R241) -/

/-- The engine's step on a queued word leaves a state that runs on, unless it leaves the queue empty. -/
theorem engineStep_runs_on {s t : State} (h : engineStep s = .next t) :
    t.turns = s.turns ∧ (t.q = [] ∨ (t.fault = false ∧ t.q = s.q.tail)) := by
  obtain ⟨w, rest, hf, -, ⟨i, -, h⟩ | ⟨e, -, rfl⟩⟩ := engineStep_cases h
  · rcases exec_cases h with ⟨u, hu, rfl⟩ | ⟨c, -, rfl⟩
    · have hd := hu.onlyData
      exact ⟨hd.turns, .inr ⟨hd.fault.trans hf, congrArg List.tail hd.q⟩⟩
    · exact ⟨rfl, .inl rfl⟩
  · exact ⟨rfl, .inl rfl⟩

theorem run_succ_of_step {s u : State} (h : step s = .next u) (k : Nat) :
    Host.Core.run Sys2Proof.core (k + 1) s = Host.Core.run Sys2Proof.core k u := by
  have hcore : Sys2Proof.core.step s = .next u := h
  simp only [Host.Core.run, hcore]

/-- Settles O35, by induction on the queue: a step takes one word off, or a fault empties it at once. -/
theorem engineDrainsQueue : Obligations.EngineDrainsQueue := by
  intro s hts hf
  induction hq : s.q generalizing s with
  | nil => exact ⟨0, s, Nat.zero_le _, rfl, hq⟩
  | cons w rest ih =>
    obtain ⟨u, hstep, -⟩ := (engineStepsExactlyWhenQueued s hts).1 hf (by rw [hq]; exact List.cons_ne_nil w rest)
    obtain ⟨huts, huq | ⟨huf, huq⟩⟩ := engineStep_runs_on ((step_of_no_turns hts).symm.trans hstep)
    · exact ⟨1, u, by simp, run_succ_of_step hstep 0, huq⟩
    · rw [hq] at huq
      obtain ⟨k, t, hk, hrun, htq⟩ := ih u (huts.trans hts) huf huq
      exact ⟨k + 1, t, Nat.succ_le_succ hk, (run_succ_of_step hstep k).trans hrun, htq⟩

end Sys2Proof.Machine

/-! PROOFS. A command raises only the faults of its row (spec/60_exceptions.md R224): a list of causes is collected along
the checks of each command, and its codes are compared with the row. -/

namespace Sys2Proof.Machine

open Sys2Proof.Claims

/-! ### The causes a computation can raise -/

/-- What the computation answers has the property `P`, and what it raises is in the list `l`. -/
structure Outcomes {α : Type} (x : Except Cause α) (P : α → Prop) (l : List Cause) : Prop where
  answered : ∀ a, x = .ok a → P a
  raised : ∀ c, x = .error c → c ∈ l

theorem outcomes_ok {α : Type} {P : α → Prop} {a : α} (h : P a) : Outcomes (.ok a) P [] :=
  ⟨fun _ e => by cases e; exact h, nofun⟩

/-- A sequence raises what its first part raises, or its second after an answer of the first. -/
theorem outcomes_bind {α β : Type} {x : Except Cause α} {f : α → Except Cause β} {P : α → Prop} {Q : β → Prop}
    {l m : List Cause} (hx : Outcomes x P l) (hf : ∀ a, P a → Outcomes (f a) Q m) : Outcomes (x >>= f) Q (l ++ m) where
  answered b h := by
    obtain ⟨a, ha, hb⟩ := Except.bind_eq_ok.mp h
    exact (hf a (hx.answered a ha)).answered b hb
  raised c h := by
    rcases Except.bind_eq_error.mp h with he | ⟨a, ha, he⟩
    · exact List.mem_append_left m (hx.raised c he)
    · exact List.mem_append_right l ((hf a (hx.answered a ha)).raised c he)

/-- Nothing is asked of the answer. -/
theorem outcomes_of_error {α : Type} {x : Except Cause α} {l : List Cause} (h : ∀ c, x = .error c → c ∈ l) :
    Outcomes x (fun _ => True) l := ⟨fun _ _ => trivial, h⟩

theorem outcomes_raiseIf (p : Prop) [Decidable p] (c : Cause) : Outcomes (raiseIf p c) (fun _ => True) [c] :=
  outcomes_of_error fun _ h => List.mem_singleton.mpr (raiseIf_eq_error.mp h).2.symm

theorem outcomes_raiseIf_neg {p : Prop} [Decidable p] (hp : ¬ p) (c : Cause) :
    Outcomes (raiseIf p c) (fun _ => True) [] := by
  rw [raiseIf_neg hp]
  exact outcomes_ok trivial

theorem outcomes_checkAddr (s : State) (a : Nat) : Outcomes (s.checkAddr a) (fun _ => True) [.badAddress] :=
  outcomes_raiseIf _ _

theorem outcomes_readP (s : State) (i : PIdx) :
    Outcomes (s.readP i) (fun r => s.p[i] = .held r.1 r.2) [.unwrittenRegister] :=
  ⟨fun _ => readP_eq_ok.mp, fun _ h => List.mem_singleton.mpr (readP_error h)⟩

theorem outcomes_readVec (s : State) (i : PIdx) : Outcomes (s.readVec i) (fun _ => True) [.unwrittenRegister] :=
  outcomes_of_error fun _ h => List.mem_singleton.mpr (readVec_error h)

theorem outcomes_readX (s : State) (i : XIdx) : Outcomes (s.readX i) (fun _ => True) [.unwrittenRegister] :=
  outcomes_of_error fun _ h => List.mem_singleton.mpr (readX_error h)

theorem outcomes_readF (s : State) (i : FIdx) : Outcomes (s.readF i) (fun _ => True) [.invalidField] :=
  outcomes_of_error fun _ h => List.mem_singleton.mpr (readF_eq_error.mp h).2.symm

theorem outcomes_elementTag (tag : Option FIdx) : Outcomes (elementTag tag) (fun f => tag = some f) [.notElement] where
  answered _ := elementTag_eq_ok.mp
  raised c h := by
    cases tag with
    | none => cases h; exact List.mem_singleton_self _
    | some f => cases h

theorem outcomes_elems1 (s : State) (a : PIdx) :
    Outcomes (s.elems1 a) (fun e => s.p[a] = .held (some e.1) e.2) [.unwrittenRegister, .notElement] where
  answered _ := elems1_eq_ok.mp
  raised c h := by
    rcases elems1_eq_error.mp h with ⟨-, rfl⟩ | ⟨_, -, rfl⟩ <;> decide

theorem outcomes_elems2 (s : State) (a b : PIdx) :
    Outcomes (s.elems2 a b) (fun e => s.p[a] = .held (some e.1) e.2.1)
      [.unwrittenRegister, .notElement, .fieldMismatch] where
  answered _ h := (elems2_eq_ok.mp h).1
  raised c h := by
    rcases elems2_eq_error h with ⟨rfl, -⟩ | ⟨rfl, -⟩ | ⟨rfl, -⟩ <;> decide

/-- Under the invariant the tag of an element names a valid slot, and the element is one of its field (R28). -/
theorem outcomes_elementSlot {s : State} (h : DataInv s) {a : PIdx} {t : FIdx} {u : Vec}
    (ha : s.p[a] = .held (some t) u) : Outcomes (s.readF t) (fun fd => IsField fd ∧ IsElement fd u) [] := by
  obtain ⟨fd, ht, hu⟩ := h.elements a t u ha
  rw [readF_of_valid ht]
  exact outcomes_ok ⟨(h.fields t fd ht).1, hu⟩

/-! ### The arithmetic -/

theorem outcomes_rangeChecked (r : Vec) : Outcomes (rangeChecked r) (fun _ => True) [.overflow] :=
  outcomes_of_error fun _ h => List.mem_singleton.mpr (rangeChecked_eq_error.mp h).2.symm

theorem outcomes_psub (u w : Vec) : Outcomes (psub u w) (fun _ => True) [.overflow] :=
  outcomes_bind (outcomes_rangeChecked _) fun _ _ => outcomes_ok trivial

theorem outcomes_pmul (n : Nat) (u w : Vec) : Outcomes (pmul n u w) (fun _ => True) [.capacity, .overflow] :=
  outcomes_of_error fun c h => by
    unfold pmul at h
    split at h
    · cases h
    · split at h
      · cases h
        decide
      · exact List.mem_cons_of_mem _ ((outcomes_rangeChecked _).raised c h)

section

variable {fd : FieldRec} (hfd : IsField fd)

include hfd

theorem outcomes_divmod {u : Vec} (hu : IsElement fd u) (w : Vec) :
    Outcomes (divmod fd u w) (fun _ => True) [.divisionByZero, .leadNotUnit] :=
  outcomes_of_error fun c h => by
    obtain ⟨trimmed, reduced, -⟩ := hu
    rcases divmod_error hfd.1 trimmed reduced h with ⟨-, rfl⟩ | ⟨-, -, -, rfl⟩ <;> decide

theorem outcomes_remainder {u : Vec} (hu : IsElement fd u) (w : Vec) :
    Outcomes (remainder fd u w) (fun _ => True) [.divisionByZero, .leadNotUnit] :=
  outcomes_bind (outcomes_divmod hfd hu w) fun _ _ => outcomes_ok trivial

theorem outcomes_emul (u w : Vec) : Outcomes (emul fd u w) (fun _ => True) [.leadNotUnit] :=
  outcomes_of_error fun _ h => List.mem_singleton.mpr (emul_error hfd h)

theorem outcomes_einv {e : Vec} (he : IsElement fd e) :
    Outcomes (einv fd e) (fun _ => True) [.divisionByZero, .leadNotUnit, .notInvertible] :=
  outcomes_of_error fun c h => by
    rcases einv_error hfd he h with rfl | rfl | rfl <;> decide

theorem epowLoop_error {u : Vec} (k : Nat) {r : Vec} {c : Cause} (h : epowLoop fd u k r = .error c) :
    c = .leadNotUnit := by
  induction k generalizing r with
  | zero => cases h
  | succ k ih =>
    rw [epowLoop_succ] at h
    rcases Except.bind_eq_error.mp h with h | ⟨_, -, h⟩
    · exact emul_error hfd h
    · exact ih h

theorem eordLoop_error {u : Vec} (fuel k : Nat) {r : Vec} {c : Cause} (h : eordLoop fd u fuel k r = .error c) :
    c = .leadNotUnit := by
  induction fuel generalizing k r with
  | zero => cases h
  | succ fuel ih =>
    unfold eordLoop at h
    split at h
    · cases h
    · split at h
      · exact ih _ h
      · next e he =>
        cases h
        exact emul_error hfd he

theorem outcomes_epow (ord : Int) (u : Vec) (e : Int) : Outcomes (epow fd ord u e) (fun _ => True) [.leadNotUnit] :=
  outcomes_of_error fun _ h => List.mem_singleton.mpr (epowLoop_error hfd _ h)

theorem outcomes_eord (ord : Int) (u : Vec) : Outcomes (eord fd ord u) (fun _ => True) [.leadNotUnit] :=
  outcomes_of_error fun c h => by
    unfold eord at h
    split at h
    · cases h
    · rcases Except.bind_eq_error.mp h with h | ⟨_, -, h⟩
      · exact List.mem_singleton.mpr (emul_error hfd h)
      · exact List.mem_singleton.mpr (eordLoop_error hfd _ _ h)

end

theorem outcomes_slotOrder (fd : FieldRec) : Outcomes (slotOrder fd) (fun _ => True) [.overflow] :=
  outcomes_of_error fun c h => by
    cases ho : fd.ord with
    | none => rw [slotOrder_of_none ho] at h; cases h; decide
    | some k => rw [slotOrder_of_some ho] at h; cases h

/-! ### The commands and their rows -/

/-- Every cause of the list has its code in the command's row of R224. -/
def inRow (i : Instr) (l : List Cause) : Bool := l.all fun c => (faultsOf i).contains c.code

/-- When the command faults from `s`, it does so with a code of its row. -/
def FaultsInRow (i : Instr) (s : State) : Prop :=
  ∀ t, exec i s = .next t → t.fault = true → ∃ code ∈ faultsOf i, t = faulted s code

/-- A command that completes in a state with `FAULT = 0`, and raises causes of its row alone. -/
theorem faultsInRow_of_outcomes {i : Instr} {s : State} {r : Except Cause State} {l : List Cause} (hs : s.fault = false)
    (hexec : exec i s = finish s r) (hr : Outcomes r (fun u => u.fault = false) l) (hl : inRow i l = true) :
    FaultsInRow i s := by
  intro t h ht
  rw [hexec] at h
  rcases finish_eq_next.mp h with ⟨u, hu, rfl⟩ | ⟨c, hc, rfl⟩
  · exact absurd (ht.symm.trans (hr.answered u hu)) nofun
  · exact ⟨c.code, List.contains_iff_mem.mp (List.all_eq_true.mp hl c (hr.raised c hc)), takeFault_eq_faulted hs c⟩

section

variable {s : State} (hs : s.fault = false)

include hs

/-- The shape of raw arithmetic: two reads, then what the function raises. -/
theorem faultsInRow_rawBinary {i : Instr} {d a b : PIdx} {f : Vec → Vec → Except Cause Vec} {l : List Cause}
    (hexec : exec i s = rawBinary d a b f s) (hf : ∀ u w, Outcomes (f u w) (fun _ => True) l)
    (hl : inRow i ([.unwrittenRegister, .unwrittenRegister] ++ l) = true) : FaultsInRow i s := by
  refine faultsInRow_of_outcomes hs hexec (outcomes_bind (outcomes_readVec s a) fun u _ =>
    outcomes_bind (outcomes_readVec s b) fun w _ => outcomes_bind (hf u w) fun _ _ => outcomes_ok hs) ?_
  rw [List.append_nil]
  exact hl

variable (h : DataInv s)

include h

/-- The shape of the binary element commands: the checks of `elems(a, b)`, then what the function raises. -/
theorem faultsInRow_elementBinary {i : Instr} {d a b : PIdx} {f : FieldRec → Vec → Vec → Except Cause Vec}
    {l : List Cause} (hexec : exec i s = elementBinary d a b f s)
    (hf : ∀ fd u w, IsField fd → IsElement fd u → Outcomes (f fd u w) (fun _ => True) l)
    (hl : inRow i ([.unwrittenRegister, .notElement, .fieldMismatch] ++ l) = true) : FaultsInRow i s := by
  refine faultsInRow_of_outcomes hs hexec (outcomes_bind (outcomes_elems2 s a b) fun ⟨t, u, w⟩ ha =>
    outcomes_bind (outcomes_elementSlot h ha) fun fd ⟨hfd, hu⟩ =>
      outcomes_bind (hf fd u w hfd hu) fun _ _ => outcomes_ok hs) ?_
  rw [List.append_nil]
  exact hl

theorem exec_faultsInRow {i : Instr} (hw : i.wellFormed = true) : FaultsInRow i s := by
  cases i with
  | nop => exact faultsInRow_of_outcomes (r := .ok s) hs rfl (outcomes_ok hs) rfl
  | xli d imm =>
    exact faultsInRow_of_outcomes (r := .ok (s.writeX d (immValue imm))) hs rfl (outcomes_ok hs) rfl
  | pld d addr =>
    exact faultsInRow_of_outcomes hs rfl (outcomes_bind (outcomes_checkAddr _ _) fun _ _ =>
      outcomes_bind (outcomes_raiseIf _ _) fun _ _ => outcomes_bind (outcomes_checkAddr _ _) fun _ _ =>
      outcomes_ok hs) rfl
  | pst d addr =>
    exact faultsInRow_of_outcomes hs rfl (outcomes_bind (outcomes_readVec _ _) fun _ _ =>
      outcomes_bind (outcomes_checkAddr _ _) fun _ _ => outcomes_ok hs) rfl
  | xld d addr =>
    exact faultsInRow_of_outcomes hs rfl (outcomes_bind (outcomes_checkAddr _ _) fun _ _ => outcomes_ok hs) rfl
  | xst d addr =>
    exact faultsInRow_of_outcomes hs rfl (outcomes_bind (outcomes_readX _ _) fun _ _ =>
      outcomes_bind (outcomes_checkAddr _ _) fun _ _ => outcomes_ok hs) rfl
  | eldb d f addr =>
    exact faultsInRow_of_outcomes hs rfl (outcomes_bind (outcomes_readF _ _) fun _ _ =>
      outcomes_bind (outcomes_raiseIf _ _) fun _ _ => outcomes_bind (outcomes_checkAddr _ _) fun _ _ =>
      outcomes_bind (outcomes_raiseIf _ _) fun _ _ => outcomes_ok hs) rfl
  | estb d addr =>
    exact faultsInRow_of_outcomes hs rfl (outcomes_bind (outcomes_elems1 _ _) fun ⟨_, _⟩ ha =>
      outcomes_bind (outcomes_elementSlot h ha) fun _ _ => outcomes_bind (outcomes_raiseIf _ _) fun _ _ =>
      outcomes_bind (outcomes_raiseIf _ _) fun _ _ => outcomes_bind (outcomes_checkAddr _ _) fun _ _ =>
      outcomes_ok hs) rfl
  | copy d a => exact faultsInRow_of_outcomes hs rfl (outcomes_bind (outcomes_readP _ _) fun _ _ => outcomes_ok hs) rfl
  | pdeg | plead | pisz | piso | pnorm =>
    exact faultsInRow_of_outcomes hs rfl (outcomes_bind (outcomes_readVec _ _) fun _ _ => outcomes_ok hs) rfl
  | padd => exact faultsInRow_rawBinary hs rfl (fun _ _ => outcomes_rangeChecked _) rfl
  | psub => exact faultsInRow_rawBinary hs rfl outcomes_psub rfl
  | pmul => exact faultsInRow_rawBinary hs rfl (outcomes_pmul s.cfg.maxLen) rfl
  | fnew d a b c =>
    exact faultsInRow_of_outcomes hs rfl (outcomes_bind (outcomes_readX _ _) fun _ _ =>
      outcomes_bind (outcomes_readX _ _) fun _ _ => outcomes_bind (outcomes_readVec _ _) fun _ _ =>
      outcomes_bind (outcomes_raiseIf _ _) fun _ _ => outcomes_bind (outcomes_raiseIf _ _) fun _ _ =>
      outcomes_bind (outcomes_raiseIf _ _) fun _ _ => outcomes_bind (outcomes_raiseIf _ _) fun _ _ =>
      outcomes_ok hs) rfl
  | ezero | eone =>
    exact faultsInRow_of_outcomes hs rfl (outcomes_bind (outcomes_readF _ _) fun _ _ => outcomes_ok hs) rfl
  | enew d a b =>
    exact faultsInRow_of_outcomes hs rfl (outcomes_bind (outcomes_readVec _ _) fun _ _ =>
      outcomes_bind (outcomes_readF _ _) fun _ _ => outcomes_bind (outcomes_raiseIf _ _) fun _ _ =>
      outcomes_ok hs) rfl
  | enorm d a =>
    exact faultsInRow_of_outcomes hs rfl (outcomes_bind (outcomes_elems1 _ _) fun ⟨_, _⟩ ha =>
      outcomes_bind (outcomes_elementSlot h ha) fun _ _ => outcomes_ok hs) rfl
  | eadd | esub => exact faultsInRow_elementBinary hs h rfl (fun _ _ _ _ _ => outcomes_ok trivial) rfl
  | emul => exact faultsInRow_elementBinary hs h rfl (fun _ _ _ hfd _ => outcomes_emul hfd _ _) rfl
  | emod => exact faultsInRow_elementBinary hs h rfl (fun _ _ _ hfd hu => outcomes_remainder hfd hu _) rfl
  | edivmod d c a b =>
    have hdc : d ≠ c := of_decide_eq_true hw
    exact faultsInRow_of_outcomes hs rfl (outcomes_bind (outcomes_raiseIf_neg hdc _) fun _ _ =>
      outcomes_bind (outcomes_elems2 _ _ _) fun ⟨_, _, _⟩ ha =>
      outcomes_bind (outcomes_elementSlot h ha) fun _ ⟨hfd, hu⟩ =>
      outcomes_bind (outcomes_divmod hfd hu _) fun _ _ => outcomes_ok hs) rfl
  | einv d a =>
    exact faultsInRow_of_outcomes hs rfl (outcomes_bind (outcomes_elems1 _ _) fun ⟨_, _⟩ ha =>
      outcomes_bind (outcomes_elementSlot h ha) fun _ ⟨hfd, he⟩ => outcomes_bind (outcomes_einv hfd he) fun _ _ =>
      outcomes_ok hs) rfl
  | epow d a b =>
    exact faultsInRow_of_outcomes hs rfl (outcomes_bind (outcomes_readP _ _) fun ⟨tag, _⟩ ha =>
      outcomes_bind (outcomes_readX _ _) fun _ _ => outcomes_bind (outcomes_elementTag tag) fun _ ht =>
      outcomes_bind (outcomes_elementSlot h (ha.trans (congrArg (PReg.held · _) ht))) fun _ ⟨hfd, _⟩ =>
      outcomes_bind (outcomes_slotOrder _) fun _ _ => outcomes_bind (outcomes_epow hfd _ _ _) fun _ _ =>
      outcomes_ok hs) rfl
  | eord d a =>
    exact faultsInRow_of_outcomes hs rfl (outcomes_bind (outcomes_elems1 _ _) fun ⟨_, _⟩ ha =>
      outcomes_bind (outcomes_elementSlot h ha) fun _ ⟨hfd, _⟩ => outcomes_bind (outcomes_slotOrder _) fun _ _ =>
      outcomes_bind (outcomes_eord hfd _ _) fun _ _ => outcomes_ok hs) rfl

end

/-- Settles O38, command by command; the invariant keeps every element's slot valid, so no element command meets
`InvalidField`. -/
theorem commandsRaiseOnlyTheirFaults : Obligations.CommandsRaiseOnlyTheirFaults :=
  fun _ _ t h hw hs ht hf => exec_faultsInRow hs h hw t ht hf

end Sys2Proof.Machine
